-- ==== Sys2Proof/Word.lean ====
section
/-!
DEFINITION. The machine's word. Every cell, command operand and response datum is one word of `FW` bits, and `FW` is
fixed when the hardware is built: 32 or 64 (00_scope.md R6, R8, R10; 30_encoding.md R50). `Fmt` names the two builds.
-/

namespace Sys2Proof

/-- The build parameter `FW` (00_scope.md R6): binary32 or binary64. -/
inductive Fmt where
  | b32
  | b64
deriving DecidableEq, Repr, Inhabited

/-- `FW` itself, in bits (00_scope.md R10). -/
abbrev Fmt.width : Fmt → Nat
  | .b32 => 32
  | .b64 => 64

/-- Width of the exponent field: [30:23] or [62:52] (00_scope.md R10). -/
def Fmt.expBits : Fmt → Nat
  | .b32 => 8
  | .b64 => 11

/-- Width of the fraction field: [22:0] or [51:0] (00_scope.md R10). -/
def Fmt.fracBits : Fmt → Nat
  | .b32 => 23
  | .b64 => 52

/-- One word of `FW` bits, bit 0 the least significant (00_scope.md R8). -/
abbrev Word (F : Fmt) := BitVec F.width

end Sys2Proof
end

