-- ==== Sys2Proof/Syntax.lean ====
section
/-!
DEFINITION. The commands of the port as syntax: one constructor of `Instr` per row of spec/opcode_table.json
(30_encoding.md R44), the cells a command can name (10_state.md R21) and the four LFO shapes (41_modulation_oscillator.md R69).
-/

namespace Sys2Proof

/-- The waveform shape of the modulation oscillator, "a closed tagged variant" (41_modulation_oscillator.md R63, R69). -/
inductive Shape where
  | sine
  | triangle
  | ramp
  | smoothSquare
deriving DecidableEq, Repr, Inhabited

/-- The 23 indexed cells, in the order of the table of 10_state.md R21. (`CTOR` has no index and cannot be named.) -/
inductive Cell where
  | sr
  | oscSinFreq
  | oscSinPhase
  | oscSqrFreq
  | oscSqrPhase
  | oscMix
  | lfoFreq
  | lfoPhase
  | lfoShape
  | fltCutoff
  | fltRes
  | fltA0
  | fltA1
  | fltA2
  | fltB1
  | fltB2
  | fltX1
  | fltX2
  | fltY1
  | fltY2
  | vcaGain
  | vcaAmt
  | vcaCur
deriving DecidableEq, Repr

/-- The eight commands (30_encoding.md R44, 44_voice.md R113). A format-A operand is the whole of `cmd_arg`; so that one
type serves both builds it is carried in 64 bits, zero-extended at `FW` = 32 (log 11). `STEP` and `RD` ignore `cmd_arg`
and carry none. The index of `RD` is carried as the cell it names. -/
inductive Instr where
  | init (sr : BitVec 64)
  | step
  | setf (v : BitVec 64)
  | setc (v : BitVec 64)
  | setq (v : BitVec 64)
  | setl (v : BitVec 64)
  | setm (v : BitVec 64)
  | rd (c : Cell)
deriving DecidableEq, Repr

end Sys2Proof
end

