-- ==== Sys2Proof/Config.lean ====
section
/-!
DEFINITION. What the spec leaves to the implementation or leaves open. Every open value is an uninterpreted constant: no
proof can see what it is. The raw constants here are forced into the properties the spec names for them in
Machine/Numerics.lean and Machine/Ops.lean, so that every choice the spec allows, and no other, is left.
-/

namespace Sys2Proof

/-- The build that `State.reset` and `decodeTableWord` take: binary32, the width of the spec's vectors (00_scope.md R6).
DESIGN CHOICE (log 1). The machine itself is defined for both builds. -/
def Config.buildFw : Fmt := .b32

/-- The three phase-accumulating oscillators the hardware holds (10_state.md R23, R24). -/
inductive OscId where
  | sine
  | square
  | lfo
deriving DecidableEq, Repr

/-- The places in the rules' formulas where an operator may produce a NaN. Each draws its own bit pattern
(00_scope.md R17), so no two produced NaNs are assumed equal. -/
inductive Site where
  /- `Osc.advance` (40_oscillators.md R53) -/
  | inc (o : OscId)
  | sum (o : OscId)
  | wrap (o : OscId)
  /- sine values (R54, 41_modulation_oscillator.md R64, R67) -/
  | sinArg (o : OscId)
  | sinVal (o : OscId)
  /- `Mixed.next_sample` (40_oscillators.md R57) -/
  | mixRest
  | mixSine
  | mixSquare
  | mixSum
  /- LFO shapes (41_modulation_oscillator.md R65, R66, R67) -/
  | triScale
  | triLine
  | rampScale
  | rampLine
  | softTanh
  | softScale
  /- half the sample rate: in `SETC` (44_voice.md R89), `Biquad.new` and `Biquad.set_modulation` (42_biquad_filter.md R70, R76) -/
  | halfSetc
  | halfNew
  | halfMod
  /- `Biquad.recompute` (42_biquad_filter.md R71), by the name of the value -/
  | wScale
  | w
  | cosW
  | sinW
  | twoQ
  | alpha
  | b0Diff
  | b0
  | b1
  | a0
  | a1
  | a2
  | cellA0
  | cellA1
  | cellA2
  | cellB1
  | cellB2
  /- `Biquad.process` (R72): the five products and the four partial sums -/
  | t0
  | t1
  | t2
  | t3
  | t4
  | y01
  | y012
  | y0123
  | y
  /- `Biquad.set_modulation` (R76) -/
  | modOne
  | modHalf
  | modSpan
  | modBase
  /- the scalings of `STEP` (44_voice.md R87) -/
  | depth
  | attenuation
  /- the VCA (43_vca.md R81, R82) -/
  | vcaGain
  | vcaCur
  | vcaOne
  | vcaNorm
  | vcaOff
  | vcaScale
  | vcaSet
deriving DecidableEq, Repr

/-- The numerics record `NUM` (00_scope.md R13), raw: Machine/Numerics.lean's `fsin`, `fcos` and `ftanh` force the properties
R13 names. -/
structure Num (F : Fmt) where
  sin : Word F → Word F
  cos : Word F → Word F
  tanh : Word F → Word F

/-- The raw sine of `NUM` (00_scope.md R13). Uninterpreted (log 7). -/
opaque Config.sinBits (F : Fmt) : Word F → Word F

/-- The raw cosine of `NUM` (00_scope.md R13). Uninterpreted (log 7). -/
opaque Config.cosBits (F : Fmt) : Word F → Word F

/-- The raw hyperbolic tangent of `NUM` (00_scope.md R13). Uninterpreted (log 7). -/
opaque Config.tanhBits (F : Fmt) : Word F → Word F

/-- The machine's `NUM` record. -/
def Config.num (F : Fmt) : Num F := ⟨Config.sinBits F, Config.cosBits F, Config.tanhBits F⟩

/-- `LFO_SHAPE_INIT` (00_scope.md R6): any of the four shapes. Uninterpreted (log 8). -/
opaque Config.lfoShapeInit : Shape

/-- The raw bits of `VCA_GAIN_INIT` (00_scope.md R6). Uninterpreted (log 8). -/
opaque Config.vcaGainBits (F : Fmt) : Word F

/-- The raw bits of `VCA_AMT_INIT` (00_scope.md R6). Uninterpreted (log 8). -/
opaque Config.vcaAmtBits (F : Fmt) : Word F

/-- Free value: raw bits of the NaN that a site produces in the command whose draw number is the second argument
(00_scope.md R17, U2). Uninterpreted (log 9). -/
opaque Config.nanBits (F : Fmt) : Nat → Site → Word F

/-- Free value: is the zero that `wrap1(-0)` gives negative? (00_scope.md R16 does not say.) Uninterpreted (log 10). -/
opaque Config.wrapZeroSign (F : Fmt) : Nat → OscId → Bool

/-- Free value: a float cell after an `rst` (10_state.md R31, U1), by draw number and cell. Uninterpreted (log 3). -/
opaque Config.powerOnCell (F : Fmt) : Nat → Cell → Word F

/-- Free value: the cell `LFO_SHAPE` after an `rst` (10_state.md R31, U1), by draw number. Uninterpreted (log 3). -/
opaque Config.powerOnShape : Nat → Shape

end Sys2Proof
end

