-- ==== Sys2Proof/WellFormed.lean ====
section
/-!
DEFINITION. Which instructions are commands of the port at a build: the operand of a format-A command is one `FW`-bit word
(30_encoding.md R44). Whether the word is a legal operand (not a NaN, a legal sample rate) is a check of the running machine
(30_encoding.md R48), not of the encoding.
-/

namespace Sys2Proof

/-- An operand fits the `FW` wires of `cmd_arg`. -/
def operandFits (F : Fmt) (v : BitVec 64) : Bool := decide (v.toNat < 2 ^ F.width)

/-- `i` is a command of the build `F`. -/
def Instr.wellFormed (F : Fmt) : Instr → Bool
  | .init sr => operandFits F sr
  | .step => true
  | .setf v => operandFits F v
  | .setc v => operandFits F v
  | .setq v => operandFits F v
  | .setl v => operandFits F v
  | .setm v => operandFits F v
  | .rd _ => true

end Sys2Proof
end

