-- ==== Sys2Proof/Decode.lean ====
section
/-!
DEFINITION. The command word and its decoding (30_encoding.md R44, R45, R49), the encoder, and the assembler's
pseudo-instructions (R51). Decoding is total: a pair that is no command is rejected with a named reason.
-/

namespace Sys2Proof

/-- What the command port carries for one command: `cmd_op` and `cmd_arg` (30_encoding.md R43, R44). -/
structure Command (F : Fmt) where
  op : BitVec 8
  arg : Word F
deriving DecidableEq, Repr

/-- The eight mnemonics of the opcode map (30_encoding.md R44). -/
inductive Mnemonic where
  | INIT
  | STEP
  | SETF
  | SETC
  | SETQ
  | SETL
  | SETM
  | RD
deriving DecidableEq, Repr

/-- One row of the opcode map: an opcode belongs to it when its bits under `mask` are `pattern`. -/
structure OpcodeRow where
  mnemonic : Mnemonic
  mask : BitVec 8
  pattern : BitVec 8
deriving DecidableEq, Repr

/-- The opcode map (30_encoding.md R44, spec/opcode_table.json). -/
def opcodeMap : List OpcodeRow :=
  [⟨.INIT, 0xFF, 0x01⟩, ⟨.STEP, 0xFF, 0x02⟩, ⟨.SETF, 0xFF, 0x10⟩, ⟨.SETC, 0xFF, 0x11⟩,
   ⟨.SETQ, 0xFF, 0x12⟩, ⟨.SETL, 0xFF, 0x13⟩, ⟨.SETM, 0xFF, 0x14⟩, ⟨.RD, 0x80, 0x80⟩]

/-- `op` falls under a row of the map. -/
def OpcodeRow.covers (r : OpcodeRow) (op : BitVec 8) : Bool := op &&& r.mask == r.pattern

/-- The index of a cell (10_state.md R21). -/
def Cell.index : Cell → BitVec 7
  | .sr => 0x00
  | .oscSinFreq => 0x01
  | .oscSinPhase => 0x02
  | .oscSqrFreq => 0x03
  | .oscSqrPhase => 0x04
  | .oscMix => 0x05
  | .lfoFreq => 0x06
  | .lfoPhase => 0x07
  | .lfoShape => 0x08
  | .fltCutoff => 0x09
  | .fltRes => 0x0A
  | .fltA0 => 0x0B
  | .fltA1 => 0x0C
  | .fltA2 => 0x0D
  | .fltB1 => 0x0E
  | .fltB2 => 0x0F
  | .fltX1 => 0x10
  | .fltX2 => 0x11
  | .fltY1 => 0x12
  | .fltY2 => 0x13
  | .vcaGain => 0x14
  | .vcaAmt => 0x15
  | .vcaCur => 0x16

/-- All indexed cells, by rising index (10_state.md R21). -/
def allCells : List Cell :=
  [.sr, .oscSinFreq, .oscSinPhase, .oscSqrFreq, .oscSqrPhase, .oscMix, .lfoFreq, .lfoPhase, .lfoShape, .fltCutoff, .fltRes,
   .fltA0, .fltA1, .fltA2, .fltB1, .fltB2, .fltX1, .fltX2, .fltY1, .fltY2, .vcaGain, .vcaAmt, .vcaCur]

/-- The cell an index names, or none for the reserved indices 0x17 to 0x7F (30_encoding.md R45). -/
def cellOfIndex (idx : BitVec 7) : Option Cell := allCells.find? fun c => c.index == idx

/-- Why a command word is no command. Both are answered `ILLEGAL` (30_encoding.md R47, R49). -/
inductive Reject where
  /-- `cmd_op` falls under no row of the opcode map (R49). -/
  | reservedOpcode (op : BitVec 8)
  /-- `cmd_op` is an `RD` of an index that names no cell (R45). -/
  | reservedIndex (idx : BitVec 7)
deriving DecidableEq, Repr

/-- Decode a command from `cmd_op` alone; `cmd_arg` is the operand of the format-A commands and ignored by the others
(30_encoding.md R44, R50). -/
def decode {F : Fmt} (c : Command F) : Except Reject Instr :=
  match opcodeMap.find? fun r => r.covers c.op with
  | none => .error (.reservedOpcode c.op)
  | some r =>
    match r.mnemonic with
    | .INIT => .ok (.init (c.arg.setWidth 64))
    | .STEP => .ok .step
    | .SETF => .ok (.setf (c.arg.setWidth 64))
    | .SETC => .ok (.setc (c.arg.setWidth 64))
    | .SETQ => .ok (.setq (c.arg.setWidth 64))
    | .SETL => .ok (.setl (c.arg.setWidth 64))
    | .SETM => .ok (.setm (c.arg.setWidth 64))
    | .RD =>
      match cellOfIndex (c.op.setWidth 7) with
      | some cell => .ok (.rd cell)
      | none => .error (.reservedIndex (c.op.setWidth 7))

/-- The command word of an instruction (30_encoding.md R44). The assembler writes the ignored `cmd_arg` of `STEP` and `RD` as
zero (R51). -/
def encode (F : Fmt) : Instr → Command F
  | .init sr => ⟨0x01, sr.setWidth F.width⟩
  | .step => ⟨0x02, 0⟩
  | .setf v => ⟨0x10, v.setWidth F.width⟩
  | .setc v => ⟨0x11, v.setWidth F.width⟩
  | .setq v => ⟨0x12, v.setWidth F.width⟩
  | .setl v => ⟨0x13, v.setWidth F.width⟩
  | .setm v => ⟨0x14, v.setWidth F.width⟩
  | .rd c => ⟨0x80 ||| c.index.setWidth 8, 0⟩

/-- A command as one number: `cmd_op` in the high bits, `cmd_arg` in the low `FW` bits (30_encoding.md R44). -/
def Command.toNumber {F : Fmt} (c : Command F) : BitVec (8 + F.width) := c.op ++ c.arg

/-- The command that a number of `8 + FW` bits is (30_encoding.md R44). -/
def commandOfNumber {F : Fmt} (n : BitVec (8 + F.width)) : Command F := ⟨n.extractLsb' F.width 8, n.setWidth F.width⟩

/-- The command whose bits are `w`, numbered as spec/opcode_table.json numbers them: its `match` and `mask` are over `cmd_op`,
so `cmd_op` is bits 7 to 0 and `cmd_arg` counts on from bit 8. DEDUCED (log 6). -/
def commandOfTableWord (F : Fmt) (w : Nat) : Command F := ⟨BitVec.ofNat 8 w, BitVec.ofNat F.width (w / 256)⟩

/-- The instruction the decoder reads from a table word; bits from `nbits` up are 0 (log 6). -/
def decodeTableWord (nbits w : Nat) : Option Instr :=
  match decode (commandOfTableWord Config.buildFw (w % 2 ^ nbits)) with
  | .ok i => some i
  | .error _ => none

/-- The pseudo-instruction `GETCUT`: `RD FLT_CUTOFF` (30_encoding.md R51). -/
def getcut : List Instr := [.rd .fltCutoff]

/-- The pseudo-instruction `STEPS n`: `STEP` repeated `n` times (30_encoding.md R51). -/
def steps (n : Nat) : List Instr := List.replicate n .step

end Sys2Proof
end

