-- ==== Sys2Proof/Machine/State.lean ====
section
/-!
DEFINITION. The state as plain data: the 24 cells of 10_state.md R21, grouped by the component that owns them (R33: "in the
hardware a component is its cells"), the build parameter, the two ports and the model's own draw counter. And the reasons a step
can stop, of which this hardware has none.
-/

namespace Sys2Proof.Machine

/-- The cells of one phase-accumulating oscillator: `frequency` and `phase` (10_state.md R23). -/
structure Osc (F : Fmt) where
  freq : Word F
  phase : Word F
deriving DecidableEq, Repr

/-- The Mixed oscillator: `OSC_SIN_*`, `OSC_SQR_*`, `OSC_MIX` (10_state.md R23). -/
structure Mixed (F : Fmt) where
  sin : Osc F
  sqr : Osc F
  mix : Word F
deriving DecidableEq, Repr

/-- The modulation oscillator: `LFO_FREQ`, `LFO_PHASE`, `LFO_SHAPE` (10_state.md R24). -/
structure ModOsc (F : Fmt) where
  osc : Osc F
  shape : Shape
deriving DecidableEq, Repr

/-- The filter: `FLT_CUTOFF`, `FLT_RES`, the five normalized coefficients and the four history cells (10_state.md R25). -/
structure Biquad (F : Fmt) where
  cutoff : Word F
  res : Word F
  a0 : Word F
  a1 : Word F
  a2 : Word F
  b1 : Word F
  b2 : Word F
  x1 : Word F
  x2 : Word F
  y1 : Word F
  y2 : Word F
deriving DecidableEq, Repr

/-- The VCA: `VCA_GAIN`, `VCA_AMT`, `VCA_CUR` (10_state.md R26). -/
structure Vca (F : Fmt) where
  gain : Word F
  amt : Word F
  cur : Word F
deriving DecidableEq, Repr

/-- The Voice: one instance of each component and the shared `SR` (44_voice.md R85, 10_state.md R22). -/
structure Voice (F : Fmt) where
  sr : Word F
  osc : Mixed F
  lfo : ModOsc F
  flt : Biquad F
  vca : Vca F
deriving DecidableEq, Repr

/-- The response statuses (30_encoding.md R46). -/
inductive Status where
  | ok
  | illegal
  | notReady
  | badArg
deriving DecidableEq, Repr

/-- One response: `rsp_status` and `rsp_data` (30_encoding.md R46). -/
structure Response (F : Fmt) where
  status : Status
  data : Word F
deriving DecidableEq, Repr

/-- What the host can do to the core between commands: assert `rst`, or issue a command (30_encoding.md R43). -/
inductive HostEvent (F : Fmt) where
  | rst
  | command (c : Command F)
deriving DecidableEq, Repr

end Sys2Proof.Machine

namespace Sys2Proof.Machine

/-- The whole state. `fw` is the build parameter, which no step writes (30_encoding.md R50, log 1); `voice` and `ctor` are the
24 cells (10_state.md R21); `input` is what the host will do, oldest first, and `output` every response given, oldest first
(30_encoding.md R43, 20_memory.md R41, log 4); `draws` is the model's own counter of commands and resets that drew free values
(00_scope.md R17, log 9). -/
structure State where
  fw : Fmt
  voice : Voice fw
  ctor : Bool
  input : List (HostEvent fw)
  output : List (Response fw)
  draws : Nat
deriving DecidableEq, Repr

/-- Why the core stops with a fault: never. "There is no `fault` and no `stuck` row: the core has no fault that stops it and no
state without a successor" (93_implementation_defined.md, 00_scope.md R19), so the type has no constructor. -/
inductive Fault where
deriving DecidableEq, Repr

/-- Why the model gives an instruction no meaning. -/
inductive Refusal where
  /-- The instruction is not modelled yet. Raised by no arm of `exec` in this model: safe. -/
  | notModelled (mnemonic : String)
deriving DecidableEq, Repr

/-- A Voice whose every cell is zero (`LFO_SHAPE` 0, Sine): the value the model names for the cells whose power-on contents the
spec leaves unspecified (10_state.md R31). DESIGN CHOICE (log 2). -/
def Voice.zero (F : Fmt) : Voice F where
  sr := 0
  osc := ⟨⟨0, 0⟩, ⟨0, 0⟩, 0⟩
  lfo := ⟨⟨0, 0⟩, .sine⟩
  flt := ⟨0, 0, 0, 0, 0, 0, 0, 0, 0, 0, 0⟩
  vca := ⟨0, 0, 0⟩

/-- The power-on reset state of the build `F`: `CTOR` = 0, no command in progress, no response pending
(70_reset_and_hazards.md R103); the other cells as log 2 names. -/
def State.resetOf (F : Fmt) : State where
  fw := F
  voice := Voice.zero F
  ctor := false
  input := []
  output := []
  draws := 0

/-- The machine right after power-on reset (70_reset_and_hazards.md R103, 10_state.md R31), in the build log 1 names. -/
def State.reset : State := State.resetOf Config.buildFw

end Sys2Proof.Machine
end

