-- ==== Sys2Proof/Machine/Operands.lean ====
section
/-!
DEFINITION. The number format: the fields of an `FW`-bit IEEE 754 word (00_scope.md R10), its classes (R14) and its value as a
whole number of format units, and the operand a command takes from the port (30_encoding.md R44).
-/

namespace Sys2Proof.Machine

variable {F : Fmt}

/-- The sign bit: bit 31 or bit 63 (00_scope.md R10). -/
def signBit (w : Word F) : Bool := w.msb

/-- The exponent and fraction fields as one number, the word without its sign bit (00_scope.md R10). -/
def magBits (w : Word F) : Nat := w.toNat % 2 ^ (F.width - 1)

/-- The exponent field (00_scope.md R10). -/
def expField (w : Word F) : Nat := magBits w / 2 ^ F.fracBits

/-- The fraction field (00_scope.md R10). -/
def fracField (w : Word F) : Nat := magBits w % 2 ^ F.fracBits

/-- The exponent field of infinities and NaNs: all ones (00_scope.md R14). -/
def expAllOnes (F : Fmt) : Nat := 2 ^ F.expBits - 1

/-- The word of a sign and of an exponent-and-fraction number (00_scope.md R10). -/
def pack (neg : Bool) (mag : Nat) : Word F := BitVec.ofNat F.width ((if neg then 2 ^ (F.width - 1) else 0) + mag)

/-- The exponent-and-fraction number of an infinity. -/
def infMag (F : Fmt) : Nat := expAllOnes F * 2 ^ F.fracBits

/-- "neither an infinity nor a NaN (its exponent field is not all ones)" (00_scope.md R14). -/
def isFinite (w : Word F) : Bool := expField w != expAllOnes F

/-- A NaN: exponent field all ones, fraction not zero (00_scope.md R10). -/
def isNaN (w : Word F) : Bool := expField w == expAllOnes F && fracField w != 0

/-- An infinity: exponent field all ones, fraction zero (00_scope.md R10). -/
def isInf (w : Word F) : Bool := expField w == expAllOnes F && fracField w == 0

/-- A zero of either sign (00_scope.md R10). -/
def isZero (w : Word F) : Bool := magBits w == 0

/-- The binary exponent `k` of the format's unit `2^-k`, the smallest positive value: 149 or 1074. Every finite value is a
whole number of units, and 1.0 is `2^k` units. -/
def unitExp (F : Fmt) : Nat := 2 ^ (F.expBits - 1) - 1 + F.fracBits - 1

/-- The magnitude, in units, of a finite exponent-and-fraction number: subnormals have exponent field 0 and no hidden bit
(00_scope.md R10, R11). -/
def magUnits (F : Fmt) (mag : Nat) : Nat :=
  if mag / 2 ^ F.fracBits = 0 then mag % 2 ^ F.fracBits
  else (2 ^ F.fracBits + mag % 2 ^ F.fracBits) * 2 ^ (mag / 2 ^ F.fracBits - 1)

/-- The magnitude of a finite word in units. -/
def units (w : Word F) : Nat := magUnits F (magBits w)

/-- The value of a finite word in units, exactly. -/
def valueUnits (w : Word F) : Int := if signBit w then -(units w : Int) else units w

/-- The quiet NaN with the sign and payload of `w`: exponent all ones and the fraction's top bit set (00_scope.md R17: "its bit
pattern is any quiet NaN"). -/
def quietNaN (w : Word F) : Word F := w ||| pack false (infMag F + 2 ^ (F.fracBits - 1))

/-- The operand of a format-A command: the `FW` bits of `cmd_arg`, "with no scaling, shifting or extension"
(30_encoding.md R44, log 11). -/
def operand (F : Fmt) (v : BitVec 64) : Word F := v.setWidth F.width

end Sys2Proof.Machine
end

