-- ==== Sys2Proof/Machine/Arith.lean ====
section
/-!
DEFINITION. The arithmetic primitives (00_scope.md R11) and the literals (R12). Each operator computes its exact result as a
ratio of whole numbers of format units and rounds it ONCE. The first argument of an operator is the quiet NaN it answers where
IEEE 754 gives a NaN: "a model draws it" (R17).
-/

namespace Sys2Proof.Machine

variable {F : Fmt}

/-- `n / d` to the nearest whole number, ties to the even one. -/
def roundHalfEven (n d : Nat) : Nat :=
  if d < 2 * (n % d) ∨ (d = 2 * (n % d) ∧ n / d % 2 = 1) then n / d + 1 else n / d

/-- How many low bits of a magnitude of `q` whole units lie below the last place of its `fracBits + 1` significant bits. -/
def dropBits (F : Fmt) (q : Nat) : Nat := Nat.log2 q - F.fracBits

/-- The exponent-and-fraction number nearest to `n / d` units: roundTiesToEven, gradual underflow, overflow to infinity
(00_scope.md R11). Multiplying the last place by `2^e` adds `e` to the exponent field, and a carry out of the fraction is a
carry into it, so the field arithmetic is one addition. -/
def roundMag (F : Fmt) (n d : Nat) : Nat :=
  let e := dropBits F (n / d)
  min (infMag F) (e * 2 ^ F.fracBits + roundHalfEven n (d * 2 ^ e))

/-- The word nearest to `± n / d` units. -/
def roundWord (neg : Bool) (n d : Nat) : Word F := pack neg (roundMag F n d)

/-- The infinity of a sign. -/
def infinity (neg : Bool) : Word F := pack neg (infMag F)

/-- `fneg(a)` "flips the sign bit" (00_scope.md R11). -/
def fneg (a : Word F) : Word F := a ^^^ pack true 0

/-- `fadd` (00_scope.md R11). The exact sum of two zeros of one sign has that sign, every other exact zero sum is `+0`. -/
def fadd (nan a b : Word F) : Word F :=
  if isNaN a || isNaN b then nan
  else if isInf a then (if isInf b && signBit a != signBit b then nan else a)
  else if isInf b then b
  else if valueUnits a + valueUnits b = 0 then pack (signBit a && signBit b) 0
  else roundWord (decide (valueUnits a + valueUnits b < 0)) (valueUnits a + valueUnits b).natAbs 1

/-- `fsub` (00_scope.md R11): addition of the operand of opposite sign. -/
def fsub (nan a b : Word F) : Word F := fadd nan a (fneg b)

/-- `fmul` (00_scope.md R11). -/
def fmul (nan a b : Word F) : Word F :=
  if isNaN a || isNaN b then nan
  else if isInf a || isInf b then (if isZero a || isZero b then nan else infinity (signBit a != signBit b))
  else roundWord (signBit a != signBit b) (units a * units b) (2 ^ unitExp F)

/-- `fdiv` (00_scope.md R11). -/
def fdiv (nan a b : Word F) : Word F :=
  if isNaN a || isNaN b then nan
  else if isInf a then (if isInf b then nan else infinity (signBit a != signBit b))
  else if isInf b then pack (signBit a != signBit b) 0
  else if isZero b then (if isZero a then nan else infinity (signBit a != signBit b))
  else roundWord (signBit a != signBit b) (units a * 2 ^ unitExp F) (units b)

/-- The literal `n / d`: "the `FW`-bit value nearest to it (roundTiesToEven)" (00_scope.md R12). -/
def lit (n : Nat) (d : Nat := 1) : Word F := roundWord false (n * 2 ^ unitExp F) d

/-- `PI`, "the `FW`-bit value nearest to π" (00_scope.md R12). -/
def pi : (F : Fmt) → Word F
  | .b32 => 0x40490FDB#32
  | .b64 => 0x400921FB54442D18#64

/-- `TWO_PI = fmul(2, PI)`, exact (00_scope.md R12). -/
def twoPi (F : Fmt) : Word F := fmul 0 (lit 2) (pi F)

end Sys2Proof.Machine
end

