-- ==== Sys2Proof/Machine/Flags.lean ====
section
/-!
DEFINITION. The machine has no status flags (10_state.md R28); what it tests are the IEEE comparisons (00_scope.md R15), the
operand checks of the format-A commands (30_encoding.md R48) and, with `CTOR`, the order of the checks (R47). The codes of the
response status stand here too (R46).
-/

namespace Sys2Proof.Machine

variable {F : Fmt}

/-- Order of the values of words that are not NaNs: the sign-magnitude number, so `-0` and `+0` are equal and the infinities
bound everything. -/
def orderKey (w : Word F) : Int := if signBit w then -(magBits w : Int) else magBits w

/-- IEEE `a < b`: false when either is a NaN (00_scope.md R15). -/
def flt (a b : Word F) : Bool := !isNaN a && !isNaN b && decide (orderKey a < orderKey b)

/-- IEEE `a > b` (00_scope.md R15). -/
def fgt (a b : Word F) : Bool := flt b a

/-- IEEE `a >= b`: false when either is a NaN (30_encoding.md R48). -/
def fge (a b : Word F) : Bool := !isNaN a && !isNaN b && decide (orderKey b ≤ orderKey a)

/-- The operand check of the five setters: "the operand passes when it is not a NaN" (30_encoding.md R48). -/
def setterOperandOk (v : Word F) : Bool := !isNaN v

/-- The operand check of `INIT`: "`isFinite(sr)` and `sr >= 40`" (30_encoding.md R48). -/
def initOperandOk (sr : Word F) : Bool := isFinite sr && fge sr (lit 40)

/-- The status codes on `rsp_status` (30_encoding.md R46). -/
def statusCode : Status → BitVec 2
  | .ok => 0
  | .illegal => 1
  | .notReady => 2
  | .badArg => 3

/-- The shape codes in the cell `LFO_SHAPE` (41_modulation_oscillator.md R69). -/
def shapeCode : Shape → BitVec 2
  | .sine => 0
  | .triangle => 1
  | .ramp => 2
  | .smoothSquare => 3

end Sys2Proof.Machine
end

