-- ==== Sys2Proof/Machine/Numerics.lean ====
section
/-!
DEFINITION. The numerics record with the properties of 00_scope.md R13 forced on it, `clamp` (R15), `wrap1` (R16), and the
environment a command computes in: `NUM` and the free values it draws (R17).
-/

namespace Sys2Proof.Machine

variable {F : Fmt}

/-- `NUM.finite` and `NUM.bound` (00_scope.md R13): `w` where it is finite and of magnitude at most 1. Every function with the
two properties is a fixed point of this, so no choice of `NUM` is lost. -/
def unitBounded (w : Word F) : Word F := if magBits w ≤ magBits (lit 1 : Word F) then w else 0

/-- `fsin` (00_scope.md R13): `NUM.zero`, `NUM.nonfinite`, `NUM.finite`, `NUM.bound`. -/
def fsin (N : Num F) (nan a : Word F) : Word F :=
  if !isFinite a then nan else if a = 0 then 0 else unitBounded (N.sin a)

/-- `fcos` (00_scope.md R13). -/
def fcos (N : Num F) (nan a : Word F) : Word F :=
  if !isFinite a then nan else if a = 0 then lit 1 else unitBounded (N.cos a)

/-- `ftanh` (00_scope.md R13): 1 and -1 at the infinities. -/
def ftanh (N : Num F) (nan a : Word F) : Word F :=
  if isNaN a then nan
  else if isInf a then (if signBit a then fneg (lit 1) else lit 1)
  else if a = 0 then 0 else unitBounded (N.tanh a)

/-- `clamp(v, lo, hi)` (00_scope.md R15), the formula as printed; a NaN `v` passes. -/
def clamp (v lo hi : Word F) : Word F := if flt v lo then lo else if fgt v hi then hi else v

/-- `wrap1(a)` (00_scope.md R16): `a - floor(a)` for `a >= 0`, `a - trunc(a)` with the sign of `a` for `a < 0`, both exact; a NaN
for an infinity or a NaN. The rule does not say which zero `wrap1(-0)` is: `zeroSign` is a free value (log 10). -/
def wrap1 (nan : Word F) (zeroSign : Bool) (a : Word F) : Word F :=
  if !isFinite a then nan
  else if isZero a && signBit a then pack zeroSign 0
  else roundWord (signBit a) (units a % 2 ^ unitExp F) 1

/-- What a command computes with: `NUM` and the free values of this command, a quiet NaN per site (00_scope.md R17) and the sign
of `wrap1(-0)` per oscillator (log 10). -/
structure Env (F : Fmt) where
  num : Num F
  nan : Site → Word F
  zeroSign : OscId → Bool

/-- The environment of the command with draw number `n`. -/
def drawEnv (F : Fmt) (n : Nat) : Env F where
  num := Config.num F
  nan := fun site => quietNaN (Config.nanBits F n site)
  zeroSign := Config.wrapZeroSign F n

/-- The parameters `LFO_SHAPE_INIT`, `VCA_GAIN_INIT` and `VCA_AMT_INIT` (00_scope.md R6). -/
structure Params (F : Fmt) where
  lfoShape : Shape
  vcaGain : Word F
  vcaAmt : Word F

/-- "any finite `FW`-bit value" (00_scope.md R6): `w` where it is finite. -/
def finiteParam (w : Word F) : Word F := if isFinite w then w else 0

/-- The machine's parameters. Uninterpreted (log 8). -/
def configParams (F : Fmt) : Params F where
  lfoShape := Config.lfoShapeInit
  vcaGain := finiteParam (Config.vcaGainBits F)
  vcaAmt := finiteParam (Config.vcaAmtBits F)

end Sys2Proof.Machine
end

