-- ==== Sys2Proof/Machine/Amplifier.lean ====
section
/-!
DEFINITION. The VCA (43_vca.md R80 to R84). `vcaSetModulation` is part of the component and performed by no command (R84).
-/

namespace Sys2Proof.Machine

variable {F : Fmt}

/-- `VCA.new(g, amt)` (43_vca.md R80). -/
def vcaNew (g amt : Word F) : Vca F := ⟨g, amt, lit 1⟩

/-- `VCA.process(xin)` (43_vca.md R81): left to right, two roundings. -/
def vcaProcess (E : Env F) (a : Vca F) (xin : Word F) : Word F :=
  fmul (E.nan .vcaCur) (fmul (E.nan .vcaGain) xin a.gain) a.cur

/-- `VCA.set_modulation(v)` (43_vca.md R82). -/
def vcaSetModulation (E : Env F) (v : Word F) (a : Vca F) : Vca F :=
  let n := fdiv (E.nan .vcaNorm) (fadd (E.nan .vcaOne) v (lit 1)) (lit 2)
  { a with cur := fadd (E.nan .vcaSet) (lit 1) (fmul (E.nan .vcaScale) (fsub (E.nan .vcaOff) n (lit 1 2)) a.amt) }

end Sys2Proof.Machine
end

