-- ==== Sys2Proof/Machine/Filter.lean ====
section
/-!
DEFINITION. The biquad resonant low-pass filter (42_biquad_filter.md R70 to R77), with the sign of the feedback coefficients as
90_conflicts.md C2 resolves it, no 20000 Hz cap (C1), and direct form I (C3).
-/

namespace Sys2Proof.Machine

variable {F : Fmt}

/-- `Biquad.recompute()` (42_biquad_filter.md R71): the five normalized coefficients from the cutoff, the resonance and `SR`. -/
def biquadRecompute (E : Env F) (sr : Word F) (b : Biquad F) : Biquad F :=
  let w := fdiv (E.nan .w) (fmul (E.nan .wScale) (twoPi F) b.cutoff) sr
  let c := fcos E.num (E.nan .cosW) w
  let al := fdiv (E.nan .alpha) (fsin E.num (E.nan .sinW) w) (fmul (E.nan .twoQ) (lit 2) b.res)
  let b0 := fdiv (E.nan .b0) (fsub (E.nan .b0Diff) (lit 1) c) (lit 2)
  let b1 := fsub (E.nan .b1) (lit 1) c
  let b2 := b0
  let a0 := fadd (E.nan .a0) (lit 1) al
  let a1 := fmul (E.nan .a1) (fneg (lit 2)) c
  let a2 := fsub (E.nan .a2) (lit 1) al
  { b with
    a0 := fdiv (E.nan .cellA0) b0 a0
    a1 := fdiv (E.nan .cellA1) b1 a0
    a2 := fdiv (E.nan .cellA2) b2 a0
    b1 := fdiv (E.nan .cellB1) a1 a0
    b2 := fdiv (E.nan .cellB2) a2 a0 }

/-- The history zeroed: what construction (42_biquad_filter.md R70) and the guard (R74) do to `x1`, `x2`, `y1`, `y2`. -/
def biquadClear (b : Biquad F) : Biquad F := { b with x1 := 0, x2 := 0, y1 := 0, y2 := 0 }

/-- `Biquad.new(fc, q)` (42_biquad_filter.md R70). A reconstruction writes all eleven cells, so the old filter does not enter. -/
def biquadNew (E : Env F) (sr fc q : Word F) : Biquad F :=
  biquadRecompute E sr
    { cutoff := clamp fc (lit 20) (fdiv (E.nan .halfNew) sr (lit 2)), res := clamp q (lit 1 10) (lit 20)
      a0 := 0, a1 := 0, a2 := 0, b1 := 0, b2 := 0, x1 := 0, x2 := 0, y1 := 0, y2 := 0 }

/-- The filtering equation `y = a0'·x + a1'·x1 + a2'·x2 − b1'·y1 − b2'·y2`, summed left to right (42_biquad_filter.md R72). -/
def biquadOutput (E : Env F) (b : Biquad F) (xin : Word F) : Word F :=
  let t0 := fmul (E.nan .t0) b.a0 xin
  let t1 := fmul (E.nan .t1) b.a1 b.x1
  let t2 := fmul (E.nan .t2) b.a2 b.x2
  let t3 := fmul (E.nan .t3) b.b1 b.y1
  let t4 := fmul (E.nan .t4) b.b2 b.y2
  fsub (E.nan .y) (fsub (E.nan .y0123) (fadd (E.nan .y012) (fadd (E.nan .y01) t0 t1) t2) t3) t4

/-- The history shift, simultaneous (42_biquad_filter.md R73). -/
def biquadShift (b : Biquad F) (xin y : Word F) : Biquad F :=
  { b with x2 := b.x1, x1 := xin, y2 := b.y1, y1 := y }

/-- The guard `FilterNonFinite` (42_biquad_filter.md R74, 60_exceptions.md R96): the hardware's one internal exception. It zeroes
the history, records nothing, and answers the unfiltered input. -/
def biquadGuard (b : Biquad F) (xin : Word F) : Word F × Biquad F := (xin, biquadClear b)

/-- `Biquad.process(xin)` (42_biquad_filter.md R72). -/
def biquadProcess (E : Env F) (b : Biquad F) (xin : Word F) : Word F × Biquad F :=
  let y := biquadOutput E b xin
  if isFinite y then (y, biquadShift b xin y) else biquadGuard b xin

/-- The cutoff that a modulation value maps to, before the clamp: `400 + ((v+1)/2)·3600` (42_biquad_filter.md R76). -/
def modulatedCutoff (E : Env F) (v : Word F) : Word F :=
  fadd (E.nan .modBase) (lit 400)
    (fmul (E.nan .modSpan) (fdiv (E.nan .modHalf) (fadd (E.nan .modOne) v (lit 1)) (lit 2)) (lit 3600))

/-- `Biquad.set_modulation(v)` (42_biquad_filter.md R76): it replaces the cutoff and recomputes; history and resonance stay. -/
def biquadSetModulation (E : Env F) (sr v : Word F) (b : Biquad F) : Biquad F :=
  biquadRecompute E sr
    { b with cutoff := clamp (modulatedCutoff E v) (lit 20) (fdiv (E.nan .halfMod) sr (lit 2)) }

end Sys2Proof.Machine
end

