-- ==== Sys2Proof/Machine/Oscillators.lean ====
section
/-!
DEFINITION. The phase-accumulating oscillators Sine, Square and Mixed (40_oscillators.md R52 to R59). An operation that returns a
sample answers the sample and the oscillator it leaves.
-/

namespace Sys2Proof.Machine

variable {F : Fmt}

/-- `Osc.new(o, f)` (40_oscillators.md R52): the frequency as given, the phase `+0`. -/
def oscNew (f : Word F) : Osc F := ⟨f, 0⟩

/-- `Osc.advance(o)` (40_oscillators.md R53). -/
def oscAdvance (E : Env F) (id : OscId) (sr : Word F) (o : Osc F) : Osc F :=
  let inc := fdiv (E.nan (.inc id)) o.freq sr
  let sum := fadd (E.nan (.sum id)) o.phase inc
  { o with phase := wrap1 (E.nan (.wrap id)) (E.zeroSign id) sum }

/-- `sin(2π·phase)` as the rules evaluate it: `fsin(fmul(TWO_PI, p))` (40_oscillators.md R54, 41_modulation_oscillator.md R64). -/
def sineOf (E : Env F) (id : OscId) (p : Word F) : Word F :=
  fsin E.num (E.nan (.sinVal id)) (fmul (E.nan (.sinArg id)) (twoPi F) p)

/-- `Sine.next_sample(o)` (40_oscillators.md R54): the value at the phase before advancing. -/
def sineNext (E : Env F) (sr : Word F) (o : Osc F) : Word F × Osc F :=
  (sineOf E .sine o.phase, oscAdvance E .sine sr o)

/-- The value of the square wave at a phase: `+1` while it is below 0.5, else `-1` (40_oscillators.md R55). -/
def squareOf (p : Word F) : Word F := if flt p (lit 1 2) then lit 1 else fneg (lit 1)

/-- `Square.next_sample(o)` (40_oscillators.md R55). -/
def squareNext (E : Env F) (sr : Word F) (o : Osc F) : Word F × Osc F :=
  (squareOf o.phase, oscAdvance E .square sr o)

/-- `Mixed.new(f, m)` (40_oscillators.md R56). -/
def mixedNew (f m : Word F) : Mixed F := ⟨oscNew f, oscNew f, m⟩

/-- The crossfade `(1-r)·s + r·q`, four operations and four roundings (40_oscillators.md R57). -/
def crossfade (E : Env F) (r s q : Word F) : Word F :=
  fadd (E.nan .mixSum) (fmul (E.nan .mixSine) (fsub (E.nan .mixRest) (lit 1) r) s) (fmul (E.nan .mixSquare) r q)

/-- `Mixed.next_sample()` (40_oscillators.md R57). -/
def mixedNext (E : Env F) (sr : Word F) (m : Mixed F) : Word F × Mixed F :=
  let s := sineNext E sr m.sin
  let q := squareNext E sr m.sqr
  (crossfade E m.mix s.1 q.1, { m with sin := s.2, sqr := q.2 })

/-- `Mixed.set_frequency(f)` (40_oscillators.md R58): both sub-oscillators are reconstructed, the mix ratio is kept. -/
def mixedSetFrequency (f : Word F) (m : Mixed F) : Mixed F := { m with sin := oscNew f, sqr := oscNew f }

/-- `Mixed.set_mix_ratio(r)` (40_oscillators.md R59): the frequencies are kept, both phases are reset. -/
def mixedSetMixRatio (r : Word F) (m : Mixed F) : Mixed F :=
  { mix := r, sin := oscNew m.sin.freq, sqr := oscNew m.sqr.freq }

end Sys2Proof.Machine
end

