-- ==== Sys2Proof/Machine/Modulation.lean ====
section
/-!
DEFINITION. The modulation oscillator and its four shapes (41_modulation_oscillator.md R62 to R69).
-/

namespace Sys2Proof.Machine

variable {F : Fmt}

/-- `ModOsc.new(f, shape)` (41_modulation_oscillator.md R62). -/
def modOscNew (f : Word F) (shape : Shape) : ModOsc F := ⟨oscNew f, shape⟩

/-- `shape_triangle(p)` (41_modulation_oscillator.md R65). -/
def shapeTriangle (E : Env F) (p : Word F) : Word F :=
  if flt p (lit 1 2) then fsub (E.nan .triLine) (fmul (E.nan .triScale) (lit 4) p) (lit 1)
  else fsub (E.nan .triLine) (lit 3) (fmul (E.nan .triScale) (lit 4) p)

/-- `shape_ramp(p)` (41_modulation_oscillator.md R66). -/
def shapeRamp (E : Env F) (p : Word F) : Word F :=
  fsub (E.nan .rampLine) (fmul (E.nan .rampScale) (lit 2) p) (lit 1)

/-- `shape_smoothsquare(p)` (41_modulation_oscillator.md R67). Nothing clamps it. -/
def shapeSmoothSquare (E : Env F) (p : Word F) : Word F :=
  fmul (E.nan .softScale) (ftanh E.num (E.nan .softTanh) (sineOf E .lfo p)) (lit 2)

/-- The shape arm of `ModOsc.next_sample` (41_modulation_oscillator.md R63, R64 to R67). -/
def shapeOf (E : Env F) (shape : Shape) (p : Word F) : Word F :=
  match shape with
  | .sine => sineOf E .lfo p
  | .triangle => shapeTriangle E p
  | .ramp => shapeRamp E p
  | .smoothSquare => shapeSmoothSquare E p

/-- `ModOsc.next_sample()` (41_modulation_oscillator.md R63): the value at the phase before advancing. -/
def modOscNext (E : Env F) (sr : Word F) (l : ModOsc F) : Word F × ModOsc F :=
  (shapeOf E l.shape l.osc.phase, { l with osc := oscAdvance E .lfo sr l.osc })

end Sys2Proof.Machine
end

