-- ==== Sys2Proof/Machine/VoiceOps.lean ====
section
/-!
DEFINITION. The Voice's own operations: construction, the per-sample pipeline, the five parameter setters and the reading of a
cell (44_voice.md R85 to R93), as functions of the cells alone. The commands put the checks and the response around them.
-/

namespace Sys2Proof.Machine

variable {F : Fmt}

/-- `new(sample_rate)` (44_voice.md R86): every cell is written (10_state.md R32). -/
def voiceNew (E : Env F) (P : Params F) (sr : Word F) : Voice F where
  sr := sr
  osc := mixedNew (lit 440) (lit 3 10)
  flt := biquadNew E sr (lit 1000) (lit 1 10)
  lfo := modOscNew (lit 1 2) P.lfoShape
  vca := vcaNew P.vcaGain P.vcaAmt

/-- `process_sample()` (44_voice.md R87): the four stages, answering the sample and the Voice they leave. -/
def voiceProcess (E : Env F) (v : Voice F) : Word F × Voice F :=
  let o := mixedNext E v.sr v.osc
  let l := modOscNext E v.sr v.lfo
  let m := fmul (E.nan .depth) l.1 (lit 1 4)
  let f := biquadProcess E (biquadSetModulation E v.sr m v.flt) o.1
  let a := fmul (E.nan .attenuation) f.1 (lit 1 2)
  (vcaProcess E v.vca a, { v with osc := o.2, lfo := l.2, flt := f.2 })

/-- `set_frequency(x)` (44_voice.md R88). -/
def voiceSetFrequency (x : Word F) (v : Voice F) : Voice F :=
  { v with osc := mixedSetFrequency (clamp x (lit 20) (lit 20000)) v.osc }

/-- `set_filter_cutoff(x)` (44_voice.md R89): the filter is reconstructed with its resonance. -/
def voiceSetCutoff (E : Env F) (x : Word F) (v : Voice F) : Voice F :=
  { v with flt := biquadNew E v.sr (clamp x (lit 20) (fdiv (E.nan .halfSetc) v.sr (lit 2))) v.flt.res }

/-- `set_filter_resonance(x)` (44_voice.md R90): the filter is reconstructed with its present cutoff. -/
def voiceSetResonance (E : Env F) (x : Word F) (v : Voice F) : Voice F :=
  { v with flt := biquadNew E v.sr v.flt.cutoff (clamp x (lit 1 10) (lit 10)) }

/-- `set_filter_lfo_rate(x)` (44_voice.md R91): the LFO is reconstructed with its shape. -/
def voiceSetLfoRate (x : Word F) (v : Voice F) : Voice F :=
  { v with lfo := modOscNew (clamp x (lit 1 100) (lit 20)) v.lfo.shape }

/-- `set_mix_ratio(x)` (44_voice.md R92). -/
def voiceSetMixRatio (x : Word F) (v : Voice F) : Voice F :=
  { v with osc := mixedSetMixRatio (clamp x (lit 0) (lit 1)) v.osc }

/-- The word `RD` answers for a cell: its stored bits, or the zero-extended shape code (44_voice.md R93). -/
def voiceRead (v : Voice F) : Cell → Word F
  | .sr => v.sr
  | .oscSinFreq => v.osc.sin.freq
  | .oscSinPhase => v.osc.sin.phase
  | .oscSqrFreq => v.osc.sqr.freq
  | .oscSqrPhase => v.osc.sqr.phase
  | .oscMix => v.osc.mix
  | .lfoFreq => v.lfo.osc.freq
  | .lfoPhase => v.lfo.osc.phase
  | .lfoShape => (shapeCode v.lfo.shape).setWidth F.width
  | .fltCutoff => v.flt.cutoff
  | .fltRes => v.flt.res
  | .fltA0 => v.flt.a0
  | .fltA1 => v.flt.a1
  | .fltA2 => v.flt.a2
  | .fltB1 => v.flt.b1
  | .fltB2 => v.flt.b2
  | .fltX1 => v.flt.x1
  | .fltX2 => v.flt.x2
  | .fltY1 => v.flt.y1
  | .fltY2 => v.flt.y2
  | .vcaGain => v.vca.gain
  | .vcaAmt => v.vca.amt
  | .vcaCur => v.vca.cur

/-- The Voice whose cells are what a function of the cell's name says: for the unspecified contents after an `rst`
(10_state.md R31). -/
def voiceOfCells (f : Cell → Word F) (shape : Shape) : Voice F where
  sr := f .sr
  osc := ⟨⟨f .oscSinFreq, f .oscSinPhase⟩, ⟨f .oscSqrFreq, f .oscSqrPhase⟩, f .oscMix⟩
  lfo := ⟨⟨f .lfoFreq, f .lfoPhase⟩, shape⟩
  flt := ⟨f .fltCutoff, f .fltRes, f .fltA0, f .fltA1, f .fltA2, f .fltB1, f .fltB2, f .fltX1, f .fltX2, f .fltY1, f .fltY2⟩
  vca := ⟨f .vcaGain, f .vcaAmt, f .vcaCur⟩

end Sys2Proof.Machine
end

