-- ==== Sys2Proof/Machine/Ops.lean ====
section
/-!
DEFINITION. The shared operations over the whole state: responding, rejecting (`raise K`, the hardware's only visible exception,
00_scope.md R9, 60_exceptions.md R98; there is no return from it, R95), the power-on reset, the checks of 30_encoding.md R47 that
depend on the state, and the placing of a command at the port. The other exception, the filter guard, is `biquadGuard`.
-/

namespace Sys2Proof.Machine

/-- What a command of this machine answers: here always a next state. -/
abbrev Result := Host.Outcome State Fault Refusal

/-- The environment of the command now executed: its free values are drawn by the counter (log 9). -/
def State.env (s : State) : Env s.fw := drawEnv s.fw s.draws

/-- The host's remaining events. -/
def State.withInput (s : State) (l : List (HostEvent s.fw)) : State := { s with input := l }

/-- `raise K` (00_scope.md R9, 30_encoding.md R46): "leave every cell as it was before the command, respond `{K, 0}`, and do
nothing else". -/
def State.raise (s : State) (k : Status) : State := { s with output := s.output ++ [⟨k, 0⟩] }

/-- Respond `{OK, d}` and change no cell. -/
def State.answer (s : State) (d : Word s.fw) : State := { s with output := s.output ++ [⟨.ok, d⟩] }

/-- A command that computes is done: its cells are written and it responds `{OK, d}`. -/
def State.finish (s : State) (v : Voice s.fw) (d : Word s.fw) : State :=
  { s with voice := v, output := s.output ++ [⟨.ok, d⟩], draws := s.draws + 1 }

/-- `INIT` is done: every cell is written, `CTOR <- 1`, and it responds `{OK, 0}` (44_voice.md R86). -/
def State.construct (s : State) (v : Voice s.fw) : State :=
  { s with voice := v, ctor := true, output := s.output ++ [⟨.ok, 0⟩], draws := s.draws + 1 }

/-- Power-on reset (70_reset_and_hazards.md R103, 10_state.md R31): `CTOR <- 0`, every other cell unspecified: free values
(log 3). -/
def State.powerOn (s : State) : State :=
  { s with
    voice := voiceOfCells (Config.powerOnCell s.fw s.draws) (Config.powerOnShape s.draws)
    ctor := false
    draws := s.draws + 1 }

/-- The second check of 30_encoding.md R47: `NOT_READY` while no Voice is constructed. -/
def whenConstructed (s : State) (k : Result) : Result := if s.ctor then k else .next (s.raise .notReady)

/-- The five setters (44_voice.md section 3): the checks of 30_encoding.md R47 and R48, then the Voice's operation on the operand,
then `{OK, 0}`. -/
def setParameter (v : BitVec 64) (s : State) (f : Word s.fw → Voice s.fw) : Result :=
  whenConstructed s
    (if setterOperandOk (operand s.fw v) then .next (s.finish (f (operand s.fw v)) 0) else .next (s.raise .badArg))

/-- A command word that decodes to no command is answered `ILLEGAL` (30_encoding.md R47, R49). -/
def rejectIllegal (s : State) : Result := .next (s.raise .illegal)

/-- The host issues `c` next: it stands before every event the host has yet to send. -/
def State.issue (s : State) (c : Command s.fw) : State := s.withInput (.command c :: s.input)

/-- A program as what the host will do: each instruction issued in order (10_state.md R27, 30_encoding.md R51). -/
def hostProgram (F : Fmt) (p : List Instr) : List (HostEvent F) := p.map fun i => .command (encode F i)

end Sys2Proof.Machine
end

