-- ==== Sys2Proof/Machine/Lifecycle.lean ====
section
/-!
DEFINITION. `INIT` (44_voice.md R86).
-/

namespace Sys2Proof.Machine

/-- `INIT sr` (44_voice.md R86): accepted whether or not a Voice exists; `BAD_ARG` when the operand check of 30_encoding.md R48
fails, with no state change. -/
def execInit (sr : BitVec 64) (s : State) : Result :=
  if initOperandOk (operand s.fw sr) then
    .next (s.construct (voiceNew s.env (configParams s.fw) (operand s.fw sr)))
  else .next (s.raise .badArg)

end Sys2Proof.Machine
end

