-- ==== Sys2Proof/Machine/Pipeline.lean ====
section
/-!
DEFINITION. `STEP` (44_voice.md R87).
-/

namespace Sys2Proof.Machine

/-- `STEP` (44_voice.md R87): one run of the pipeline, the sample on `rsp_data`. The filter guard may act inside; the status is
`OK` all the same. -/
def execStep (s : State) : Result :=
  whenConstructed s (.next (s.finish (voiceProcess s.env s.voice).2 (voiceProcess s.env s.voice).1))

end Sys2Proof.Machine
end

