-- ==== Sys2Proof/Machine/Read.lean ====
section
/-!
DEFINITION. `RD` (44_voice.md R93).
-/

namespace Sys2Proof.Machine

/-- `RD idx` (44_voice.md R93): the cell's word; no cell is written. -/
def execRd (c : Cell) (s : State) : Result :=
  whenConstructed s (.next (s.answer (voiceRead s.voice c)))

end Sys2Proof.Machine
end

