-- ==== Sys2Proof/Machine/Setters.lean ====
section
/-!
DEFINITION. The five parameter setters (44_voice.md R88 to R92).
-/

namespace Sys2Proof.Machine

/-- `SETF v` (44_voice.md R88). -/
def execSetf (v : BitVec 64) (s : State) : Result :=
  setParameter v s fun x => voiceSetFrequency x s.voice

/-- `SETC v` (44_voice.md R89). -/
def execSetc (v : BitVec 64) (s : State) : Result :=
  setParameter v s fun x => voiceSetCutoff s.env x s.voice

/-- `SETQ v` (44_voice.md R90). -/
def execSetq (v : BitVec 64) (s : State) : Result :=
  setParameter v s fun x => voiceSetResonance s.env x s.voice

/-- `SETL v` (44_voice.md R91). -/
def execSetl (v : BitVec 64) (s : State) : Result :=
  setParameter v s fun x => voiceSetLfoRate x s.voice

/-- `SETM v` (44_voice.md R92). -/
def execSetm (v : BitVec 64) (s : State) : Result :=
  setParameter v s fun x => voiceSetMixRatio x s.voice

end Sys2Proof.Machine
end

