-- ==== Sys2Proof/Machine/Dispatch.lean ====
section
/-!
DEFINITION. Each command's meaning (30_encoding.md R44, 44_voice.md R86 to R93).
-/

namespace Sys2Proof.Machine

def exec (i : Instr) (s : State) : Host.Outcome State Fault Refusal :=
  match i with
  | .init sr => Sys2Proof.Machine.execInit sr s
  | .step => Sys2Proof.Machine.execStep s
  | .setf v => Sys2Proof.Machine.execSetf v s
  | .setc v => Sys2Proof.Machine.execSetc v s
  | .setq v => Sys2Proof.Machine.execSetq v s
  | .setl v => Sys2Proof.Machine.execSetl v s
  | .setm v => Sys2Proof.Machine.execSetm v s
  | .rd c => Sys2Proof.Machine.execRd c s

end Sys2Proof.Machine
end

