-- ==== Sys2Proof/Machine/Step.lean ====
section
/-!
DEFINITION. One step of the machine: the next thing the host does is taken and carried out completely (20_memory.md R41); with
nothing issued the core waits (00_scope.md R5, 70_reset_and_hazards.md R103).
-/

namespace Sys2Proof.Machine

/-- One step. A command word that is no command is answered `ILLEGAL`, before any other check (30_encoding.md R47). -/
def step (s : State) : Host.Outcome State Fault Refusal :=
  match s.input with
  | [] => .next s
  | .rst :: rest => .next (s.withInput rest).powerOn
  | .command c :: rest =>
    match decode c with
    | .ok i => exec i (s.withInput rest)
    | .error _ => rejectIllegal (s.withInput rest)

/-- The machine with a table word issued as its next command (log 5, log 6). -/
def State.withFetchWord (s : State) (nbits w : Nat) : State :=
  s.issue (commandOfTableWord s.fw (w % 2 ^ nbits))

end Sys2Proof.Machine
end

