-- ==== Sys2Proof/Safety.lean ====
section
/-!
DEFINITION. The terms claims use: the ranges of 10_state.md, the invariants of R22 to R26, the reachable states of R34, and what
a safe step is on a machine that has no fault (00_scope.md R19).
-/

namespace Sys2Proof.Machine

variable {F : Fmt}

/-- `w` is a number of the closed range `[lo, hi]` (no NaN is). -/
def inRange (w lo hi : Word F) : Bool := fge w lo && fge hi w

/-- `w` is a phase: a number in [0, 1) (10_state.md R23). -/
def isPhase (w : Word F) : Bool := fge w 0 && flt w (lit 1)

/-- All four history cells are finite (10_state.md R25). -/
def historyFinite (b : Biquad F) : Bool := isFinite b.x1 && isFinite b.x2 && isFinite b.y1 && isFinite b.y2

/-- An environment of this machine: its `NUM`, and a NaN at every site. -/
structure Env.Valid (E : Env F) : Prop where
  num : E.num = Config.num F
  nan : ∀ site, isNaN (E.nan site) = true

/-- "coefficients are always consistent with the current (cutoff, resonance) pair" (10_state.md R25): the five cells are what
42_biquad_filter.md R71 computes from the cutoff, the resonance and `SR` (up to the free pattern of a NaN). -/
def Biquad.Consistent (sr : Word F) (b : Biquad F) : Prop := ∃ E : Env F, E.Valid ∧ biquadRecompute E sr b = b

/-- The invariants of the reachable states (10_state.md R22 to R26, R34). -/
structure Voice.Inv (v : Voice F) : Prop where
  /-- R22: finite and at least 40. -/
  rate : initOperandOk v.sr = true
  /-- R23 -/
  freqEq : v.osc.sin.freq = v.osc.sqr.freq
  freqRange : inRange v.osc.sin.freq (lit 20) (lit 20000) = true
  phaseEq : v.osc.sin.phase = v.osc.sqr.phase
  phaseRange : isPhase v.osc.sin.phase = true
  mixRange : inRange v.osc.mix (lit 0) (lit 1) = true
  /-- R24 -/
  lfoFreq : inRange v.lfo.osc.freq (lit 1 100) (lit 20) = true
  lfoPhase : isPhase v.lfo.osc.phase = true
  lfoShape : v.lfo.shape = Config.lfoShapeInit
  /-- R25, for every environment the half rate is computed in: `SR`/2 has one value. -/
  cutoffRange : ∀ nan, inRange v.flt.cutoff (lit 20) (fdiv nan v.sr (lit 2)) = true
  resRange : inRange v.flt.res (lit 1 10) (lit 10) = true
  consistent : v.flt.Consistent v.sr
  history : historyFinite v.flt = true
  /-- R26 -/
  gain : v.vca.gain = (configParams F).vcaGain
  amt : v.vca.amt = (configParams F).vcaAmt
  cur : v.vca.cur = lit 1

/-- The invariant of the whole machine: whenever a Voice is constructed, the invariants of R22 to R26 hold of it. -/
def State.Inv (s : State) : Prop := s.ctor = true → s.voice.Inv

/-- The reachable states of 10_state.md R34: a constructed state obtained from any state by one successful `INIT` followed by
any sequence of steps that keep the Voice. -/
inductive Reachable : State → Prop where
  | construct {s t : State} {sr : BitVec 64} (ok : initOperandOk (operand s.fw sr) = true) (h : exec (.init sr) s = .next t) :
      Reachable t
  | step {s t : State} (r : Reachable s) (h : step s = .next t) (c : t.ctor = true) : Reachable t

/-- The reserved opcodes as 30_encoding.md R49 prints them: "0x00, 0x03 to 0x0F, 0x15 to 0x7F and 0x97 to 0xFF". -/
def isReservedOpcode (op : BitVec 8) : Bool :=
  op == 0x00 || (decide (0x03 ≤ op.toNat) && decide (op.toNat ≤ 0x0F))
    || (decide (0x15 ≤ op.toNat) && decide (op.toNat ≤ 0x7F)) || decide (0x97 ≤ op.toNat)

/-- The opcodes of format A: `INIT` and the five setters (30_encoding.md R44). -/
def isFormatA (op : BitVec 8) : Bool := op == 0x01 || (decide (0x10 ≤ op.toNat) && decide (op.toNat ≤ 0x14))

/-- The operand check of a format-A command (30_encoding.md R48). -/
def operandPasses (op : BitVec 8) (arg : Word F) : Bool :=
  if op = 0x01 then initOperandOk arg else setterOperandOk arg

/-- The words of the 23 indexed cells by rising index, as the table of 10_state.md R21 lists them; `LFO_SHAPE` is its code,
zero-extended (44_voice.md R93). -/
def cellsInOrder (v : Voice F) : List (Word F) :=
  [v.sr, v.osc.sin.freq, v.osc.sin.phase, v.osc.sqr.freq, v.osc.sqr.phase, v.osc.mix, v.lfo.osc.freq, v.lfo.osc.phase,
   (match v.lfo.shape with | .sine => 0 | .triangle => 1 | .ramp => 2 | .smoothSquare => 3),
   v.flt.cutoff, v.flt.res, v.flt.a0, v.flt.a1, v.flt.a2, v.flt.b1, v.flt.b2, v.flt.x1, v.flt.x2, v.flt.y1, v.flt.y2,
   v.vca.gain, v.vca.amt, v.vca.cur]

/-- A host event that is a command (30_encoding.md R43). -/
def isCommand : HostEvent F → Bool
  | .rst => false
  | .command _ => true

/-- The filter's coefficients are all finite. -/
def coefficientsFinite (b : Biquad F) : Bool :=
  isFinite b.a0 && isFinite b.a1 && isFinite b.a2 && isFinite b.b1 && isFinite b.b2

/-- The largest finite word of the format (00_scope.md R10). -/
def largestFinite (F : Fmt) : Word F := pack false (infMag F - 1)

/-- The overflow threshold of roundTiesToEven (00_scope.md R11), TWICE, in units: twice the largest finite value plus one of its last
places, the distance to the word below it. An exact result of at least half of this rounds to an infinity. -/
def overflowBound (F : Fmt) : Int :=
  2 * valueUnits (largestFinite F) + (valueUnits (largestFinite F) - valueUnits (pack false (infMag F - 2) : Word F))

/-- A safe step: the core answers a next state (00_scope.md R19: "no fault, no stuck state and no hang"). -/
def SafeStep (s : State) : Prop := ∃ t, step s = .next t

end Sys2Proof.Machine
end

