-- ==== Sys2Proof/Certificates/Slice0/Obligations.lean ====
section
/-!
DEFINITION. The statements about the machine, one per numbered rule or property of the spec. Each holds for both builds `FW` = 32
and `FW` = 64 and for every value of the open parameters and of the free values.
-/

open Sys2Proof Sys2Proof.Machine

/-! ### The command port -/

/-- 30_encoding.md R44: decoding the word of a command of the build gives the command back, with every operand and every cell. -/
def Obligations.DecodeOfEncode : Prop :=
  ∀ (F : Fmt) (i : Instr), i.wellFormed F = true → decode (encode F i) = .ok i

/-- 30_encoding.md R44, R45: what decodes is a command of the build, and encoding it gives the opcode back, with the operand
of a format-A command. -/
def Obligations.EncodeOfDecode : Prop :=
  ∀ (F : Fmt) (c : Command F) (i : Instr), decode c = .ok i →
    i.wellFormed F = true ∧ (encode F i).op = c.op ∧ (isFormatA c.op = true → encode F i = c)

/-- Sanity: words that 30_encoding.md R51 and 95_test_vectors.md P1 to P4 write out, and two reserved ones. -/
def Obligations.PrintedWordsDecode : Prop :=
  decode (⟨0x01#8, 0x472C4400#32⟩ : Command .b32) = .ok (.init 0x472C4400#64) ∧
  decode (⟨0x02#8, 0x00000000#32⟩ : Command .b32) = .ok .step ∧
  decode (⟨0x10#8, 0x40A00000#32⟩ : Command .b32) = .ok (.setf 0x40A00000#64) ∧
  decode (⟨0x11#8, 0x46EA6000#32⟩ : Command .b32) = .ok (.setc 0x46EA6000#64) ∧
  decode (⟨0x12#8, 0x42480000#32⟩ : Command .b32) = .ok (.setq 0x42480000#64) ∧
  decode (⟨0x13#8, 0x42C80000#32⟩ : Command .b32) = .ok (.setl 0x42C80000#64) ∧
  decode (⟨0x14#8, 0x3FC00000#32⟩ : Command .b32) = .ok (.setm 0x3FC00000#64) ∧
  decode (⟨0x81#8, 0xDEADBEEF#32⟩ : Command .b32) = .ok (.rd .oscSinFreq) ∧
  decode (⟨0x96#8, 0x00000000#64⟩ : Command .b64) = .ok (.rd .vcaCur) ∧
  decode (⟨0x97#8, 0x00000000#32⟩ : Command .b32) = .error (.reservedIndex 0x17#7) ∧
  decode (⟨0x00#8, 0x00000000#32⟩ : Command .b32) = .error (.reservedOpcode 0x00#8)

/-- 30_encoding.md R44: as one number a command has its opcode in the high bits, and the number determines the command. -/
def Obligations.CommandAsOneNumber : Prop :=
  ∀ (F : Fmt) (c : Command F),
    c.toNumber.toNat = c.op.toNat * 2 ^ F.width + c.arg.toNat ∧ commandOfNumber c.toNumber = c

/-- The step: with nothing issued the core waits (70_reset_and_hazards.md R103); a command word that decodes is carried out
completely, the rest of the host's events untouched (20_memory.md R41). -/
def Obligations.StepRunsTheIssuedCommand : Prop :=
  (∀ s : State, s.input = [] → step s = .next s) ∧
  (∀ (s : State) (c : Command s.fw) (rest : List (HostEvent s.fw)) (i : Instr),
    s.input = .command c :: rest → decode c = .ok i → step s = exec i { s with input := rest })

/-- 30_encoding.md R47 (with R49): the four checks of an issued command, in their order. -/
def Obligations.ChecksInOrder : Prop :=
  ∀ (s : State) (c : Command s.fw) (rest : List (HostEvent s.fw)), s.input = .command c :: rest →
    (isReservedOpcode c.op = true →
      step s = .next { s with input := rest, output := s.output ++ [⟨.illegal, 0⟩] }) ∧
    (isReservedOpcode c.op = false → s.ctor = false → c.op ≠ 0x01 →
      step s = .next { s with input := rest, output := s.output ++ [⟨.notReady, 0⟩] }) ∧
    (isReservedOpcode c.op = false → (s.ctor = true ∨ c.op = 0x01) → isFormatA c.op = true → operandPasses c.op c.arg = false →
      step s = .next { s with input := rest, output := s.output ++ [⟨.badArg, 0⟩] }) ∧
    (isReservedOpcode c.op = false → (s.ctor = true ∨ c.op = 0x01) → (isFormatA c.op = true → operandPasses c.op c.arg = true) →
      ∃ i, decode c = .ok i ∧ step s = exec i { s with input := rest } ∧
        ∃ v b d n, step s = .next ⟨s.fw, v, b, rest, s.output ++ [⟨.ok, d⟩], n⟩)

/-- 00_scope.md R19, 20_memory.md R41, 30_encoding.md R43: however long the core runs, it never stops, it takes the host's events
in order, keeps every response given, and gives exactly one more for each command taken. (That an `rst` among the events takes
nothing back from `output`, and that it falls between commands, is the model's choice, log 3; no rule says it.) -/
def Obligations.EveryRunAnswersEveryCommand : Prop :=
  ∀ (k : Nat) (s : State), ∃ v b new n,
    Sys2Proof.core.run k s = .next (⟨s.fw, v, b, s.input.drop k, s.output ++ new, n⟩ : State) ∧
      new.length = ((s.input.take k).filter isCommand).length

/-- 60_exceptions.md R101, 10_state.md R31, R33: `CTOR` falls only at `rst`, and rises only at an `INIT` whose operand passes. -/
def Obligations.CtorChangesOnlyAtResetAndInit : Prop :=
  ∀ s t : State, step s = .next t →
    (s.ctor = true → t.ctor = false → s.input.head? = some .rst) ∧
    (s.ctor = false → t.ctor = true → ∃ c, s.input.head? = some (.command c) ∧ c.op = 0x01 ∧ initOperandOk c.arg = true)

/-- 70_reset_and_hazards.md R103: the reset state, and `rst` in a run. (That `rst` leaves the responses already given is the
model's reading, log 3.) -/
def Obligations.PowerOnReset : Prop :=
  (State.reset.ctor = false ∧ State.reset.input = [] ∧ State.reset.output = []) ∧
  (∀ (s : State) (rest : List (HostEvent s.fw)), s.input = .rst :: rest →
    ∃ v n, step s = .next ⟨s.fw, v, false, rest, s.output, n⟩)

/-- 10_state.md R31: "No such value can be observed". Two machines that differ only in what their cells hold while no Voice is
constructed give the same responses for ever, and agree on every cell as soon as a Voice is constructed. -/
def Obligations.PowerOnContentsAreNeverObserved : Prop :=
  ∀ (k : Nat) (F : Fmt) (v w : Voice F) (inp : List (HostEvent F)) (out : List (Response F)) (n : Nat),
    ∃ v' w' b inp' out' n',
      Sys2Proof.core.run k (⟨F, v, false, inp, out, n⟩ : State) = .next (⟨F, v', b, inp', out', n'⟩ : State) ∧
      Sys2Proof.core.run k (⟨F, w, false, inp, out, n⟩ : State) = .next (⟨F, w', b, inp', out', n'⟩ : State) ∧
      (b = true → v' = w')

/-! ### INIT -/

/-- 44_voice.md R86 (the values tabulated in 10_state.md R32): `INIT` writes every cell, whatever the old Voice was; a rejected
`INIT` changes nothing. -/
def Obligations.InitConstructsTheVoice : Prop :=
  ∀ (s : State) (arg : BitVec 64), let sr := operand s.fw arg
    (initOperandOk sr = true → ∃ v : Voice s.fw,
      exec (.init arg) s = .next { s with voice := v, ctor := true, output := s.output ++ [⟨.ok, 0⟩], draws := s.draws + 1 } ∧
      v.sr = sr ∧
      v.osc = ⟨⟨lit 440, 0⟩, ⟨lit 440, 0⟩, lit 3 10⟩ ∧
      v.lfo = ⟨⟨lit 1 2, 0⟩, Config.lfoShapeInit⟩ ∧
      (fge sr (lit 2000) = true → v.flt.cutoff = lit 1000) ∧
      (flt sr (lit 2000) = true → ∀ nan, v.flt.cutoff = fdiv nan sr (lit 2)) ∧
      v.flt.res = lit 1 10 ∧ v.flt.Consistent sr ∧
      v.flt.x1 = 0 ∧ v.flt.x2 = 0 ∧ v.flt.y1 = 0 ∧ v.flt.y2 = 0 ∧
      v.vca = ⟨(configParams s.fw).vcaGain, (configParams s.fw).vcaAmt, lit 1⟩) ∧
    (initOperandOk sr = false → exec (.init arg) s = .next { s with output := s.output ++ [⟨.badArg, 0⟩] })

/-- 30_encoding.md R48, 60_exceptions.md R98: the operand of `INIT` passes exactly when it is finite and its value is at least 40;
so no NaN, infinity, negative number, zero or subnormal does. -/
def Obligations.InitAcceptsExactlyRatesFromForty : Prop :=
  ∀ (F : Fmt) (w : Word F),
    (initOperandOk w = true ↔ isFinite w = true ∧ 40 * 2 ^ unitExp F ≤ valueUnits w) ∧
    (isNaN w = true ∨ isInf w = true ∨ signBit w = true ∨ expField w = 0 → initOperandOk w = false)

/-! ### STEP -/

/-- 44_voice.md R87: the pipeline, its response, what it writes and what it leaves. -/
def Obligations.StepRunsThePipeline : Prop :=
  ∀ s : State,
    (s.ctor = true → ∃ v d,
      exec .step s = .next { s with voice := v, output := s.output ++ [⟨.ok, d⟩], draws := s.draws + 1 } ∧
      (∃ o l f, mixedNext s.env s.voice.sr s.voice.osc = (o, v.osc) ∧
        modOscNext s.env s.voice.sr s.voice.lfo = (l, v.lfo) ∧
        biquadProcess s.env
          (biquadSetModulation s.env s.voice.sr (fmul (s.env.nan .depth) l (lit 1 4)) s.voice.flt) o = (f, v.flt) ∧
        d = vcaProcess s.env s.voice.vca (fmul (s.env.nan .attenuation) f (lit 1 2))) ∧
      v.sr = s.voice.sr ∧ v.osc.sin.freq = s.voice.osc.sin.freq ∧ v.osc.sqr.freq = s.voice.osc.sqr.freq ∧
      v.osc.mix = s.voice.osc.mix ∧ v.lfo.osc.freq = s.voice.lfo.osc.freq ∧ v.lfo.shape = s.voice.lfo.shape ∧
      v.flt.res = s.voice.flt.res ∧ v.vca = s.voice.vca) ∧
    (s.ctor = false → exec .step s = .next { s with output := s.output ++ [⟨.notReady, 0⟩] })

/-- 70_reset_and_hazards.md R107, 44_voice.md R94: the cutoff and the coefficients a `STEP` finds have no influence on anything:
"the cutoff chosen by `INIT` (1000 Hz) or by `SETC` is never the cutoff a sample is filtered with". -/
def Obligations.StepForgetsTheSetCutoff : Prop :=
  ∀ (s : State) (f g : Biquad s.fw), s.ctor = true →
    f.res = g.res → f.x1 = g.x1 → f.x2 = g.x2 → f.y1 = g.y1 → f.y2 = g.y2 →
    ∃ t, exec .step { s with voice := { s.voice with flt := f } } = .next t ∧
      exec .step { s with voice := { s.voice with flt := g } } = .next t

/-! ### Oscillators -/

/-- 00_scope.md R16: `wrap1` is the exact remainder modulo 1 (the fraction towards zero, with the sign, for a negative word), and a
NaN for an infinity or a NaN. (For a negative whole number, whose remainder is a zero, the sign is the model's choice: -0, the sign
of the word, log 10. The sign of `wrap1(-0)` is left free, log 10.) -/
def Obligations.WrapIsTheExactRemainder : Prop :=
  ∀ (F : Fmt) (nan a : Word F) (zs : Bool),
    (isFinite a = true → signBit a = false →
      valueUnits (wrap1 nan zs a) = valueUnits a % 2 ^ unitExp F ∧ signBit (wrap1 nan zs a) = false ∧
        isPhase (wrap1 nan zs a) = true) ∧
    (isFinite a = true → signBit a = true → isZero a = false →
      valueUnits (wrap1 nan zs a) = -(-valueUnits a % 2 ^ unitExp F) ∧ signBit (wrap1 nan zs a) = true) ∧
    (isFinite a = true → isZero a = true → isZero (wrap1 nan zs a) = true) ∧
    (isFinite a = false → wrap1 nan zs a = nan)

/-- 40_oscillators.md R53: the phase advances by the rounded quotient and wraps; it stays in [0, 1) whenever the quotient is
finite, and the frequency is kept. -/
def Obligations.PhaseStaysInUnitInterval : Prop :=
  ∀ (F : Fmt) (E : Env F) (id : OscId) (sr : Word F) (o : Osc F), isPhase o.phase = true →
    isFinite (fdiv (E.nan (.inc id)) o.freq sr) = true → 0 ≤ valueUnits (fdiv (E.nan (.inc id)) o.freq sr) →
    isPhase (oscAdvance E id sr o).phase = true ∧ (oscAdvance E id sr o).freq = o.freq ∧
      (oscAdvance E id sr o).phase = wrap1 (E.nan (.wrap id)) (E.zeroSign id)
        (fadd (E.nan (.sum id)) o.phase (fdiv (E.nan (.inc id)) o.freq sr))

/-- 40_oscillators.md R53 corner case (c), at the rates `INIT` accepts (10_state.md R22): for every positive finite frequency and
every phase in [0, 1) the advanced phase is in [0, 1). (Below those rates the quotient can overflow: see NOTES.md.) -/
def Obligations.PhaseInvariantAtAcceptedRates : Prop :=
  ∀ (F : Fmt) (E : Env F) (id : OscId) (sr : Word F) (o : Osc F), isPhase o.phase = true →
    isFinite o.freq = true → 0 < valueUnits o.freq → initOperandOk sr = true →
    isPhase (oscAdvance E id sr o).phase = true

/-- 40_oscillators.md R55: the square wave is exactly +1 or -1, +1 while the phase is below 0.5, taken before the advance. -/
def Obligations.SquareIsPlusOrMinusOne : Prop :=
  ∀ (F : Fmt) (E : Env F) (sr : Word F) (o : Osc F),
    (flt o.phase (lit 1 2) = true → squareNext E sr o = (lit 1, oscAdvance E .square sr o)) ∧
    (flt o.phase (lit 1 2) = false → squareNext E sr o = (fneg (lit 1), oscAdvance E .square sr o)) ∧
    valueUnits (lit 1 : Word F) = 2 ^ unitExp F ∧ valueUnits (fneg (lit 1) : Word F) = -2 ^ unitExp F

/-- 40_oscillators.md R54: the sine's sample is taken at the phase the call finds, then the phase advances; at phase +0 it is +0,
and at every phase it lies in [-1, 1]. -/
def Obligations.SineSamplesThenAdvances : Prop :=
  ∀ (F : Fmt) (E : Env F) (sr : Word F) (o : Osc F),
    sineNext E sr o =
      (fsin E.num (E.nan (.sinVal .sine)) (fmul (E.nan (.sinArg .sine)) (twoPi F) o.phase), oscAdvance E .sine sr o) ∧
    (o.phase = 0 → (sineNext E sr o).1 = 0) ∧
    (isPhase o.phase = true → inRange (sineNext E sr o).1 (fneg (lit 1)) (lit 1) = true)

/-- 40_oscillators.md R57: the Mixed oscillator samples and advances both sub-oscillators, keeps the ratio, and crossfades with
four operations. -/
def Obligations.MixedCrossfadesBothSamples : Prop :=
  ∀ (F : Fmt) (E : Env F) (sr : Word F) (m : Mixed F),
    mixedNext E sr m =
      (fadd (E.nan .mixSum) (fmul (E.nan .mixSine) (fsub (E.nan .mixRest) (lit 1) m.mix) (sineNext E sr m.sin).1)
          (fmul (E.nan .mixSquare) m.mix (squareNext E sr m.sqr).1),
        ⟨(sineNext E sr m.sin).2, (squareNext E sr m.sqr).2, m.mix⟩)

/-- 40_oscillators.md R57, R60: at ratio 0 the crossfade is the sine (a `-0` beside `+1` comes out as `+0`); at ratio 1 it is the
square, exactly. -/
def Obligations.CrossfadeEndpoints : Prop :=
  ∀ (F : Fmt) (E : Env F) (s q : Word F), isFinite s = true → (q = lit 1 ∨ q = fneg (lit 1)) →
    (isZero s = false → crossfade E (lit 0) s q = s) ∧
    (isZero s = true → crossfade E (lit 0) s q = if signBit s = true ∧ q = fneg (lit 1) then s else 0) ∧
    crossfade E (lit 1) s q = q

/-- 40_oscillators.md R57, 91_not_in_source.md N31: for a ratio in [0, 1] and a sine in [-1, 1] the crossfade "may round but stays
within [-1, 1]". -/
def Obligations.CrossfadeIsBounded : Prop :=
  ∀ (F : Fmt) (E : Env F) (r s q : Word F), inRange r (lit 0) (lit 1) = true →
    inRange s (fneg (lit 1)) (lit 1) = true → (q = lit 1 ∨ q = fneg (lit 1)) →
    inRange (crossfade E r s q) (fneg (lit 1)) (lit 1) = true

/-! ### The modulation oscillator -/

/-- 41_modulation_oscillator.md R63 to R67: the value is the shape's formula at the phase found, then the phase advances;
frequency and shape are kept. -/
def Obligations.LfoSamplesThenAdvances : Prop :=
  ∀ (F : Fmt) (E : Env F) (sr p f : Word F),
    let sine := fsin E.num (E.nan (.sinVal .lfo)) (fmul (E.nan (.sinArg .lfo)) (twoPi F) p)
    modOscNext E sr ⟨⟨f, p⟩, .sine⟩ = (sine, ⟨oscAdvance E .lfo sr ⟨f, p⟩, .sine⟩) ∧
    modOscNext E sr ⟨⟨f, p⟩, .triangle⟩ =
      (if flt p (lit 1 2) then fsub (E.nan .triLine) (fmul (E.nan .triScale) (lit 4) p) (lit 1)
        else fsub (E.nan .triLine) (lit 3) (fmul (E.nan .triScale) (lit 4) p), ⟨oscAdvance E .lfo sr ⟨f, p⟩, .triangle⟩) ∧
    modOscNext E sr ⟨⟨f, p⟩, .ramp⟩ =
      (fsub (E.nan .rampLine) (fmul (E.nan .rampScale) (lit 2) p) (lit 1), ⟨oscAdvance E .lfo sr ⟨f, p⟩, .ramp⟩) ∧
    modOscNext E sr ⟨⟨f, p⟩, .smoothSquare⟩ =
      (fmul (E.nan .softScale) (ftanh E.num (E.nan .softTanh) sine) (lit 2), ⟨oscAdvance E .lfo sr ⟨f, p⟩, .smoothSquare⟩)

/-- 41_modulation_oscillator.md R64 to R67: over the phases, Sine and Triangle lie in [-1, 1], Ramp in [-1, 1), and SmoothSquare in
[-2, 2], which is all that `NUM.bound` gives. -/
def Obligations.LfoShapeRanges : Prop :=
  ∀ (F : Fmt) (E : Env F) (p : Word F), isPhase p = true →
    inRange (shapeOf E .sine p) (fneg (lit 1)) (lit 1) = true ∧
    inRange (shapeOf E .triangle p) (fneg (lit 1)) (lit 1) = true ∧
    inRange (shapeOf E .ramp p) (fneg (lit 1)) (lit 1) = true ∧ flt (shapeOf E .ramp p) (lit 1) = true ∧
    inRange (shapeOf E .smoothSquare p) (fneg (lit 2)) (lit 2) = true

/-- 41_modulation_oscillator.md R65, R66: the Triangle and the Ramp at the eighths of a cycle (95_test_vectors.md V22, V23). -/
def Obligations.TriangleAndRampAtEighths : Prop :=
  ∀ (F : Fmt) (E : Env F),
    ([0, 1, 2, 3, 4, 5, 6, 7].map fun k => shapeTriangle E (lit k 8)) =
      [fneg (lit 1), fneg (lit 1 2), lit 0, lit 1 2, lit 1, lit 1 2, lit 0, fneg (lit 1 2)] ∧
    ([0, 1, 2, 3, 4, 5, 6, 7].map fun k => shapeRamp E (lit k 8)) =
      [fneg (lit 1), fneg (lit 3 4), fneg (lit 1 2), fneg (lit 1 4), lit 0, lit 1 4, lit 1 2, lit 3 4]

/-! ### The filter -/

/-- 42_biquad_filter.md R70: construction clamps both parameters, zeroes the history and derives the coefficients. -/
def Obligations.BiquadConstruction : Prop :=
  ∀ (F : Fmt) (E : Env F) (sr fc q : Word F), E.Valid → initOperandOk sr = true → isNaN fc = false → isNaN q = false →
    let b := biquadNew E sr fc q
    b.cutoff = clamp fc (lit 20) (fdiv (E.nan .halfNew) sr (lit 2)) ∧ b.res = clamp q (lit 1 10) (lit 20) ∧
    inRange b.cutoff (lit 20) (fdiv (E.nan .halfNew) sr (lit 2)) = true ∧ inRange b.res (lit 1 10) (lit 20) = true ∧
    valueUnits (fdiv (E.nan .halfNew) sr (lit 2)) * 2 = valueUnits sr ∧
    b.x1 = 0 ∧ b.x2 = 0 ∧ b.y1 = 0 ∧ b.y2 = 0 ∧ b.Consistent sr

/-- 42_biquad_filter.md R71: the coefficient derivation, for every cutoff, resonance and rate of both builds: the five expression
trees, written into the five coefficient cells, nothing else changed; and the words of the rule's example (`FW` = 32, `SR` = 44100,
cutoff 1000, resonance 0.1), under any `NUM` that has the example's cosine and sine of `w`. -/
def Obligations.CoefficientDerivation : Prop :=
  (∀ (F : Fmt) (E : Env F) (sr : Word F) (b : Biquad F),
    let w := fdiv (E.nan .w) (fmul (E.nan .wScale) (twoPi F) b.cutoff) sr
    let c := fcos E.num (E.nan .cosW) w
    let al := fdiv (E.nan .alpha) (fsin E.num (E.nan .sinW) w) (fmul (E.nan .twoQ) (lit 2) b.res)
    let b0 := fdiv (E.nan .b0) (fsub (E.nan .b0Diff) (lit 1) c) (lit 2)
    let a0 := fadd (E.nan .a0) (lit 1) al
    biquadRecompute E sr b =
      { b with
        a0 := fdiv (E.nan .cellA0) b0 a0
        a1 := fdiv (E.nan .cellA1) (fsub (E.nan .b1) (lit 1) c) a0
        a2 := fdiv (E.nan .cellA2) b0 a0
        b1 := fdiv (E.nan .cellB1) (fmul (E.nan .a1) (fneg (lit 2)) c) a0
        b2 := fdiv (E.nan .cellB2) (fsub (E.nan .a2) (lit 1) al) a0 }) ∧
  ∀ (E : Env .b32) (b : Biquad .b32), E.num.cos 0x3E11E531#32 = 0x3F7D67F4#32 → E.num.sin 0x3E11E531#32 = 0x3E1166F5#32 →
    b.cutoff = 0x447A0000#32 → b.res = 0x3DCCCCCD#32 →
    biquadRecompute E 0x472C4400#32 b =
      { b with a0 := 0x3B422B43#32, a1 := 0x3BC22B43#32, a2 := 0x3B422B43#32, b1 := 0xBF943172#32, b2 := 0x3E2DAE45#32 }

/-- 42_biquad_filter.md R72: the filtering equation, nine operations summed left to right; its result where it is finite, the input
where it is not. -/
def Obligations.FilteringEquation : Prop :=
  ∀ (F : Fmt) (E : Env F) (b : Biquad F) (xin : Word F),
    biquadOutput E b xin =
      fsub (E.nan .y) (fsub (E.nan .y0123) (fadd (E.nan .y012) (fadd (E.nan .y01) (fmul (E.nan .t0) b.a0 xin)
        (fmul (E.nan .t1) b.a1 b.x1)) (fmul (E.nan .t2) b.a2 b.x2)) (fmul (E.nan .t3) b.b1 b.y1)) (fmul (E.nan .t4) b.b2 b.y2) ∧
    (biquadProcess E b xin).1 = if isFinite (biquadOutput E b xin) then biquadOutput E b xin else xin

/-- 42_biquad_filter.md R74: the guard. A non-finite output zeroes the four history cells and nothing else, and the unfiltered
input is the result. -/
def Obligations.GuardBypassesAndClearsHistory : Prop :=
  ∀ (F : Fmt) (E : Env F) (b : Biquad F) (xin : Word F), isFinite (biquadOutput E b xin) = false →
    biquadProcess E b xin = (xin, { b with x1 := 0, x2 := 0, y1 := 0, y2 := 0 })

/-- 42_biquad_filter.md R73: a finite output shifts the history, simultaneously; and a non-finite input never reaches the history. -/
def Obligations.FiniteOutputShiftsHistory : Prop :=
  ∀ (F : Fmt) (E : Env F) (b : Biquad F) (xin : Word F), E.Valid →
    (isFinite (biquadOutput E b xin) = true →
      biquadProcess E b xin = (biquadOutput E b xin,
        { b with x2 := b.x1, x1 := xin, y2 := b.y1, y1 := biquadOutput E b xin })) ∧
    (isFinite xin = false → biquadProcess E b xin = (xin, { b with x1 := 0, x2 := 0, y1 := 0, y2 := 0 }))

/-- 10_state.md R25, 42_biquad_filter.md R78: whatever the coefficients and the input, filtering keeps the history finite, and a
non-finite result comes only from a non-finite input. -/
def Obligations.FilteringKeepsHistoryFinite : Prop :=
  ∀ (F : Fmt) (E : Env F) (b : Biquad F) (xin : Word F), E.Valid → historyFinite b = true →
    historyFinite (biquadProcess E b xin).2 = true ∧
      (isFinite xin = true → isFinite (biquadProcess E b xin).1 = true)

/-- 60_exceptions.md R97: the call after the guard starts from zero history, so its output is `fmul(A0, xin)` (where that product
is finite and not a zero, whose sign a sum of zeros may change). -/
def Obligations.OutputAfterTheGuard : Prop :=
  ∀ (F : Fmt) (E : Env F) (b : Biquad F) (xin x : Word F), isFinite (biquadOutput E b xin) = false →
    coefficientsFinite b = true → isFinite (fmul (E.nan .t0) b.a0 x) = true → isZero (fmul (E.nan .t0) b.a0 x) = false →
    (biquadProcess E (biquadProcess E b xin).2 x).1 = fmul (E.nan .t0) b.a0 x

/-- 42_biquad_filter.md R76: the mapping `400 + ((v+1)/2)·3600` of every `v`; -1, 0 and 1 map to 400, 2200 and 4000 exactly, and
[-1, 1] into [400, 4000]. -/
def Obligations.ModulationMapsUnitRange : Prop :=
  ∀ (F : Fmt) (E : Env F),
    (∀ v, modulatedCutoff E v = fadd (E.nan .modBase) (lit 400)
      (fmul (E.nan .modSpan) (fdiv (E.nan .modHalf) (fadd (E.nan .modOne) v (lit 1)) (lit 2)) (lit 3600))) ∧
    modulatedCutoff E (fneg (lit 1)) = lit 400 ∧ modulatedCutoff E (lit 0) = lit 2200 ∧ modulatedCutoff E (lit 1) = lit 4000 ∧
    ∀ v, inRange v (fneg (lit 1)) (lit 1) = true → inRange (modulatedCutoff E v) (lit 400) (lit 4000) = true

/-- 42_biquad_filter.md R76: `set_modulation` replaces the cutoff, clamped, and recomputes; the resonance and the history stay. -/
def Obligations.SetModulationReplacesTheCutoff : Prop :=
  ∀ (F : Fmt) (E : Env F) (sr v : Word F) (b : Biquad F), E.Valid → initOperandOk sr = true → isNaN v = false →
    let c := biquadSetModulation E sr v b
    c.cutoff = clamp (modulatedCutoff E v) (lit 20) (fdiv (E.nan .halfMod) sr (lit 2)) ∧
    inRange c.cutoff (lit 20) (fdiv (E.nan .halfMod) sr (lit 2)) = true ∧ c.Consistent sr ∧
    c.res = b.res ∧ c.x1 = b.x1 ∧ c.x2 = b.x2 ∧ c.y1 = b.y1 ∧ c.y2 = b.y2

/-! ### The VCA -/

/-- 43_vca.md R83: with modulation amount 0 the VCA returns `input · input_gain` after every sequence of `set_modulation` calls
with finite arguments (a NaN product is again a NaN, of free pattern). -/
def Obligations.UnmodulatedVcaIsItsGain : Prop :=
  ∀ (F : Fmt) (g x : Word F) (calls : List (Env F × Word F)) (E : Env F), E.Valid → (∀ c ∈ calls, isFinite c.2 = true) →
    let a := calls.foldl (fun a c => vcaSetModulation c.1 c.2 a) (vcaNew g 0)
    a.cur = lit 1 ∧ a.gain = g ∧ a.amt = 0 ∧
      if isNaN (fmul (E.nan .vcaGain) x g) then isNaN (vcaProcess E a x) = true
      else vcaProcess E a x = fmul (E.nan .vcaGain) x g

/-- 43_vca.md R81, R82: the VCA's two formulas, for every gain, amount, modulation and argument: `process` multiplies by the gain and
then by `VCA_CUR`; `set_modulation` writes `VCA_CUR` and nothing else. At amount 1 the multiplier is 0.5, 1 and 1.5 at -1, 0 and 1,
and extrapolates beyond. -/
def Obligations.VcaFormulas : Prop :=
  ∀ (F : Fmt) (E : Env F) (g c : Word F),
    (∀ amt x, vcaProcess E ⟨g, amt, c⟩ x = fmul (E.nan .vcaCur) (fmul (E.nan .vcaGain) x g) c) ∧
    (∀ amt v, vcaSetModulation E v ⟨g, amt, c⟩ =
      ⟨g, amt, fadd (E.nan .vcaSet) (lit 1) (fmul (E.nan .vcaScale)
        (fsub (E.nan .vcaOff) (fdiv (E.nan .vcaNorm) (fadd (E.nan .vcaOne) v (lit 1)) (lit 2)) (lit 1 2)) amt)⟩) ∧
    vcaSetModulation E (fneg (lit 1)) ⟨g, lit 1, c⟩ = ⟨g, lit 1, lit 1 2⟩ ∧
    vcaSetModulation E (lit 0) ⟨g, lit 1, c⟩ = ⟨g, lit 1, lit 1⟩ ∧
    vcaSetModulation E (lit 1) ⟨g, lit 1, c⟩ = ⟨g, lit 1, lit 3 2⟩ ∧
    vcaSetModulation E (lit 3) ⟨g, lit 1, c⟩ = ⟨g, lit 1, lit 5 2⟩ ∧
    vcaSetModulation E (fneg (lit 3)) ⟨g, lit 1, c⟩ = ⟨g, lit 1, fneg (lit 1 2)⟩

/-! ### The setters -/

/-- 44_voice.md R88: `SETF`. Both frequencies become the clamped operand, both phases +0; nothing else of the Voice changes. -/
def Obligations.SetfSetsBothFrequencies : Prop :=
  ∀ (s : State) (arg : BitVec 64), let x := operand s.fw arg
    (s.ctor = false → exec (.setf arg) s = .next { s with output := s.output ++ [⟨.notReady, 0⟩] }) ∧
    (s.ctor = true → isNaN x = true → exec (.setf arg) s = .next { s with output := s.output ++ [⟨.badArg, 0⟩] }) ∧
    (s.ctor = true → isNaN x = false → ∃ c,
      exec (.setf arg) s = .next { s with
        voice := { s.voice with osc := ⟨⟨c, 0⟩, ⟨c, 0⟩, s.voice.osc.mix⟩ }
        output := s.output ++ [⟨.ok, 0⟩], draws := s.draws + 1 } ∧
      c = clamp x (lit 20) (lit 20000) ∧ inRange c (lit 20) (lit 20000) = true)

/-- 44_voice.md R89: `SETC`. The filter is reconstructed at the clamped cutoff with its resonance; above `SR`/2 the cutoff is `SR`/2
exactly; nothing outside the filter changes. -/
def Obligations.SetcReconstructsTheFilter : Prop :=
  ∀ (s : State) (arg : BitVec 64), let x := operand s.fw arg
    (s.ctor = false → exec (.setc arg) s = .next { s with output := s.output ++ [⟨.notReady, 0⟩] }) ∧
    (s.ctor = true → isNaN x = true → exec (.setc arg) s = .next { s with output := s.output ++ [⟨.badArg, 0⟩] }) ∧
    (s.ctor = true → isNaN x = false → initOperandOk s.voice.sr = true → ∃ (b : Biquad s.fw) (half : Word s.fw),
      exec (.setc arg) s = .next { s with
        voice := { s.voice with flt := b }, output := s.output ++ [⟨.ok, 0⟩], draws := s.draws + 1 } ∧
      valueUnits half * 2 = valueUnits s.voice.sr ∧
      b.cutoff = clamp x (lit 20) half ∧ inRange b.cutoff (lit 20) half = true ∧ (fgt x half = true → b.cutoff = half) ∧
      b.res = clamp s.voice.flt.res (lit 1 10) (lit 20) ∧
      (inRange s.voice.flt.res (lit 1 10) (lit 20) = true → b.res = s.voice.flt.res) ∧
      b.Consistent s.voice.sr ∧ b.x1 = 0 ∧ b.x2 = 0 ∧ b.y1 = 0 ∧ b.y2 = 0)

/-- 44_voice.md R90: `SETQ`. The filter is reconstructed at the clamped resonance with its present cutoff; nothing outside the
filter changes. -/
def Obligations.SetqReconstructsTheFilter : Prop :=
  ∀ (s : State) (arg : BitVec 64), let x := operand s.fw arg
    (s.ctor = false → exec (.setq arg) s = .next { s with output := s.output ++ [⟨.notReady, 0⟩] }) ∧
    (s.ctor = true → isNaN x = true → exec (.setq arg) s = .next { s with output := s.output ++ [⟨.badArg, 0⟩] }) ∧
    (s.ctor = true → isNaN x = false → ∃ b : Biquad s.fw,
      exec (.setq arg) s = .next { s with
        voice := { s.voice with flt := b }, output := s.output ++ [⟨.ok, 0⟩], draws := s.draws + 1 } ∧
      b.res = clamp x (lit 1 10) (lit 10) ∧ inRange b.res (lit 1 10) (lit 10) = true ∧
      b.cutoff = clamp s.voice.flt.cutoff (lit 20) (fdiv (s.env.nan .halfNew) s.voice.sr (lit 2)) ∧
      (inRange s.voice.flt.cutoff (lit 20) (fdiv (s.env.nan .halfNew) s.voice.sr (lit 2)) = true →
        b.cutoff = s.voice.flt.cutoff) ∧
      b.Consistent s.voice.sr ∧ b.x1 = 0 ∧ b.x2 = 0 ∧ b.y1 = 0 ∧ b.y2 = 0)

/-- 44_voice.md R91: `SETL`. The LFO rate becomes the clamped operand, the LFO phase +0, the shape is kept; nothing else changes. -/
def Obligations.SetlRestartsTheLfo : Prop :=
  ∀ (s : State) (arg : BitVec 64), let x := operand s.fw arg
    (s.ctor = false → exec (.setl arg) s = .next { s with output := s.output ++ [⟨.notReady, 0⟩] }) ∧
    (s.ctor = true → isNaN x = true → exec (.setl arg) s = .next { s with output := s.output ++ [⟨.badArg, 0⟩] }) ∧
    (s.ctor = true → isNaN x = false → ∃ r,
      exec (.setl arg) s = .next { s with
        voice := { s.voice with lfo := ⟨⟨r, 0⟩, s.voice.lfo.shape⟩ }
        output := s.output ++ [⟨.ok, 0⟩], draws := s.draws + 1 } ∧
      r = clamp x (lit 1 100) (lit 20) ∧ inRange r (lit 1 100) (lit 20) = true)

/-- 44_voice.md R92: `SETM`. The mix ratio becomes the clamped operand (`-0` is kept), both phases +0, both frequencies are kept;
nothing else changes. -/
def Obligations.SetmSetsTheMixRatio : Prop :=
  ∀ (s : State) (arg : BitVec 64), let x := operand s.fw arg
    (s.ctor = false → exec (.setm arg) s = .next { s with output := s.output ++ [⟨.notReady, 0⟩] }) ∧
    (s.ctor = true → isNaN x = true → exec (.setm arg) s = .next { s with output := s.output ++ [⟨.badArg, 0⟩] }) ∧
    (s.ctor = true → isNaN x = false → ∃ m,
      exec (.setm arg) s = .next { s with
        voice := { s.voice with osc := ⟨⟨s.voice.osc.sin.freq, 0⟩, ⟨s.voice.osc.sqr.freq, 0⟩, m⟩ }
        output := s.output ++ [⟨.ok, 0⟩], draws := s.draws + 1 } ∧
      m = clamp x (lit 0) (lit 1) ∧ inRange m (lit 0) (lit 1) = true ∧ (x = fneg 0 → m = fneg 0))

/-- 60_exceptions.md R98, 30_encoding.md R46: every command either answers `OK`, or answers another status with datum 0 and
changes nothing else. -/
def Obligations.RejectionsChangeNothing : Prop :=
  ∀ (s : State) (i : Instr),
    (∃ v b d n, exec i s = .next ⟨s.fw, v, b, s.input, s.output ++ [⟨.ok, d⟩], n⟩) ∨
    (∃ k, k ≠ .ok ∧ exec i s = .next { s with output := s.output ++ [⟨k, 0⟩] })

/-! ### RD -/

/-- 44_voice.md R93, 30_encoding.md R45: opcode 0x80 + `k` answers the `k`-th cell's word, whatever `cmd_arg` is, and changes no
cell; a reserved index is `ILLEGAL`, before `CTOR` is looked at; without a Voice the answer is `NOT_READY`. -/
def Obligations.ReadAnswersTheIndexedCell : Prop :=
  ∀ (s : State) (c : Command s.fw) (rest : List (HostEvent s.fw)), s.input = .command c :: rest → 0x80 ≤ c.op.toNat →
    (∀ w, (cellsInOrder s.voice)[c.op.toNat - 0x80]? = some w → s.ctor = true →
      step s = .next { s with input := rest, output := s.output ++ [⟨.ok, w⟩] }) ∧
    (0x97 ≤ c.op.toNat → step s = .next { s with input := rest, output := s.output ++ [⟨.illegal, 0⟩] }) ∧
    (c.op.toNat ≤ 0x96 → s.ctor = false → step s = .next { s with input := rest, output := s.output ++ [⟨.notReady, 0⟩] })

/-- 44_voice.md R93, 20_memory.md R40: `RD` completes for every cell, answers the word of the cell at its index, and changes
nothing but the responses; so a second `RD` of the cell answers the same word. -/
def Obligations.ReadCompletesAndChangesNothing : Prop :=
  ∀ (s : State) (c : Cell), s.ctor = true → ∃ w, (cellsInOrder s.voice)[c.index.toNat]? = some w ∧
    exec (.rd c) s = .next { s with output := s.output ++ [⟨.ok, w⟩] } ∧
    exec (.rd c) { s with output := s.output ++ [⟨.ok, w⟩] } = .next { s with output := s.output ++ [⟨.ok, w⟩] ++ [⟨.ok, w⟩] }

/-! ### The invariants of the reachable states -/

/-- The invariant holds at reset (where no Voice is constructed). -/
def Obligations.InvariantAtReset : Prop := State.reset.Inv

/-- 10_state.md R22 to R26: a successful `INIT`, in any state whatever, establishes the invariants. -/
def Obligations.InitEstablishesTheInvariant : Prop :=
  ∀ (s : State) (arg : BitVec 64), initOperandOk (operand s.fw arg) = true →
    ∃ t, exec (.init arg) s = .next t ∧ t.ctor = true ∧ t.voice.Inv

/-- 10_state.md R22 to R26, R34: every step keeps the invariants, from every state that has them. -/
def Obligations.EveryStepKeepsTheInvariant : Prop := ∀ s t : State, s.Inv → step s = .next t → t.Inv

/-- 10_state.md R34: "The invariants stated in rules R22 to R26 hold in every reachable state." -/
def Obligations.ReachableStatesHaveTheInvariant : Prop := ∀ s : State, Reachable s → s.ctor = true ∧ s.voice.Inv

/-- 44_voice.md R87 corner case (e), 93_implementation_defined.md U2: in a state with the invariants no `STEP` answers a NaN. -/
def Obligations.SamplesAreNeverNaN : Prop :=
  ∀ s : State, s.ctor = true → s.voice.Inv → ∃ v d,
    exec .step s = .next { s with voice := v, output := s.output ++ [⟨.ok, d⟩], draws := s.draws + 1 } ∧ isNaN d = false

/-- 44_voice.md R94: at a rate of at least 8000 and an LFO phase in [0, 1), a `STEP` leaves the cutoff in [1750, 2650] for the
shapes Sine, Triangle and Ramp, and in [1300, 3100] for SmoothSquare (which is what `NUM.bound` gives; the rule's "about
[1514.6, 2885.4]" uses the value of tanh at 1). -/
def Obligations.SweepOfTheCutoff : Prop :=
  ∀ s : State, s.ctor = true → isFinite s.voice.sr = true → fge s.voice.sr (lit 8000) = true →
    isPhase s.voice.lfo.osc.phase = true →
    ∃ v d, exec .step s = .next { s with voice := v, output := s.output ++ [⟨.ok, d⟩], draws := s.draws + 1 } ∧
      (s.voice.lfo.shape ≠ .smoothSquare → inRange v.flt.cutoff (lit 1750) (lit 2650) = true) ∧
      inRange v.flt.cutoff (lit 1300) (lit 3100) = true

/-! ### Arithmetic -/

/-- 00_scope.md R11: `fadd` is correctly rounded. No finite word is nearer to the exact sum than the result, and where another is as
near the result's fraction is even; the result is an infinity, of the sum's sign, exactly from the overflow threshold on (the
largest finite value plus half its last place), which lies beyond every finite word. -/
def Obligations.SumIsCorrectlyRounded : Prop :=
  ∀ (F : Fmt) (nan a b : Word F), isFinite a = true → isFinite b = true →
    let r := fadd nan a b
    let x := valueUnits a + valueUnits b
    (isInf r = true ↔ overflowBound F ≤ 2 * |x|) ∧
    ((isFinite r = true ∧ ∀ w : Word F, isFinite w = true → |valueUnits r - x| ≤ |valueUnits w - x| ∧
      (|valueUnits w - x| = |valueUnits r - x| → valueUnits w ≠ valueUnits r → fracField r % 2 = 0)) ∨
    (isInf r = true ∧ (signBit r = true ↔ x < 0) ∧ ∀ w : Word F, isFinite w = true → |valueUnits w| < |x|))

/-- 00_scope.md R11: `fmul` is correctly rounded, an infinity exactly from the overflow threshold on (values in units of `2^-k`, `k` =
`unitExp`; the exact product is `valueUnits a * valueUnits b / 2^k`). That its sign is the product of the signs, for a zero result
too, is presumed from IEEE 754, log 13. -/
def Obligations.ProductIsCorrectlyRounded : Prop :=
  ∀ (F : Fmt) (nan a b : Word F), isFinite a = true → isFinite b = true →
    let r := fmul nan a b
    let x := valueUnits a * valueUnits b
    signBit r = (signBit a != signBit b) ∧
    (isInf r = true ↔ overflowBound F * 2 ^ unitExp F ≤ 2 * |x|) ∧
    ((isFinite r = true ∧ ∀ w : Word F, isFinite w = true →
        |valueUnits r * 2 ^ unitExp F - x| ≤ |valueUnits w * 2 ^ unitExp F - x| ∧
        (|valueUnits w * 2 ^ unitExp F - x| = |valueUnits r * 2 ^ unitExp F - x| → valueUnits w ≠ valueUnits r →
          fracField r % 2 = 0)) ∨
      (isInf r = true ∧ ∀ w : Word F, isFinite w = true → |valueUnits w * 2 ^ unitExp F| < |x|))

/-- 00_scope.md R11: `fdiv` by a divisor that is not zero is correctly rounded, an infinity exactly from the overflow threshold on (the
exact quotient is `valueUnits a * 2^k / valueUnits b` units). That its sign is the product of the signs, for a zero result too, is
presumed from IEEE 754, log 13. -/
def Obligations.QuotientIsCorrectlyRounded : Prop :=
  ∀ (F : Fmt) (nan a b : Word F), isFinite a = true → isFinite b = true → isZero b = false →
    let r := fdiv nan a b
    let x := valueUnits a * 2 ^ unitExp F
    signBit r = (signBit a != signBit b) ∧
    (isInf r = true ↔ overflowBound F * |valueUnits b| ≤ 2 * |x|) ∧
    ((isFinite r = true ∧ ∀ w : Word F, isFinite w = true →
        |valueUnits r * valueUnits b - x| ≤ |valueUnits w * valueUnits b - x| ∧
        (|valueUnits w * valueUnits b - x| = |valueUnits r * valueUnits b - x| → valueUnits w ≠ valueUnits r →
          fracField r % 2 = 0)) ∨
      (isInf r = true ∧ ∀ w : Word F, isFinite w = true → |valueUnits w * valueUnits b| < |x|))

/-- 00_scope.md R11: the invalid cases `inf - inf`, `0 * inf`, `0/0` and `inf/inf` give a NaN (the one drawn), a finite non-zero value
over zero an infinity. That a NaN operand gives a NaN in every operator, and that the infinity has the product of the signs (the
zero's sign with it), is presumed from IEEE 754, log 13; R11 does not list them. -/
def Obligations.InvalidOperationsGiveNaN : Prop :=
  ∀ (F : Fmt) (nan a b : Word F),
    (isNaN a = true ∨ isNaN b = true →
      fadd nan a b = nan ∧ fsub nan a b = nan ∧ fmul nan a b = nan ∧ fdiv nan a b = nan) ∧
    (isInf a = true → fsub nan a a = nan ∧ fadd nan a (fneg a) = nan) ∧
    (isInf a = true → isInf b = true → fdiv nan a b = nan) ∧
    (isInf a = true → isZero b = true → fmul nan a b = nan ∧ fmul nan b a = nan) ∧
    (isZero a = true → isZero b = true → fdiv nan a b = nan) ∧
    (isFinite a = true → isZero a = false → isZero b = true →
      isInf (fdiv nan a b) = true ∧ signBit (fdiv nan a b) = (signBit a != signBit b))

/-- 00_scope.md R12: the words of the literals and of `PI` and `TWO_PI`, in both widths. -/
def Obligations.LiteralPatterns : Prop :=
  (lit 1 10 : Word .b32) = 0x3DCCCCCD#32 ∧ (lit 1 100 : Word .b32) = 0x3C23D70A#32 ∧ (lit 3 10 : Word .b32) = 0x3E99999A#32 ∧
  (lit 1 10 : Word .b64) = 0x3FB999999999999A#64 ∧ (lit 1 100 : Word .b64) = 0x3F847AE147AE147B#64 ∧
  (lit 3 10 : Word .b64) = 0x3FD3333333333333#64 ∧
  pi .b32 = 0x40490FDB#32 ∧ pi .b64 = 0x400921FB54442D18#64 ∧
  twoPi .b32 = 0x40C90FDB#32 ∧ twoPi .b64 = 0x401921FB54442D18#64 ∧
  ∀ F : Fmt, valueUnits (twoPi F) = 2 * valueUnits (pi F) ∧
    (∀ n ∈ [0, 1, 2, 3, 4, 10, 20, 400, 440, 1000, 3600, 20000], valueUnits (lit n : Word F) = n * 2 ^ unitExp F) ∧
    valueUnits (lit 1 4 : Word F) * 4 = 2 ^ unitExp F ∧ valueUnits (lit 1 2 : Word F) * 2 = 2 ^ unitExp F

/-- 00_scope.md R13: `NUM.finite`, `NUM.bound`, `NUM.zero` and `NUM.nonfinite`, for every numerics record. -/
def Obligations.NumericsRecordProperties : Prop :=
  ∀ (F : Fmt) (N : Num F) (nan a : Word F), isNaN nan = true →
    (isFinite a = true → ∀ r ∈ [fsin N nan a, fcos N nan a, ftanh N nan a], inRange r (fneg (lit 1)) (lit 1) = true) ∧
    (fsin N nan 0 = 0 ∧ fcos N nan 0 = lit 1 ∧ ftanh N nan 0 = 0) ∧
    (isFinite a = false → isNaN (fsin N nan a) = true ∧ isNaN (fcos N nan a) = true) ∧
    (isNaN a = true → isNaN (ftanh N nan a) = true) ∧
    ftanh N nan (infinity false) = lit 1 ∧ ftanh N nan (infinity true) = fneg (lit 1)

/-- 00_scope.md R14: `isFinite` is false of the infinities and the NaNs and true of everything else, zeros and subnormals with it. -/
def Obligations.FiniteMeansNoInfinityAndNoNaN : Prop :=
  ∀ (F : Fmt) (w : Word F),
    (isFinite w = true ↔ isInf w = false ∧ isNaN w = false) ∧ (isFinite w = true ↔ expField w ≠ expAllOnes F) ∧
    ¬(isInf w = true ∧ isNaN w = true) ∧ (isZero w = true → isFinite w = true) ∧ (expField w = 0 → isFinite w = true)

/-- 00_scope.md R15: `clamp`, with its results at the infinities, at `-0` and at a NaN. -/
def Obligations.ClampResults : Prop :=
  ∀ (F : Fmt) (v lo hi : Word F), isNaN lo = false → isNaN hi = false → fge hi lo = true →
    (flt v lo = true → clamp v lo hi = lo) ∧ (fgt v hi = true → clamp v lo hi = hi) ∧
    (flt v lo = false → fgt v hi = false → clamp v lo hi = v) ∧
    (isNaN v = true → clamp v lo hi = v) ∧ (isNaN v = false → inRange (clamp v lo hi) lo hi = true) ∧
    (isFinite hi = true → clamp (infinity false) lo hi = hi) ∧ (isFinite lo = true → clamp (infinity true) lo hi = lo) ∧
    clamp (fneg 0) (lit 0) (lit 1 : Word F) = fneg 0

/-- 00_scope.md R17: a command's produced NaNs are quiet NaNs (the top bit of the fraction is set), and every quiet NaN is some
value of the free bits. -/
def Obligations.ProducedNaNsAreAnyQuietNaN : Prop :=
  (∀ (s : State) (site : Site), isNaN (s.env.nan site) = true ∧ 2 ^ (s.fw.fracBits - 1) ≤ fracField (s.env.nan site)) ∧
  ∀ (F : Fmt) (w : Word F), isNaN w = true → 2 ^ (F.fracBits - 1) ≤ fracField w → quietNaN w = w

/-- Presumed from IEEE 754, log 13, to which 00_scope.md R11 refers without listing these: the signs of zero sums, infinities against
words that are no NaN, and subtraction as the addition of the operand of opposite sign. -/
def Obligations.ZerosAndInfinitiesFollowIeee : Prop :=
  ∀ (F : Fmt) (nan a b : Word F),
    (isZero a = true → isZero b = true → isZero (fadd nan a b) = true ∧ signBit (fadd nan a b) = (signBit a && signBit b)) ∧
    (isFinite a = true → isFinite b = true → isZero a = false → valueUnits a + valueUnits b = 0 → fadd nan a b = 0) ∧
    (isInf a = true → isFinite b = true → fadd nan a b = a ∧ fadd nan b a = a) ∧
    (isInf a = true → fadd nan a a = a) ∧
    (isInf a = true → isNaN b = false → isZero b = false →
      fmul nan a b = infinity (signBit a != signBit b) ∧ fmul nan b a = infinity (signBit b != signBit a)) ∧
    (isInf a = true → isFinite b = true → fdiv nan a b = infinity (signBit a != signBit b)) ∧
    (isFinite a = true → isInf b = true →
      isZero (fdiv nan a b) = true ∧ signBit (fdiv nan a b) = (signBit a != signBit b)) ∧
    fsub nan a b = fadd nan a (fneg b) ∧ magBits (fneg b) = magBits b ∧ signBit (fneg b) = !signBit b
end

