-- ==== Sys2Proof/Laws/State.lean ====
section
/-!
SUPPORT. One lemma per field per update of the state and of its components, so that no later proof unfolds a record update.
-/

namespace Sys2Proof.Machine

variable {F : Fmt}

/-! ### The whole state -/

section
variable (s : State) (l : List (HostEvent s.fw)) (k : Status) (d : Word s.fw) (v : Voice s.fw) (c : Command s.fw)

@[simp] theorem withInput_fw : (s.withInput l).fw = s.fw := rfl
@[simp] theorem withInput_voice : (s.withInput l).voice = s.voice := rfl
@[simp] theorem withInput_ctor : (s.withInput l).ctor = s.ctor := rfl
@[simp] theorem withInput_input : (s.withInput l).input = l := rfl
@[simp] theorem withInput_output : (s.withInput l).output = s.output := rfl
@[simp] theorem withInput_draws : (s.withInput l).draws = s.draws := rfl
@[simp] theorem withInput_env : (s.withInput l).env = s.env := rfl

@[simp] theorem raise_fw : (s.raise k).fw = s.fw := rfl
@[simp] theorem raise_voice : (s.raise k).voice = s.voice := rfl
@[simp] theorem raise_ctor : (s.raise k).ctor = s.ctor := rfl
@[simp] theorem raise_input : (s.raise k).input = s.input := rfl
@[simp] theorem raise_output : (s.raise k).output = s.output ++ [⟨k, 0⟩] := rfl
@[simp] theorem raise_draws : (s.raise k).draws = s.draws := rfl

@[simp] theorem answer_fw : (s.answer d).fw = s.fw := rfl
@[simp] theorem answer_voice : (s.answer d).voice = s.voice := rfl
@[simp] theorem answer_ctor : (s.answer d).ctor = s.ctor := rfl
@[simp] theorem answer_input : (s.answer d).input = s.input := rfl
@[simp] theorem answer_output : (s.answer d).output = s.output ++ [⟨.ok, d⟩] := rfl
@[simp] theorem answer_draws : (s.answer d).draws = s.draws := rfl

@[simp] theorem finish_fw : (s.finish v d).fw = s.fw := rfl
@[simp] theorem finish_voice : (s.finish v d).voice = v := rfl
@[simp] theorem finish_ctor : (s.finish v d).ctor = s.ctor := rfl
@[simp] theorem finish_input : (s.finish v d).input = s.input := rfl
@[simp] theorem finish_output : (s.finish v d).output = s.output ++ [⟨.ok, d⟩] := rfl
@[simp] theorem finish_draws : (s.finish v d).draws = s.draws + 1 := rfl

@[simp] theorem construct_fw : (s.construct v).fw = s.fw := rfl
@[simp] theorem construct_voice : (s.construct v).voice = v := rfl
@[simp] theorem construct_ctor : (s.construct v).ctor = true := rfl
@[simp] theorem construct_input : (s.construct v).input = s.input := rfl
@[simp] theorem construct_output : (s.construct v).output = s.output ++ [⟨.ok, 0⟩] := rfl
@[simp] theorem construct_draws : (s.construct v).draws = s.draws + 1 := rfl

@[simp] theorem powerOn_fw : s.powerOn.fw = s.fw := rfl
@[simp] theorem powerOn_voice :
    s.powerOn.voice = voiceOfCells (Config.powerOnCell s.fw s.draws) (Config.powerOnShape s.draws) := rfl
@[simp] theorem powerOn_ctor : s.powerOn.ctor = false := rfl
@[simp] theorem powerOn_input : s.powerOn.input = s.input := rfl
@[simp] theorem powerOn_output : s.powerOn.output = s.output := rfl
@[simp] theorem powerOn_draws : s.powerOn.draws = s.draws + 1 := rfl

@[simp] theorem issue_fw : (s.issue c).fw = s.fw := rfl
@[simp] theorem issue_voice : (s.issue c).voice = s.voice := rfl
@[simp] theorem issue_ctor : (s.issue c).ctor = s.ctor := rfl
@[simp] theorem issue_input : (s.issue c).input = .command c :: s.input := rfl
@[simp] theorem issue_output : (s.issue c).output = s.output := rfl
@[simp] theorem issue_draws : (s.issue c).draws = s.draws := rfl

theorem env_eq : s.env = drawEnv s.fw s.draws := rfl
end

/-! ### The components -/

section
variable (E : Env F) (id : OscId) (sr f r x y q : Word F) (o : Osc F) (m : Mixed F) (l : ModOsc F) (b : Biquad F) (a : Vca F)
  (sh : Shape)

@[simp] theorem oscNew_freq : (oscNew f).freq = f := rfl
@[simp] theorem oscNew_phase : (oscNew f).phase = 0 := rfl
@[simp] theorem oscAdvance_freq : (oscAdvance E id sr o).freq = o.freq := rfl

@[simp] theorem mixedNew_sin : (mixedNew f r).sin = oscNew f := rfl
@[simp] theorem mixedNew_sqr : (mixedNew f r).sqr = oscNew f := rfl
@[simp] theorem mixedNew_mix : (mixedNew f r).mix = r := rfl
@[simp] theorem mixedNext_sin : (mixedNext E sr m).2.sin = oscAdvance E .sine sr m.sin := rfl
@[simp] theorem mixedNext_sqr : (mixedNext E sr m).2.sqr = oscAdvance E .square sr m.sqr := rfl
@[simp] theorem mixedNext_mix : (mixedNext E sr m).2.mix = m.mix := rfl
@[simp] theorem mixedNext_sample :
    (mixedNext E sr m).1 = crossfade E m.mix (sineOf E .sine m.sin.phase) (squareOf m.sqr.phase) := rfl
@[simp] theorem mixedSetFrequency_sin : (mixedSetFrequency f m).sin = oscNew f := rfl
@[simp] theorem mixedSetFrequency_sqr : (mixedSetFrequency f m).sqr = oscNew f := rfl
@[simp] theorem mixedSetFrequency_mix : (mixedSetFrequency f m).mix = m.mix := rfl
@[simp] theorem mixedSetMixRatio_sin : (mixedSetMixRatio r m).sin = oscNew m.sin.freq := rfl
@[simp] theorem mixedSetMixRatio_sqr : (mixedSetMixRatio r m).sqr = oscNew m.sqr.freq := rfl
@[simp] theorem mixedSetMixRatio_mix : (mixedSetMixRatio r m).mix = r := rfl

@[simp] theorem modOscNew_osc : (modOscNew f sh).osc = oscNew f := rfl
@[simp] theorem modOscNew_shape : (modOscNew f sh).shape = sh := rfl
@[simp] theorem modOscNext_osc : (modOscNext E sr l).2.osc = oscAdvance E .lfo sr l.osc := rfl
@[simp] theorem modOscNext_shape : (modOscNext E sr l).2.shape = l.shape := rfl
@[simp] theorem modOscNext_value : (modOscNext E sr l).1 = shapeOf E l.shape l.osc.phase := rfl

@[simp] theorem biquadRecompute_cutoff : (biquadRecompute E sr b).cutoff = b.cutoff := rfl
@[simp] theorem biquadRecompute_res : (biquadRecompute E sr b).res = b.res := rfl
@[simp] theorem biquadRecompute_x1 : (biquadRecompute E sr b).x1 = b.x1 := rfl
@[simp] theorem biquadRecompute_x2 : (biquadRecompute E sr b).x2 = b.x2 := rfl
@[simp] theorem biquadRecompute_y1 : (biquadRecompute E sr b).y1 = b.y1 := rfl
@[simp] theorem biquadRecompute_y2 : (biquadRecompute E sr b).y2 = b.y2 := rfl

/-- The coefficients depend on the cutoff, the resonance and `SR` alone, so recomputing twice is recomputing once. -/
theorem biquadRecompute_idem : biquadRecompute E sr (biquadRecompute E sr b) = biquadRecompute E sr b := rfl

@[simp] theorem biquadClear_cutoff : (biquadClear b).cutoff = b.cutoff := rfl
@[simp] theorem biquadClear_res : (biquadClear b).res = b.res := rfl
@[simp] theorem biquadClear_a0 : (biquadClear b).a0 = b.a0 := rfl
@[simp] theorem biquadClear_a1 : (biquadClear b).a1 = b.a1 := rfl
@[simp] theorem biquadClear_a2 : (biquadClear b).a2 = b.a2 := rfl
@[simp] theorem biquadClear_b1 : (biquadClear b).b1 = b.b1 := rfl
@[simp] theorem biquadClear_b2 : (biquadClear b).b2 = b.b2 := rfl
@[simp] theorem biquadClear_x1 : (biquadClear b).x1 = 0 := rfl
@[simp] theorem biquadClear_x2 : (biquadClear b).x2 = 0 := rfl
@[simp] theorem biquadClear_y1 : (biquadClear b).y1 = 0 := rfl
@[simp] theorem biquadClear_y2 : (biquadClear b).y2 = 0 := rfl

@[simp] theorem biquadShift_cutoff : (biquadShift b x y).cutoff = b.cutoff := rfl
@[simp] theorem biquadShift_res : (biquadShift b x y).res = b.res := rfl
@[simp] theorem biquadShift_a0 : (biquadShift b x y).a0 = b.a0 := rfl
@[simp] theorem biquadShift_a1 : (biquadShift b x y).a1 = b.a1 := rfl
@[simp] theorem biquadShift_a2 : (biquadShift b x y).a2 = b.a2 := rfl
@[simp] theorem biquadShift_b1 : (biquadShift b x y).b1 = b.b1 := rfl
@[simp] theorem biquadShift_b2 : (biquadShift b x y).b2 = b.b2 := rfl
@[simp] theorem biquadShift_x1 : (biquadShift b x y).x1 = x := rfl
@[simp] theorem biquadShift_x2 : (biquadShift b x y).x2 = b.x1 := rfl
@[simp] theorem biquadShift_y1 : (biquadShift b x y).y1 = y := rfl
@[simp] theorem biquadShift_y2 : (biquadShift b x y).y2 = b.y1 := rfl

@[simp] theorem biquadNew_cutoff :
    (biquadNew E sr f q).cutoff = clamp f (lit 20) (fdiv (E.nan .halfNew) sr (lit 2)) := rfl
@[simp] theorem biquadNew_res : (biquadNew E sr f q).res = clamp q (lit 1 10) (lit 20) := rfl
@[simp] theorem biquadNew_x1 : (biquadNew E sr f q).x1 = 0 := rfl
@[simp] theorem biquadNew_x2 : (biquadNew E sr f q).x2 = 0 := rfl
@[simp] theorem biquadNew_y1 : (biquadNew E sr f q).y1 = 0 := rfl
@[simp] theorem biquadNew_y2 : (biquadNew E sr f q).y2 = 0 := rfl

@[simp] theorem biquadSetModulation_cutoff : (biquadSetModulation E sr x b).cutoff =
    clamp (modulatedCutoff E x) (lit 20) (fdiv (E.nan .halfMod) sr (lit 2)) := rfl
@[simp] theorem biquadSetModulation_res : (biquadSetModulation E sr x b).res = b.res := rfl
@[simp] theorem biquadSetModulation_x1 : (biquadSetModulation E sr x b).x1 = b.x1 := rfl
@[simp] theorem biquadSetModulation_x2 : (biquadSetModulation E sr x b).x2 = b.x2 := rfl
@[simp] theorem biquadSetModulation_y1 : (biquadSetModulation E sr x b).y1 = b.y1 := rfl
@[simp] theorem biquadSetModulation_y2 : (biquadSetModulation E sr x b).y2 = b.y2 := rfl

@[simp] theorem vcaNew_gain : (vcaNew f q).gain = f := rfl
@[simp] theorem vcaNew_amt : (vcaNew f q).amt = q := rfl
@[simp] theorem vcaNew_cur : (vcaNew f q).cur = lit 1 := rfl
@[simp] theorem vcaSetModulation_gain : (vcaSetModulation E x a).gain = a.gain := rfl
@[simp] theorem vcaSetModulation_amt : (vcaSetModulation E x a).amt = a.amt := rfl
end

/-! ### The Voice -/

section
variable (E : Env F) (x : Word F) (v : Voice F)

@[simp] theorem voiceProcess_sr : (voiceProcess E v).2.sr = v.sr := rfl
@[simp] theorem voiceProcess_osc : (voiceProcess E v).2.osc = (mixedNext E v.sr v.osc).2 := rfl
@[simp] theorem voiceProcess_lfo : (voiceProcess E v).2.lfo = (modOscNext E v.sr v.lfo).2 := rfl
@[simp] theorem voiceProcess_vca : (voiceProcess E v).2.vca = v.vca := rfl

@[simp] theorem voiceSetFrequency_sr : (voiceSetFrequency x v).sr = v.sr := rfl
@[simp] theorem voiceSetFrequency_lfo : (voiceSetFrequency x v).lfo = v.lfo := rfl
@[simp] theorem voiceSetFrequency_flt : (voiceSetFrequency x v).flt = v.flt := rfl
@[simp] theorem voiceSetFrequency_vca : (voiceSetFrequency x v).vca = v.vca := rfl
@[simp] theorem voiceSetFrequency_osc :
    (voiceSetFrequency x v).osc = mixedSetFrequency (clamp x (lit 20) (lit 20000)) v.osc := rfl

@[simp] theorem voiceSetCutoff_sr : (voiceSetCutoff E x v).sr = v.sr := rfl
@[simp] theorem voiceSetCutoff_osc : (voiceSetCutoff E x v).osc = v.osc := rfl
@[simp] theorem voiceSetCutoff_lfo : (voiceSetCutoff E x v).lfo = v.lfo := rfl
@[simp] theorem voiceSetCutoff_vca : (voiceSetCutoff E x v).vca = v.vca := rfl
@[simp] theorem voiceSetCutoff_flt : (voiceSetCutoff E x v).flt =
    biquadNew E v.sr (clamp x (lit 20) (fdiv (E.nan .halfSetc) v.sr (lit 2))) v.flt.res := rfl

@[simp] theorem voiceSetResonance_sr : (voiceSetResonance E x v).sr = v.sr := rfl
@[simp] theorem voiceSetResonance_osc : (voiceSetResonance E x v).osc = v.osc := rfl
@[simp] theorem voiceSetResonance_lfo : (voiceSetResonance E x v).lfo = v.lfo := rfl
@[simp] theorem voiceSetResonance_vca : (voiceSetResonance E x v).vca = v.vca := rfl
@[simp] theorem voiceSetResonance_flt :
    (voiceSetResonance E x v).flt = biquadNew E v.sr v.flt.cutoff (clamp x (lit 1 10) (lit 10)) := rfl

@[simp] theorem voiceSetLfoRate_sr : (voiceSetLfoRate x v).sr = v.sr := rfl
@[simp] theorem voiceSetLfoRate_osc : (voiceSetLfoRate x v).osc = v.osc := rfl
@[simp] theorem voiceSetLfoRate_flt : (voiceSetLfoRate x v).flt = v.flt := rfl
@[simp] theorem voiceSetLfoRate_vca : (voiceSetLfoRate x v).vca = v.vca := rfl
@[simp] theorem voiceSetLfoRate_lfo :
    (voiceSetLfoRate x v).lfo = modOscNew (clamp x (lit 1 100) (lit 20)) v.lfo.shape := rfl

@[simp] theorem voiceSetMixRatio_sr : (voiceSetMixRatio x v).sr = v.sr := rfl
@[simp] theorem voiceSetMixRatio_lfo : (voiceSetMixRatio x v).lfo = v.lfo := rfl
@[simp] theorem voiceSetMixRatio_flt : (voiceSetMixRatio x v).flt = v.flt := rfl
@[simp] theorem voiceSetMixRatio_vca : (voiceSetMixRatio x v).vca = v.vca := rfl
@[simp] theorem voiceSetMixRatio_osc :
    (voiceSetMixRatio x v).osc = mixedSetMixRatio (clamp x (lit 0) (lit 1)) v.osc := rfl
end

end Sys2Proof.Machine
end

