-- ==== Sys2Proof/Laws/Commands.lean ====
section
/-!
SUPPORT. Everything a step can do, said once: what `exec` answers for each command, on each side of its checks, and the cases of
`step`. Later proofs cite these and never unfold a meaning.
-/

namespace Sys2Proof.Machine

/-! ### Each command -/

theorem exec_init_ok {sr : BitVec 64} {s : State} (h : initOperandOk (operand s.fw sr) = true) :
    exec (.init sr) s = .next (s.construct (voiceNew s.env (configParams s.fw) (operand s.fw sr))) := if_pos h

theorem exec_init_badArg {sr : BitVec 64} {s : State} (h : initOperandOk (operand s.fw sr) = false) :
    exec (.init sr) s = .next (s.raise .badArg) := if_neg (by simp [h])

theorem exec_step_ok {s : State} (h : s.ctor = true) :
    exec .step s = .next (s.finish (voiceProcess s.env s.voice).2 (voiceProcess s.env s.voice).1) := if_pos h

theorem exec_rd_ok {c : Cell} {s : State} (h : s.ctor = true) :
    exec (.rd c) s = .next (s.answer (voiceRead s.voice c)) := if_pos h

theorem setParameter_ok {v : BitVec 64} {s : State} {f : Word s.fw → Voice s.fw} (h : s.ctor = true)
    (hv : isNaN (operand s.fw v) = false) : setParameter v s f = .next (s.finish (f (operand s.fw v)) 0) := by
  simp [setParameter, whenConstructed, setterOperandOk, h, hv]

theorem setParameter_badArg {v : BitVec 64} {s : State} {f : Word s.fw → Voice s.fw} (h : s.ctor = true)
    (hv : isNaN (operand s.fw v) = true) : setParameter v s f = .next (s.raise .badArg) := by
  simp [setParameter, whenConstructed, setterOperandOk, h, hv]

/-- No command but `INIT` is carried out before a Voice exists. -/
theorem exec_notReady {i : Instr} {s : State} (h : s.ctor = false) (hi : ∀ sr, i ≠ .init sr) :
    exec i s = .next (s.raise .notReady) := by
  have hw : ∀ k, whenConstructed s k = .next (s.raise .notReady) := fun k => if_neg (by simp [h])
  cases i with
  | init sr => exact absurd rfl (hi sr)
  | step => exact hw _
  | setf v => exact hw _
  | setc v => exact hw _
  | setq v => exact hw _
  | setl v => exact hw _
  | setm v => exact hw _
  | rd c => exact hw _

/-- The operation a setter applies to its operand. -/
def setterOperation (s : State) : Instr → Option (BitVec 64 × (Word s.fw → Voice s.fw))
  | .setf v => some (v, fun x => voiceSetFrequency x s.voice)
  | .setc v => some (v, fun x => voiceSetCutoff s.env x s.voice)
  | .setq v => some (v, fun x => voiceSetResonance s.env x s.voice)
  | .setl v => some (v, fun x => voiceSetLfoRate x s.voice)
  | .setm v => some (v, fun x => voiceSetMixRatio x s.voice)
  | .init _ | .step | .rd _ => none

theorem exec_setter {i : Instr} {s : State} {v : BitVec 64} {f : Word s.fw → Voice s.fw}
    (h : setterOperation s i = some (v, f)) : exec i s = setParameter v s f := by
  cases i <;> simp [setterOperation] at h <;> obtain ⟨rfl, rfl⟩ := h <;> rfl

/-- The kinds of next state that `exec i s` can answer: a rejection, a read, one sample, a setter's Voice, or a new Voice. -/
inductive Answer (i : Instr) (s : State) : State → Prop where
  | rejected (k : Status) : Answer i s (s.raise k)
  | read (c : Cell) (hi : i = .rd c) (ready : s.ctor = true) : Answer i s (s.answer (voiceRead s.voice c))
  | sample (hi : i = .step) (ready : s.ctor = true) :
      Answer i s (s.finish (voiceProcess s.env s.voice).2 (voiceProcess s.env s.voice).1)
  | set (v : BitVec 64) (f : Word s.fw → Voice s.fw) (hi : setterOperation s i = some (v, f)) (ready : s.ctor = true)
      (ok : isNaN (operand s.fw v) = false) : Answer i s (s.finish (f (operand s.fw v)) 0)
  | constructed (sr : BitVec 64) (hi : i = .init sr) (ok : initOperandOk (operand s.fw sr) = true) :
      Answer i s (s.construct (voiceNew s.env (configParams s.fw) (operand s.fw sr)))

theorem exec_setter_answer {i : Instr} {s : State} {v : BitVec 64} {f : Word s.fw → Voice s.fw}
    (h : setterOperation s i = some (v, f)) : ∃ t, exec i s = .next t ∧ Answer i s t := by
  rcases hc : s.ctor with _ | _
  · exact ⟨_, exec_notReady hc (by rintro sr rfl; simp [setterOperation] at h), .rejected _⟩
  · rw [exec_setter h]
    rcases hn : isNaN (operand s.fw v) with _ | _
    · exact ⟨_, setParameter_ok hc hn, .set v f h hc hn⟩
    · exact ⟨_, setParameter_badArg hc hn, .rejected _⟩

/-- Every command answers a next state, of one of those kinds. -/
theorem exec_answers (i : Instr) (s : State) : ∃ t, exec i s = .next t ∧ Answer i s t := by
  cases i with
  | init sr =>
    rcases h : initOperandOk (operand s.fw sr) with _ | _
    · exact ⟨_, exec_init_badArg h, .rejected _⟩
    · exact ⟨_, exec_init_ok h, .constructed sr rfl h⟩
  | step =>
    rcases hc : s.ctor with _ | _
    · exact ⟨_, exec_notReady hc (by simp), .rejected _⟩
    · exact ⟨_, exec_step_ok hc, .sample rfl hc⟩
  | rd c =>
    rcases hc : s.ctor with _ | _
    · exact ⟨_, exec_notReady hc (by simp), .rejected _⟩
    · exact ⟨_, exec_rd_ok hc, .read c rfl hc⟩
  | setf v => exact exec_setter_answer rfl
  | setc v => exact exec_setter_answer rfl
  | setq v => exact exec_setter_answer rfl
  | setl v => exact exec_setter_answer rfl
  | setm v => exact exec_setter_answer rfl

/-! ### Each setter, on each side of its operand check -/

section
variable {v : BitVec 64} {s : State} (h : s.ctor = true)
include h

theorem exec_setf_ok (hv : isNaN (operand s.fw v) = false) :
    exec (.setf v) s = .next (s.finish (voiceSetFrequency (operand s.fw v) s.voice) 0) :=
  setParameter_ok (f := fun x => voiceSetFrequency x s.voice) h hv

theorem exec_setf_badArg (hv : isNaN (operand s.fw v) = true) : exec (.setf v) s = .next (s.raise .badArg) :=
  setParameter_badArg (f := fun x => voiceSetFrequency x s.voice) h hv

theorem exec_setc_ok (hv : isNaN (operand s.fw v) = false) :
    exec (.setc v) s = .next (s.finish (voiceSetCutoff s.env (operand s.fw v) s.voice) 0) :=
  setParameter_ok (f := fun x => voiceSetCutoff s.env x s.voice) h hv

theorem exec_setc_badArg (hv : isNaN (operand s.fw v) = true) : exec (.setc v) s = .next (s.raise .badArg) :=
  setParameter_badArg (f := fun x => voiceSetCutoff s.env x s.voice) h hv

theorem exec_setq_ok (hv : isNaN (operand s.fw v) = false) :
    exec (.setq v) s = .next (s.finish (voiceSetResonance s.env (operand s.fw v) s.voice) 0) :=
  setParameter_ok (f := fun x => voiceSetResonance s.env x s.voice) h hv

theorem exec_setq_badArg (hv : isNaN (operand s.fw v) = true) : exec (.setq v) s = .next (s.raise .badArg) :=
  setParameter_badArg (f := fun x => voiceSetResonance s.env x s.voice) h hv

theorem exec_setl_ok (hv : isNaN (operand s.fw v) = false) :
    exec (.setl v) s = .next (s.finish (voiceSetLfoRate (operand s.fw v) s.voice) 0) :=
  setParameter_ok (f := fun x => voiceSetLfoRate x s.voice) h hv

theorem exec_setl_badArg (hv : isNaN (operand s.fw v) = true) : exec (.setl v) s = .next (s.raise .badArg) :=
  setParameter_badArg (f := fun x => voiceSetLfoRate x s.voice) h hv

theorem exec_setm_ok (hv : isNaN (operand s.fw v) = false) :
    exec (.setm v) s = .next (s.finish (voiceSetMixRatio (operand s.fw v) s.voice) 0) :=
  setParameter_ok (f := fun x => voiceSetMixRatio x s.voice) h hv

theorem exec_setm_badArg (hv : isNaN (operand s.fw v) = true) : exec (.setm v) s = .next (s.raise .badArg) :=
  setParameter_badArg (f := fun x => voiceSetMixRatio x s.voice) h hv

end

/-! ### The cases of a step -/

theorem step_idle {s : State} (h : s.input = []) : step s = .next s := by simp [step, h]

theorem step_rst {s : State} {rest : List (HostEvent s.fw)} (h : s.input = .rst :: rest) :
    step s = .next (s.withInput rest).powerOn := by simp [step, h]

theorem step_command {s : State} {c : Command s.fw} {rest : List (HostEvent s.fw)} {i : Instr}
    (h : s.input = .command c :: rest) (hd : decode c = .ok i) : step s = exec i (s.withInput rest) := by
  simp [step, h, hd]

theorem step_illegal {s : State} {c : Command s.fw} {rest : List (HostEvent s.fw)} {r : Reject}
    (h : s.input = .command c :: rest) (hd : decode c = .error r) :
    step s = .next ((s.withInput rest).raise .illegal) := by
  simp [step, h, hd, rejectIllegal]

/-- Everything a step can do. -/
inductive StepCase (s : State) : State → Prop where
  | idle (h : s.input = []) : StepCase s s
  | rst (rest : List (HostEvent s.fw)) (h : s.input = .rst :: rest) : StepCase s (s.withInput rest).powerOn
  | illegal (c : Command s.fw) (rest : List (HostEvent s.fw)) (r : Reject) (h : s.input = .command c :: rest)
      (hd : decode c = .error r) : StepCase s ((s.withInput rest).raise .illegal)
  | command (c : Command s.fw) (rest : List (HostEvent s.fw)) (i : Instr) (t : State) (h : s.input = .command c :: rest)
      (hd : decode c = .ok i) (he : exec i (s.withInput rest) = .next t) (ha : Answer i (s.withInput rest) t) : StepCase s t

/-- Every step answers a next state, by one of those cases (00_scope.md R19). -/
theorem step_cases (s : State) : ∃ t, step s = .next t ∧ StepCase s t := by
  rcases hi : s.input with _ | ⟨e, rest⟩
  · exact ⟨s, step_idle hi, .idle hi⟩
  · cases e with
    | rst => exact ⟨_, step_rst hi, .rst rest hi⟩
    | command c =>
      rcases hd : decode c with r | i
      · exact ⟨_, step_illegal hi hd, .illegal c rest r hi hd⟩
      · obtain ⟨t, he, ha⟩ := exec_answers i (s.withInput rest)
        exact ⟨t, (step_command hi hd).trans he, .command c rest i t hi hd he ha⟩

/-- The case of a step that is known to have been taken. -/
theorem step_case {s t : State} (h : step s = .next t) : StepCase s t := by
  obtain ⟨t', h', hc⟩ := step_cases s
  rw [h] at h'
  cases h'
  exact hc

/-- A run past a step that is known. -/
theorem run_next {s t : State} (k : Nat) (h : step s = .next t) : Sys2Proof.core.run (k + 1) s = Sys2Proof.core.run k t := by
  have h' : Sys2Proof.core.step s = .next t := h
  have e := Host.Core.run.eq_2 Sys2Proof.core s k
  rw [h'] at e
  exact e

/-- Every answer keeps the build and the host's remaining events and adds one response. -/
theorem answer_form {i : Instr} {s t : State} (h : Answer i s t) :
    ∃ v b k d n, t = ⟨s.fw, v, b, s.input, s.output ++ [⟨k, d⟩], n⟩ := by
  cases h with
  | rejected k => exact ⟨_, _, _, _, _, rfl⟩
  | read => exact ⟨_, _, _, _, _, rfl⟩
  | sample => exact ⟨_, _, _, _, _, rfl⟩
  | set => exact ⟨_, _, _, _, _, rfl⟩
  | constructed => exact ⟨_, _, _, _, _, rfl⟩

end Sys2Proof.Machine
end

