-- ==== Sys2Proof/Laws/Rounding.lean ====
section
/-!
SUPPORT. The rounding of a ratio of whole units to a word, said once: it is monotone, it gives an exact value back, and no
representable magnitude is nearer (00_scope.md R11). Everything about the arithmetic primitives rests on these.
-/

namespace Sys2Proof.Machine

/-! ### Rounding to a whole number -/

theorem roundHalfEven_cases (n d : Nat) :
    (roundHalfEven n d = n / d ∧ 2 * (n % d) ≤ d) ∨ (roundHalfEven n d = n / d + 1 ∧ d ≤ 2 * (n % d)) := by
  unfold roundHalfEven
  split
  · rename_i h; right; exact ⟨rfl, by omega⟩
  · rename_i h; left; exact ⟨rfl, by omega⟩

theorem roundHalfEven_le_of_le {n d c : Nat} (hd : 0 < d) (h : n ≤ c * d) : roundHalfEven n d ≤ c := by
  have hdm := Nat.div_add_mod n d
  have hlt := Nat.mod_lt n hd
  rcases roundHalfEven_cases n d with ⟨e, _⟩ | ⟨e, h2⟩
  · rw [e]; exact Nat.div_le_of_le_mul (by rw [Nat.mul_comm]; exact h)
  · rw [e]
    by_contra hc
    have hc' : c ≤ n / d := by omega
    have := Nat.mul_le_mul_left d hc'
    have hcd : d * c = c * d := Nat.mul_comm _ _
    omega

theorem le_roundHalfEven_of_le {n d c : Nat} (hd : 0 < d) (h : c * d ≤ n) : c ≤ roundHalfEven n d := by
  have hq : c ≤ n / d := (Nat.le_div_iff_mul_le hd).2 h
  rcases roundHalfEven_cases n d with ⟨e, _⟩ | ⟨e, _⟩ <;> omega

theorem roundHalfEven_exact {d c : Nat} (hd : 0 < d) : roundHalfEven (c * d) d = c :=
  Nat.le_antisymm (roundHalfEven_le_of_le hd le_rfl) (le_roundHalfEven_of_le hd le_rfl)

theorem roundHalfEven_mono {n₁ d₁ n₂ d₂ : Nat} (h₁ : 0 < d₁) (h₂ : 0 < d₂) (h : n₁ * d₂ ≤ n₂ * d₁) :
    roundHalfEven n₁ d₁ ≤ roundHalfEven n₂ d₂ := by
  have e₁ := Nat.div_add_mod n₁ d₁
  have e₂ := Nat.div_add_mod n₂ d₂
  have hlt₁ := Nat.mod_lt n₁ h₁
  have hlt₂ := Nat.mod_lt n₂ h₂
  set q₁ := n₁ / d₁
  set q₂ := n₂ / d₂
  set r₁ := n₁ % d₁
  set r₂ := n₂ % d₂
  have hq : q₁ ≤ q₂ := by
    by_contra hc
    have hc' : q₂ + 1 ≤ q₁ := by omega
    have a := Nat.mul_le_mul_left (d₁ * d₂) hc'
    have b : r₂ * d₁ < d₂ * d₁ := Nat.mul_lt_mul_of_pos_right hlt₂ h₁
    nlinarith
  rcases Nat.lt_or_ge q₁ q₂ with hlt | hge
  · rcases roundHalfEven_cases n₁ d₁ with ⟨a, _⟩ | ⟨a, _⟩ <;>
      rcases roundHalfEven_cases n₂ d₂ with ⟨b, _⟩ | ⟨b, _⟩ <;> omega
  · have hqe : q₁ = q₂ := by omega
    have hr : r₁ * d₂ ≤ r₂ * d₁ := by rw [← e₁, ← e₂, hqe] at h; nlinarith
    change (if d₁ < 2 * r₁ ∨ (d₁ = 2 * r₁ ∧ q₁ % 2 = 1) then q₁ + 1 else q₁) ≤
      (if d₂ < 2 * r₂ ∨ (d₂ = 2 * r₂ ∧ q₂ % 2 = 1) then q₂ + 1 else q₂)
    have up : (d₁ < 2 * r₁ → d₂ < 2 * r₂) ∧ (d₁ = 2 * r₁ → d₂ ≤ 2 * r₂) := by
      constructor
      · intro hu
        by_contra hn
        have a := Nat.mul_lt_mul_of_pos_right hu h₂
        have b := Nat.mul_le_mul_right d₁ (Nat.le_of_not_lt hn)
        nlinarith
      · intro hu
        by_contra hn
        have b := Nat.mul_lt_mul_of_pos_right (Nat.lt_of_not_le hn) h₁
        have a : d₁ * d₂ = 2 * r₁ * d₂ := by rw [← hu]
        nlinarith
    split <;> split <;> omega

/-- Twice the distance from `n / d` to the rounded value is at most one place. -/
theorem roundHalfEven_near (n d : Nat) (hd : 0 < d) (c : Nat) :
    |(roundHalfEven n d * d : Int) - n| ≤ |(c * d : Int) - n| := by
  have e := Nat.div_add_mod n d
  have hlt := Nat.mod_lt n hd
  rcases roundHalfEven_cases n d with ⟨a, h⟩ | ⟨a, h⟩ <;> rw [a] <;>
    rcases Nat.lt_or_ge (n / d) c with hc | hc
  · have := Nat.mul_le_mul_right d (show n / d + 1 ≤ c from hc)
    rw [abs_le']
    have e' : (n : Int) = d * (n / d : Nat) + (n % d : Nat) := by exact_mod_cast e.symm
    have t' : ((n / d : Nat) + 1 : Int) * d ≤ c * d := by exact_mod_cast this
    have l' : ((n % d : Nat) : Int) < d := by exact_mod_cast hlt
    have h' : 2 * ((n % d : Nat) : Int) ≤ d := by exact_mod_cast h
    have p : (0 : Int) ≤ ((n % d : Nat) : Int) := by positivity
    constructor
    · refine le_trans ?_ (abs_nonneg _); nlinarith
    · refine le_trans ?_ (le_abs_self _); nlinarith
  · have := Nat.mul_le_mul_right d hc
    have e' : (n : Int) = d * (n / d : Nat) + (n % d : Nat) := by exact_mod_cast e.symm
    have t' : (c : Int) * d ≤ (n / d : Nat) * d := by exact_mod_cast this
    have p : (0 : Int) ≤ ((n % d : Nat) : Int) := by positivity
    rw [abs_le']
    constructor
    · refine le_trans ?_ (abs_nonneg _); nlinarith
    · refine le_trans ?_ (neg_le_abs _); nlinarith
  · have := Nat.mul_le_mul_right d (show n / d + 1 ≤ c from hc)
    have e' : (n : Int) = d * (n / d : Nat) + (n % d : Nat) := by exact_mod_cast e.symm
    have t' : ((n / d : Nat) + 1 : Int) * d ≤ c * d := by exact_mod_cast this
    have l' : ((n % d : Nat) : Int) < d := by exact_mod_cast hlt
    rw [abs_le']
    push_cast
    constructor
    · refine le_trans ?_ (le_abs_self _); nlinarith
    · refine le_trans ?_ (abs_nonneg _); nlinarith
  · have := Nat.mul_le_mul_right d hc
    have e' : (n : Int) = d * (n / d : Nat) + (n % d : Nat) := by exact_mod_cast e.symm
    have t' : (c : Int) * d ≤ (n / d : Nat) * d := by exact_mod_cast this
    have l' : ((n % d : Nat) : Int) < d := by exact_mod_cast hlt
    have h' : (d : Int) ≤ 2 * ((n % d : Nat) : Int) := by exact_mod_cast h
    rw [abs_le']
    push_cast
    constructor
    · refine le_trans ?_ (neg_le_abs _); nlinarith
    · refine le_trans ?_ (abs_nonneg _); nlinarith

/-! ### Magnitudes -/

variable {F : Fmt}

theorem magUnits_of_lt {m : Nat} (h : m < 2 ^ F.fracBits) : magUnits F m = m := by
  simp [magUnits, Nat.div_eq_of_lt h, Nat.mod_eq_of_lt h]

/-- A magnitude written by its exponent above the subnormals and its significand: `e * 2^f + c` stands for `c * 2^e`. -/
theorem magUnits_split {e c : Nat} (hc : c < 2 ^ (F.fracBits + 1)) (he : e = 0 ∨ 2 ^ F.fracBits ≤ c) :
    magUnits F (e * 2 ^ F.fracBits + c) = c * 2 ^ e := by
  have hp : 0 < 2 ^ F.fracBits := by positivity
  rcases Nat.lt_or_ge c (2 ^ F.fracBits) with hlt | hge
  · have h0 : e = 0 := by omega
    subst h0; simpa using magUnits_of_lt hlt
  · obtain ⟨r, rfl⟩ := Nat.exists_eq_add_of_le hge
    have hr : r < 2 ^ F.fracBits := by rw [pow_succ] at hc; omega
    have e1 : e * 2 ^ F.fracBits + (2 ^ F.fracBits + r) = r + 2 ^ F.fracBits * (e + 1) := by ring
    have hd : (r + 2 ^ F.fracBits * (e + 1)) / 2 ^ F.fracBits = e + 1 := by
      rw [Nat.add_mul_div_left _ _ hp, Nat.div_eq_of_lt hr]; omega
    have hm : (r + 2 ^ F.fracBits * (e + 1)) % 2 ^ F.fracBits = r := by
      rw [Nat.add_mul_mod_self_left, Nat.mod_eq_of_lt hr]
    simp only [magUnits, e1, hd, hm]
    simp

/-- Every magnitude has that form. -/
theorem exists_split (F : Fmt) (m : Nat) :
    ∃ e c, m = e * 2 ^ F.fracBits + c ∧ c < 2 ^ (F.fracBits + 1) ∧ (e = 0 ∨ 2 ^ F.fracBits ≤ c) := by
  have hp : 0 < 2 ^ F.fracBits := by positivity
  have hdm := Nat.div_add_mod m (2 ^ F.fracBits)
  have hlt := Nat.mod_lt m hp
  rcases Nat.eq_zero_or_pos (m / 2 ^ F.fracBits) with h0 | h0
  · refine ⟨0, m % 2 ^ F.fracBits, ?_, by rw [pow_succ]; omega, .inl rfl⟩
    rw [h0] at hdm; omega
  · refine ⟨m / 2 ^ F.fracBits - 1, 2 ^ F.fracBits + m % 2 ^ F.fracBits, ?_, by rw [pow_succ]; omega, .inr (by omega)⟩
    obtain ⟨k, hk⟩ := Nat.exists_eq_add_of_lt h0
    rw [hk] at hdm ⊢
    simp only [Nat.zero_add, Nat.add_sub_cancel] at *
    nlinarith

/-- The kept significand of a value of `q` whole units has at most `fracBits + 1` bits, and exactly that many once a bit drops. -/
theorem dropBits_bounds (F : Fmt) (q : Nat) :
    q < 2 ^ (F.fracBits + 1 + dropBits F q) ∧ (dropBits F q = 0 ∨ 2 ^ (F.fracBits + dropBits F q) ≤ q) := by
  unfold dropBits
  rcases Nat.eq_zero_or_pos q with rfl | hq
  · simp
  · have h1 : q < 2 ^ (Nat.log2 q + 1) := Nat.lt_log2_self
    have h2 : 2 ^ Nat.log2 q ≤ q := Nat.log2_self_le (by omega)
    constructor
    · exact lt_of_lt_of_le h1 (Nat.pow_le_pow_right (by omega) (by omega))
    · rcases Nat.lt_or_ge F.fracBits (Nat.log2 q) with h | h
      · right; rwa [Nat.add_sub_cancel' h.le]
      · left; omega

theorem dropBits_mono {p q : Nat} (h : p ≤ q) : dropBits F p ≤ dropBits F q := by
  unfold dropBits
  have : Nat.log2 p ≤ Nat.log2 q := by
    rcases Nat.eq_zero_or_pos p with rfl | hp
    · simp
    · rw [Nat.le_log2 (by omega)]
      exact le_trans (Nat.log2_self_le (by omega)) h
  omega

/-- `roundMag` before the overflow to infinity. -/
def roundMagRaw (F : Fmt) (n d : Nat) : Nat :=
  dropBits F (n / d) * 2 ^ F.fracBits + roundHalfEven n (d * 2 ^ dropBits F (n / d))

theorem roundMag_eq (n d : Nat) : roundMag F n d = min (infMag F) (roundMagRaw F n d) := rfl

theorem roundMag_le_infMag (n d : Nat) : roundMag F n d ≤ infMag F := Nat.min_le_left _ _

/-- The significand that `roundMag` keeps. -/
theorem significand_bounds {n d : Nat} (hd : 0 < d) :
    roundHalfEven n (d * 2 ^ dropBits F (n / d)) ≤ 2 ^ (F.fracBits + 1) ∧
      (dropBits F (n / d) = 0 ∨ 2 ^ F.fracBits ≤ roundHalfEven n (d * 2 ^ dropBits F (n / d))) := by
  obtain ⟨h1, h2⟩ := dropBits_bounds F (n / d)
  set e := dropBits F (n / d)
  have hD : 0 < d * 2 ^ e := by positivity
  constructor
  · apply roundHalfEven_le_of_le hD
    have : n < d * 2 ^ (F.fracBits + 1 + e) := (Nat.div_lt_iff_lt_mul hd).1 h1 |>.trans_eq (Nat.mul_comm _ _)
    refine this.le.trans_eq ?_
    rw [pow_add]; ring
  · rcases h2 with h | h
    · exact .inl h
    · right
      apply le_roundHalfEven_of_le hD
      have := (Nat.le_div_iff_mul_le hd).1 h
      refine le_trans (le_of_eq ?_) this
      rw [pow_add]; ring

theorem roundMagRaw_mono {n₁ d₁ n₂ d₂ : Nat} (h₁ : 0 < d₁) (h₂ : 0 < d₂) (h : n₁ * d₂ ≤ n₂ * d₁) :
    roundMagRaw F n₁ d₁ ≤ roundMagRaw F n₂ d₂ := by
  have hq : n₁ / d₁ ≤ n₂ / d₂ := by
    rw [Nat.le_div_iff_mul_le h₂]
    have a : n₁ / d₁ * d₁ ≤ n₁ := Nat.div_mul_le_self _ _
    have b : n₁ / d₁ * d₂ * d₁ ≤ n₂ * d₁ := by
      calc n₁ / d₁ * d₂ * d₁ = n₁ / d₁ * d₁ * d₂ := by ring
        _ ≤ n₁ * d₂ := Nat.mul_le_mul_right _ a
        _ ≤ n₂ * d₁ := h
    exact Nat.le_of_mul_le_mul_right b h₁
  have he : dropBits F (n₁ / d₁) ≤ dropBits F (n₂ / d₂) := dropBits_mono hq
  unfold roundMagRaw
  rcases he.lt_or_eq with hlt | heq
  · obtain ⟨u₁, _⟩ := significand_bounds (F := F) (n := n₁) h₁
    obtain ⟨_, u₂⟩ := significand_bounds (F := F) (n := n₂) h₂
    have := Nat.mul_le_mul_right (2 ^ F.fracBits) (show dropBits F (n₁ / d₁) + 1 ≤ dropBits F (n₂ / d₂) from hlt)
    rw [pow_succ] at u₁
    rcases u₂ with u₂ | u₂
    · omega
    · nlinarith
  · rw [heq]
    apply Nat.add_le_add_left
    apply roundHalfEven_mono (by positivity) (by positivity)
    calc n₁ * (d₂ * 2 ^ dropBits F (n₂ / d₂)) = n₁ * d₂ * 2 ^ dropBits F (n₂ / d₂) := by ring
      _ ≤ n₂ * d₁ * 2 ^ dropBits F (n₂ / d₂) := Nat.mul_le_mul_right _ h
      _ = n₂ * (d₁ * 2 ^ dropBits F (n₂ / d₂)) := by ring

/-- Rounding is monotone in the ratio. -/
theorem roundMag_mono {n₁ d₁ n₂ d₂ : Nat} (h₁ : 0 < d₁) (h₂ : 0 < d₂) (h : n₁ * d₂ ≤ n₂ * d₁) :
    roundMag F n₁ d₁ ≤ roundMag F n₂ d₂ :=
  min_le_min_left _ (roundMagRaw_mono h₁ h₂ h)

/-- A significand of `fracBits + 1` bits at any exponent is rounded to itself. -/
theorem magUnits_roundMagRaw_exact {c j d : Nat} (hd : 0 < d) (hc : c < 2 ^ (F.fracBits + 1)) :
    magUnits F (roundMagRaw F (c * 2 ^ j * d) d) = c * 2 ^ j := by
  have hq : c * 2 ^ j * d / d = c * 2 ^ j := Nat.mul_div_cancel _ hd
  unfold roundMagRaw
  rw [hq]
  obtain ⟨h1, h2⟩ := dropBits_bounds F (c * 2 ^ j)
  set e := dropBits F (c * 2 ^ j)
  have hej : e = 0 ∨ e ≤ j := by
    rcases h2 with h | h
    · exact .inl h
    · right
      by_contra hn
      have : 2 ^ (F.fracBits + 1) * 2 ^ j ≤ 2 ^ (F.fracBits + e) := by
        rw [← pow_add]; exact Nat.pow_le_pow_right (by omega) (by omega)
      have : c * 2 ^ j < 2 ^ (F.fracBits + 1) * 2 ^ j := Nat.mul_lt_mul_of_pos_right hc (by positivity)
      omega
  obtain ⟨k, hk⟩ : ∃ k, c * 2 ^ j = k * 2 ^ e := by
    rcases hej with h | h
    · exact ⟨c * 2 ^ j, by rw [h]; simp⟩
    · refine ⟨c * 2 ^ (j - e), ?_⟩
      rw [mul_assoc, ← pow_add, Nat.sub_add_cancel h]
  have hr : roundHalfEven (c * 2 ^ j * d) (d * 2 ^ e) = k := by
    rw [hk, show k * 2 ^ e * d = k * (d * 2 ^ e) by ring]
    exact roundHalfEven_exact (by positivity)
  rw [hr, hk]
  rw [hk] at h1 h2
  apply magUnits_split
  · rw [pow_add] at h1; exact Nat.lt_of_mul_lt_mul_right h1
  · rcases h2 with h | h
    · exact .inl h
    · right; rw [pow_add] at h; exact Nat.le_of_mul_le_mul_right h (by positivity)

/-- The value of a magnitude, rounded, is that magnitude. -/
theorem roundMagRaw_magUnits {m d : Nat} (hd : 0 < d) : roundMagRaw F (magUnits F m * d) d = m := by
  obtain ⟨e, c, rfl, hc, he⟩ := exists_split F m
  rw [magUnits_split hc he]
  have hq : c * 2 ^ e * d / d = c * 2 ^ e := Nat.mul_div_cancel _ hd
  unfold roundMagRaw
  rw [hq]
  have hdrop : dropBits F (c * 2 ^ e) = e := by
    unfold dropBits
    rcases he with rfl | hge
    · have : Nat.log2 (c * 2 ^ 0) ≤ F.fracBits := by
        rcases Nat.eq_zero_or_pos c with rfl | hc0
        · simp
        · have := (Nat.log2_lt (n := c) (k := F.fracBits + 1) (by omega)).2 hc
          simp; omega
      omega
    · have hpos : 0 < c := lt_of_lt_of_le (by positivity) hge
      have h1 : F.fracBits + e ≤ Nat.log2 (c * 2 ^ e) := by
        rw [Nat.le_log2 (by positivity), pow_add]
        exact Nat.mul_le_mul_right _ hge
      have h2 : Nat.log2 (c * 2 ^ e) < F.fracBits + 1 + e := by
        rw [Nat.log2_lt (by positivity), pow_add]
        exact Nat.mul_lt_mul_of_pos_right hc (by positivity)
      omega
  rw [hdrop, show c * 2 ^ e * d = c * (d * 2 ^ e) by ring, roundHalfEven_exact (by positivity)]

theorem roundMag_magUnits {m d : Nat} (hd : 0 < d) (hm : m ≤ infMag F) : roundMag F (magUnits F m * d) d = m := by
  rw [roundMag_eq, roundMagRaw_magUnits hd]; omega

theorem magUnits_strictMono (F : Fmt) : StrictMono (magUnits F) := by
  intro a b hab
  by_contra hn
  have := roundMagRaw_mono (F := F) (n₁ := magUnits F b) (n₂ := magUnits F a) (d₁ := 1) (d₂ := 1) one_pos one_pos (by omega)
  have ea := roundMagRaw_magUnits (F := F) (m := a) one_pos
  have eb := roundMagRaw_magUnits (F := F) (m := b) one_pos
  simp only [Nat.mul_one] at ea eb
  omega

/-- The value of what `roundMagRaw` answers: the kept significand at its place. -/
theorem magUnits_roundMagRaw {n d : Nat} (hd : 0 < d) :
    magUnits F (roundMagRaw F n d) = roundHalfEven n (d * 2 ^ dropBits F (n / d)) * 2 ^ dropBits F (n / d) := by
  obtain ⟨h1, h2⟩ := significand_bounds (F := F) (n := n) hd
  unfold roundMagRaw
  set e := dropBits F (n / d)
  set c := roundHalfEven n (d * 2 ^ e)
  rcases h1.lt_or_eq with h | h
  · exact magUnits_split h h2
  · have : e * 2 ^ F.fracBits + c = (e + 1) * 2 ^ F.fracBits + 2 ^ F.fracBits := by rw [h]; ring
    rw [this, magUnits_split (by rw [pow_succ]; have : 0 < 2 ^ F.fracBits := by positivity
                                 omega) (.inr le_rfl), h]
    ring

/-- No magnitude is nearer to `n / d` units than the rounded one (00_scope.md R11: "correctly rounded"). -/
theorem roundMagRaw_nearest {n d : Nat} (hd : 0 < d) (m : Nat) :
    |(magUnits F (roundMagRaw F n d) * d : Int) - n| ≤ |(magUnits F m * d : Int) - n| := by
  rw [magUnits_roundMagRaw hd]
  obtain ⟨_, h2⟩ := dropBits_bounds F (n / d)
  set e := dropBits F (n / d)
  have near : ∀ c : Nat, |((roundHalfEven n (d * 2 ^ e) * 2 ^ e : Nat) * d : Int) - n| ≤ |((c * 2 ^ e : Nat) * d : Int) - n| := by
    intro c
    have := roundHalfEven_near n (d * 2 ^ e) (by positivity) c
    push_cast at this ⊢
    convert this using 2 <;> ring
  obtain ⟨e', c, rfl, hc, he'⟩ := exists_split F m
  rw [magUnits_split hc he']
  rcases Nat.lt_or_ge e' e with hlt | hge
  · rcases h2 with h | h
    · omega
    · refine (near (2 ^ F.fracBits)).trans ?_
      have hn : 2 ^ F.fracBits * 2 ^ e * d ≤ n := by
        rw [← pow_add]; exact (Nat.le_div_iff_mul_le hd).1 h
      have hc' : c * 2 ^ e' ≤ 2 ^ F.fracBits * 2 ^ e := by
        calc c * 2 ^ e' ≤ 2 ^ (F.fracBits + 1) * 2 ^ e' := Nat.mul_le_mul_right _ hc.le
          _ = 2 ^ (F.fracBits + 1 + e') := by rw [← pow_add]
          _ ≤ 2 ^ (F.fracBits + e) := Nat.pow_le_pow_right (by omega) (by omega)
          _ = _ := by rw [pow_add]
      have h3 := Nat.mul_le_mul_right d hc'
      have h3' : ((c * 2 ^ e' : Nat) * d : Int) ≤ (2 ^ F.fracBits * 2 ^ e : Nat) * d := by exact_mod_cast h3
      have hn' : ((2 ^ F.fracBits * 2 ^ e : Nat) * d : Int) ≤ n := by exact_mod_cast hn
      rw [abs_of_nonpos (by omega), abs_of_nonpos (by omega)]
      omega
  · have : c * 2 ^ e' = c * 2 ^ (e' - e) * 2 ^ e := by rw [mul_assoc, ← pow_add, Nat.sub_add_cancel hge]
    rw [this]
    exact near _

/-- An exact tie goes to the even neighbour. -/
theorem roundHalfEven_tie_even {n d : Nat} (h : d = 2 * (n % d)) : roundHalfEven n d % 2 = 0 := by
  unfold roundHalfEven
  split <;> omega

/-- Another whole number as near as the rounded one: `n / d` lies half way. -/
theorem tie_of_equally_near {n d c : Nat} (hd : 0 < d) (hne : c ≠ roundHalfEven n d)
    (h : |(c * d : Int) - n| = |(roundHalfEven n d * d : Int) - n|) : d = 2 * (n % d) := by
  have e := Nat.div_add_mod n d
  have hlt := Nat.mod_lt n hd
  have hcases := roundHalfEven_cases n d
  have hz : ∃ k : Nat, k = roundHalfEven n d := ⟨_, rfl⟩
  obtain ⟨k, hk⟩ := hz
  rw [← hk] at hne h hcases
  generalize n / d = q at *
  generalize n % d = r at *
  subst e
  have hd' : (0 : Int) < d := by exact_mod_cast hd
  have l' : (r : Int) < d := by exact_mod_cast hlt
  have p : (0 : Int) ≤ r := by positivity
  push_cast at h
  rcases abs_eq_abs.1 h with h | h
  · have : (c : Int) * d = k * d := by linarith
    exact absurd (by exact_mod_cast Int.eq_of_mul_eq_mul_right hd'.ne' this) hne
  · -- the two lie symmetrically about the ratio, and the rounded one is at most half a place away
    have hs : ((c : Int) + k - 2 * q) * d = 2 * r := by linarith
    have h1 : (c : Int) + k - 2 * q < 2 := by by_contra hc; nlinarith
    have h0 : 0 ≤ (c : Int) + k - 2 * q := by by_contra hc; nlinarith
    have h3 : (c : Int) + k - 2 * q = 1 ∨ (c : Int) + k - 2 * q = 0 := by omega
    rcases h3 with h3 | h3 <;> rw [h3] at hs
    · omega
    · have : r = 0 := by omega
      omega

/-- Where another magnitude is as near as the rounded one, the rounded one is even (00_scope.md R11: "roundTiesToEven"). -/
theorem roundMagRaw_tie_even {n d m : Nat} (hd : 0 < d) (hne : magUnits F m ≠ magUnits F (roundMagRaw F n d))
    (h : |(magUnits F m * d : Int) - n| = |(magUnits F (roundMagRaw F n d) * d : Int) - n|) : roundMagRaw F n d % 2 = 0 := by
  have hpar : (2 ^ F.fracBits) % 2 = 0 := by cases F <;> decide
  have hparity : roundMagRaw F n d % 2 = roundHalfEven n (d * 2 ^ dropBits F (n / d)) % 2 := by
    unfold roundMagRaw; rw [Nat.add_mod, Nat.mul_mod, hpar]; simp
  rw [hparity]
  have hval := magUnits_roundMagRaw (F := F) (n := n) hd
  have hmin := roundMagRaw_nearest (F := F) (n := n) hd
  obtain ⟨_, h2⟩ := dropBits_bounds F (n / d)
  rw [hval] at h hne
  obtain ⟨e', c, rfl, hc, he'⟩ := exists_split F m
  rw [magUnits_split hc he'] at h hne
  set e := dropBits F (n / d)
  apply roundHalfEven_tie_even
  rcases Nat.lt_or_ge e' e with hlt | hge
  · exfalso
    rcases h2 with h2 | h2
    · omega
    · have hn : 2 ^ F.fracBits * 2 ^ e * d ≤ n := by rw [← pow_add]; exact (Nat.le_div_iff_mul_le hd).1 h2
      have hc' : c * 2 ^ e' < 2 ^ F.fracBits * 2 ^ e := by
        calc c * 2 ^ e' < 2 ^ (F.fracBits + 1) * 2 ^ e' := Nat.mul_lt_mul_of_pos_right hc (by positivity)
          _ = 2 ^ (F.fracBits + 1 + e') := by rw [← pow_add]
          _ ≤ 2 ^ (F.fracBits + e) := Nat.pow_le_pow_right (by omega) (by omega)
          _ = _ := by rw [pow_add]
      have h3 := Nat.mul_lt_mul_of_pos_right hc' hd
      have near := hmin (e * 2 ^ F.fracBits + 2 ^ F.fracBits)
      rw [hval, magUnits_split (by rw [pow_succ]; have : 0 < 2 ^ F.fracBits := by positivity
                                   omega) (.inr le_rfl)] at near
      have h3' : ((c * 2 ^ e' : Nat) * d : Int) < (2 ^ F.fracBits * 2 ^ e : Nat) * d := by exact_mod_cast h3
      have hn' : ((2 ^ F.fracBits * 2 ^ e : Nat) * d : Int) ≤ n := by exact_mod_cast hn
      rw [← h, abs_of_nonpos (by omega), abs_of_nonpos (by omega)] at near
      omega
  · have hk : c * 2 ^ e' = c * 2 ^ (e' - e) * 2 ^ e := by rw [mul_assoc, ← pow_add, Nat.sub_add_cancel hge]
    rw [hk] at h hne
    refine tie_of_equally_near (c := c * 2 ^ (e' - e)) (by positivity) (fun hcc => hne (by rw [hcc])) ?_
    push_cast at h ⊢
    convert h using 2 <;> ring

/-- A ratio that rounds past the largest finite magnitude lies beyond every finite magnitude. -/
theorem magUnits_lt_of_overflow {n d m : Nat} (hd : 0 < d) (h : infMag F ≤ roundMagRaw F n d) (hm : m < infMag F) :
    magUnits F m * d < n := by
  by_contra hc
  have := roundMagRaw_mono (F := F) (n₁ := n) (d₁ := d) (n₂ := magUnits F m * d) (d₂ := d) hd hd
    (Nat.mul_le_mul_right _ (Nat.le_of_not_lt hc))
  rw [roundMagRaw_magUnits hd] at this
  omega

/-- When a ratio rounds past the largest finite magnitude: exactly from that magnitude plus half its last place on (00_scope.md R11:
"overflow to the infinity", by roundTiesToEven, so the tie overflows). -/
theorem infMag_le_roundMagRaw_iff {n d : Nat} (hd : 0 < d) : infMag F ≤ roundMagRaw F n d ↔
    (magUnits F (infMag F - 1) + magUnits F (infMag F)) * d ≤ 2 * n := by
  have hpos : 0 < infMag F := by cases F <;> decide
  have hodd : (infMag F - 1) % 2 = 1 := by cases F <;> decide
  have dz : (0 : Int) < d := by exact_mod_cast hd
  constructor
  · intro h
    have hlt := magUnits_lt_of_overflow (F := F) (n := n) hd h (m := infMag F - 1) (by omega)
    have near := roundMagRaw_nearest (F := F) (n := n) hd (infMag F - 1)
    have hm := Nat.mul_le_mul_right d ((magUnits_strictMono F).monotone h)
    have hlt' : ((magUnits F (infMag F - 1) * d : Nat) : Int) < n := by exact_mod_cast hlt
    have hm' : ((magUnits F (infMag F) * d : Nat) : Int) ≤ (magUnits F (roundMagRaw F n d) * d : Nat) := by exact_mod_cast hm
    push_cast at hlt' hm'
    rw [abs_of_neg (show (magUnits F (infMag F - 1) * d : Int) - n < 0 by omega)] at near
    have := le_abs_self ((magUnits F (roundMagRaw F n d) * d : Int) - n)
    zify
    rw [add_mul]
    omega
  · intro h
    by_contra hc
    have hq : roundMagRaw F n d ≤ infMag F - 1 := by omega
    have hU := Nat.mul_le_mul_right d ((magUnits_strictMono F).monotone hq)
    have near := roundMagRaw_nearest (F := F) (n := n) hd (infMag F)
    have hn : n < magUnits F (infMag F) * d := by
      by_contra hge
      have := roundMagRaw_mono (F := F) (n₁ := magUnits F (infMag F) * d) (d₁ := d) (n₂ := n) (d₂ := d) hd hd
        (Nat.mul_le_mul_right _ (Nat.le_of_not_lt hge))
      rw [roundMagRaw_magUnits hd] at this
      omega
    rw [add_mul] at h
    have h' : (magUnits F (infMag F - 1) * d : Int) + magUnits F (infMag F) * d ≤ 2 * n := by exact_mod_cast h
    have hU' : (magUnits F (roundMagRaw F n d) * d : Int) ≤ magUnits F (infMag F - 1) * d := by exact_mod_cast hU
    have hn' : (n : Int) < magUnits F (infMag F) * d := by exact_mod_cast hn
    have near' := near
    rw [abs_of_pos (show 0 < (magUnits F (infMag F) * d : Int) - n by omega)] at near'
    have hlow := neg_abs_le ((magUnits F (roundMagRaw F n d) * d : Int) - n)
    -- the ratio lies half way between the two magnitudes, and the lower one is odd
    have heq : (magUnits F (roundMagRaw F n d) * d : Int) = magUnits F (infMag F - 1) * d := by omega
    have hmag : roundMagRaw F n d = infMag F - 1 :=
      (magUnits_strictMono F).injective (by exact_mod_cast Int.eq_of_mul_eq_mul_right dz.ne' heq)
    have heven := roundMagRaw_tie_even (F := F) (n := n) (m := infMag F) hd
      (by rw [hmag]; exact ((magUnits_strictMono F) (show infMag F - 1 < infMag F by omega)).ne')
      (le_antisymm (by rw [abs_of_pos (show 0 < (magUnits F (infMag F) * d : Int) - n by omega)]; omega) near)
    rw [hmag] at heven
    omega

/-- Rounding to a whole number is off by at most one half. -/
theorem roundHalfEven_error (n : Nat) {d : Nat} (hd : 0 < d) : 2 * (roundHalfEven n d * d) ≤ 2 * n + d ∧ 2 * n ≤ 2 * (roundHalfEven n d * d) + d := by
  have e := Nat.div_add_mod n d
  rcases roundHalfEven_cases n d with ⟨h, h2⟩ | ⟨h, h2⟩ <;> rw [h]
  · rw [Nat.mul_comm (n / d) d]; omega
  · rw [Nat.add_mul, Nat.mul_comm (n / d) d]
    have := Nat.mod_lt n hd
    omega

end Sys2Proof.Machine
end

