-- ==== Sys2Proof/Laws/Float.lean ====
section
/-!
SUPPORT. Words: what `pack` and the fields do, the three classes by the exponent-and-fraction number, and each arithmetic
primitive as ONE fact about its order key (the word read as a sign-magnitude number): it is the exact result, rounded. Ranges,
finiteness and exactness of every formula follow from these by monotonicity.
-/

namespace Sys2Proof.Machine

variable {F : Fmt}

/-! ### Fields -/

theorem infMag_eq (F : Fmt) : infMag F + 2 ^ F.fracBits = 2 ^ (F.width - 1) := by cases F <;> decide

theorem two_pow_unitExp_pos (F : Fmt) : 0 < 2 ^ unitExp F := by positivity

theorem infMag_lt (F : Fmt) : infMag F < 2 ^ (F.width - 1) := by cases F <;> decide

theorem infMag_pos (F : Fmt) : 0 < infMag F := by cases F <;> decide

theorem magBits_lt (w : Word F) : magBits w < 2 ^ (F.width - 1) := Nat.mod_lt _ (by positivity)

theorem magBits_pack (neg : Bool) {m : Nat} (hm : m < 2 ^ (F.width - 1)) : magBits (pack neg m : Word F) = m := by
  cases F <;> simp only [magBits, pack, BitVec.toNat_ofNat, Fmt.width] at hm ⊢ <;> cases neg <;> simp at hm ⊢ <;> omega

theorem signBit_pack (neg : Bool) {m : Nat} (hm : m < 2 ^ (F.width - 1)) : signBit (pack neg m : Word F) = neg := by
  cases F <;> cases neg <;>
    simp [signBit, pack, BitVec.msb_eq_decide, BitVec.toNat_ofNat, Fmt.width] at hm ⊢ <;> omega

theorem pack_signBit_magBits (w : Word F) : pack (signBit w) (magBits w) = w := by
  apply BitVec.eq_of_toNat_eq
  have := w.isLt
  cases F <;> simp [signBit, pack, magBits, BitVec.msb_eq_decide, BitVec.toNat_ofNat, Fmt.width] at this ⊢ <;> split <;> omega

theorem word_ext {a b : Word F} (hs : signBit a = signBit b) (hm : magBits a = magBits b) : a = b := by
  rw [← pack_signBit_magBits a, ← pack_signBit_magBits b, hs, hm]

@[simp] theorem magBits_zero : magBits (0#F.width : Word F) = 0 := by cases F <;> decide
@[simp] theorem signBit_zero : signBit (0#F.width : Word F) = false := by cases F <;> decide

theorem pack_false_zero : (pack false 0 : Word F) = 0 := by cases F <;> decide

theorem signBit_fneg (a : Word F) : signBit (fneg a) = !signBit a := by
  have h : signBit (pack true 0 : Word F) = true := signBit_pack _ (by positivity)
  unfold signBit fneg at *
  rw [BitVec.msb_xor, h]; simp

theorem magBits_fneg (a : Word F) : magBits (fneg a) = magBits a := by
  have key : ∀ x : Word F, magBits x = (x &&& ~~~(pack true 0 : Word F)).toNat := by
    intro x
    cases F
    · have : ~~~(pack true 0 : Word .b32) = BitVec.ofNat 32 (2 ^ 31 - 1) := by decide
      rw [this]
      simp only [magBits, BitVec.toNat_and, BitVec.toNat_ofNat]
      exact (Nat.and_two_pow_sub_one_eq_mod _ 31).symm
    · have : ~~~(pack true 0 : Word .b64) = BitVec.ofNat 64 (2 ^ 63 - 1) := by decide
      rw [this]
      simp only [magBits, BitVec.toNat_and, BitVec.toNat_ofNat]
      exact (Nat.and_two_pow_sub_one_eq_mod _ 63).symm
  rw [key, key, fneg]
  congr 1
  ext i hi
  simp
  cases (pack true 0 : Word F)[i] <;> simp

/-! ### Classes -/

theorem expField_le (w : Word F) : expField w ≤ expAllOnes F := by
  have h1 := magBits_lt w
  unfold expField expAllOnes
  have : 2 ^ (F.width - 1) = 2 ^ F.expBits * 2 ^ F.fracBits := by cases F <;> decide
  rw [this] at h1
  have := (Nat.div_lt_iff_lt_mul (by positivity)).2 h1
  omega

theorem isFinite_iff (w : Word F) : isFinite w = true ↔ magBits w < infMag F := by
  have h1 := expField_le w
  unfold isFinite infMag
  rw [bne_iff_ne]
  have : expField w < expAllOnes F ↔ magBits w < expAllOnes F * 2 ^ F.fracBits := Nat.div_lt_iff_lt_mul (by positivity)
  omega

theorem isFinite_eq_false_iff (w : Word F) : isFinite w = false ↔ infMag F ≤ magBits w := by
  have := isFinite_iff w
  cases h : isFinite w <;> simp [h] at this ⊢ <;> omega

theorem isNaN_iff (w : Word F) : isNaN w = true ↔ infMag F < magBits w := by
  have h1 := expField_le w
  have h2 := Nat.div_add_mod (magBits w) (2 ^ F.fracBits)
  have h3 : expField w = magBits w / 2 ^ F.fracBits := rfl
  have h4 : fracField w = magBits w % 2 ^ F.fracBits := rfl
  have hf := isFinite_iff w
  unfold isFinite at hf
  unfold isNaN
  rw [bne_iff_ne] at hf
  simp only [Bool.and_eq_true, beq_iff_eq, bne_iff_ne]
  rw [← h3, ← h4] at h2
  unfold infMag at hf ⊢
  constructor
  · rintro ⟨a, b⟩
    rw [a, Nat.mul_comm] at h2; omega
  · intro h
    have he : expField w = expAllOnes F := by by_contra hc; have := hf.1 hc; omega
    refine ⟨he, ?_⟩
    rw [he, Nat.mul_comm] at h2; omega

theorem isInf_iff (w : Word F) : isInf w = true ↔ magBits w = infMag F := by
  have h1 := expField_le w
  have h2 := Nat.div_add_mod (magBits w) (2 ^ F.fracBits)
  have h3 : expField w = magBits w / 2 ^ F.fracBits := rfl
  have h4 : fracField w = magBits w % 2 ^ F.fracBits := rfl
  have hf := isFinite_iff w
  unfold isFinite at hf
  unfold isInf
  rw [bne_iff_ne] at hf
  simp only [Bool.and_eq_true, beq_iff_eq]
  rw [← h3, ← h4] at h2
  unfold infMag at hf ⊢
  constructor
  · rintro ⟨a, b⟩
    rw [a, b, Nat.mul_comm] at h2; omega
  · intro h
    have he : expField w = expAllOnes F := by by_contra hc; have := hf.1 hc; omega
    refine ⟨he, ?_⟩
    rw [he, Nat.mul_comm] at h2; omega

theorem isNaN_eq_false_iff (w : Word F) : isNaN w = false ↔ magBits w ≤ infMag F := by
  have := isNaN_iff w
  cases h : isNaN w <;> simp [h] at this ⊢ <;> omega

theorem isInf_eq_false_iff (w : Word F) : isInf w = false ↔ magBits w ≠ infMag F := by
  have := isInf_iff w
  cases h : isInf w <;> simp [h] at this ⊢ <;> omega

theorem isZero_iff (w : Word F) : isZero w = true ↔ magBits w = 0 := by unfold isZero; exact beq_iff_eq

theorem isNaN_of_isFinite {w : Word F} (h : isFinite w = true) : isNaN w = false := by
  rw [isFinite_iff] at h; rw [isNaN_eq_false_iff]; omega

theorem isInf_of_isFinite {w : Word F} (h : isFinite w = true) : isInf w = false := by
  rw [isFinite_iff] at h; rw [isInf_eq_false_iff]; omega

theorem not_isFinite_of_isNaN {w : Word F} (h : isNaN w = true) : isFinite w = false := by
  rw [isNaN_iff] at h; rw [isFinite_eq_false_iff]; omega

/-- A word is finite, an infinity or a NaN. -/
theorem isFinite_of_not_nan_inf {w : Word F} (h1 : isNaN w = false) (h2 : isInf w = false) : isFinite w = true := by
  rw [isNaN_eq_false_iff] at h1; rw [isInf_eq_false_iff] at h2; rw [isFinite_iff]; omega

@[simp] theorem isNaN_fneg (a : Word F) : isNaN (fneg a) = isNaN a := by
  rw [Bool.eq_iff_iff, isNaN_iff, isNaN_iff, magBits_fneg]

@[simp] theorem isInf_fneg (a : Word F) : isInf (fneg a) = isInf a := by
  rw [Bool.eq_iff_iff, isInf_iff, isInf_iff, magBits_fneg]

@[simp] theorem isFinite_fneg (a : Word F) : isFinite (fneg a) = isFinite a := by
  rw [Bool.eq_iff_iff, isFinite_iff, isFinite_iff, magBits_fneg]

theorem isFinite_zero : isFinite (0 : Word F) = true := by rw [isFinite_iff]; simpa using infMag_pos F

theorem quietMag_lt (F : Fmt) : infMag F + 2 ^ (F.fracBits - 1) < 2 ^ (F.width - 1) := by cases F <;> decide

/-- The quiet NaNs by their magnitude: the top bit of the fraction is set (00_scope.md R17). -/
theorem quiet_iff (w : Word F) :
    isNaN w = true ∧ 2 ^ (F.fracBits - 1) ≤ fracField w ↔ infMag F + 2 ^ (F.fracBits - 1) ≤ magBits w := by
  have h1 := magBits_lt w
  have h2 := infMag_eq F
  have hp : 0 < 2 ^ (F.fracBits - 1) := by positivity
  have hq : infMag F % 2 ^ F.fracBits = 0 := Nat.mul_mod_left _ _
  have hf : infMag F ≤ magBits w → fracField w = magBits w - infMag F := by
    intro h
    obtain ⟨r, hr⟩ := Nat.exists_eq_add_of_le h
    unfold fracField
    rw [hr, Nat.add_mod, hq, Nat.zero_add, Nat.mod_mod, Nat.mod_eq_of_lt (by omega)]; omega
  rw [isNaN_iff]
  constructor
  · rintro ⟨a, b⟩; rw [hf a.le] at b; omega
  · intro h; exact ⟨by omega, by rw [hf (by omega)]; omega⟩

/-- A produced NaN is quiet (00_scope.md R17). -/
theorem quietMag_le_quietNaN (w : Word F) : infMag F + 2 ^ (F.fracBits - 1) ≤ magBits (quietNaN w) := by
  have h1 : (quietNaN w) &&& (pack false (infMag F + 2 ^ (F.fracBits - 1))) = pack false (infMag F + 2 ^ (F.fracBits - 1)) := by
    unfold quietNaN; ext i hi; simp; cases (pack false (infMag F + 2 ^ (F.fracBits - 1)) : Word F)[i] <;> simp
  have h2 : magBits (pack false (infMag F + 2 ^ (F.fracBits - 1)) : Word F) ≤ magBits (quietNaN w) := by
    have e1 : magBits (pack false (infMag F + 2 ^ (F.fracBits - 1)) : Word F)
        = (pack false (infMag F + 2 ^ (F.fracBits - 1)) : Word F).toNat &&& (2 ^ (F.width - 1) - 1) := by
      rw [Nat.and_two_pow_sub_one_eq_mod]; rfl
    have e2 : magBits (quietNaN w) = (quietNaN w).toNat &&& (2 ^ (F.width - 1) - 1) := by
      rw [Nat.and_two_pow_sub_one_eq_mod]; rfl
    rw [e1, e2]
    conv_lhs => rw [← h1]
    rw [BitVec.toNat_and, Nat.and_right_comm]
    exact Nat.and_le_left
  rwa [magBits_pack _ (quietMag_lt F)] at h2

theorem isNaN_quietNaN (w : Word F) : isNaN (quietNaN w) = true := ((quiet_iff _).2 (quietMag_le_quietNaN w)).1

/-! ### The order key -/

theorem orderKey_natAbs (w : Word F) : (orderKey w).natAbs = magBits w := by
  unfold orderKey; split <;> simp

@[simp] theorem orderKey_zero : orderKey (0#F.width : Word F) = 0 := by simp [orderKey]

theorem orderKey_fneg (a : Word F) : orderKey (fneg a) = -orderKey a := by
  unfold orderKey; rw [signBit_fneg, magBits_fneg]; cases signBit a <;> simp

theorem orderKey_pack (neg : Bool) {m : Nat} (hm : m < 2 ^ (F.width - 1)) :
    orderKey (pack neg m : Word F) = if neg then -(m : Int) else m := by
  unfold orderKey; rw [signBit_pack _ hm, magBits_pack _ hm]

theorem isFinite_iff_key (w : Word F) : isFinite w = true ↔ -(infMag F : Int) < orderKey w ∧ orderKey w < infMag F := by
  rw [isFinite_iff]; unfold orderKey; split <;> omega

theorem isNaN_eq_false_iff_key (w : Word F) :
    isNaN w = false ↔ -(infMag F : Int) ≤ orderKey w ∧ orderKey w ≤ infMag F := by
  rw [isNaN_eq_false_iff]; unfold orderKey; split <;> omega

theorem flt_iff (a b : Word F) : flt a b = true ↔ isNaN a = false ∧ isNaN b = false ∧ orderKey a < orderKey b := by
  simp [flt, and_assoc]

theorem fge_iff (a b : Word F) : fge a b = true ↔ isNaN a = false ∧ isNaN b = false ∧ orderKey b ≤ orderKey a := by
  simp [fge, and_assoc]

/-- Words of one order key are equal but for the sign of zero. -/
theorem eq_of_orderKey {a b : Word F} (h : orderKey a = orderKey b) (h0 : orderKey a ≠ 0) : a = b := by
  have hm : magBits a = magBits b := by rw [← orderKey_natAbs, ← orderKey_natAbs, h]
  refine word_ext ?_ hm
  unfold orderKey at h h0
  cases ha : signBit a <;> cases hb : signBit b <;> simp [ha, hb] at h h0 ⊢ <;> omega

/-- The order of keys is the order of values. -/
theorem valueUnits_lt_iff (a b : Word F) : valueUnits a < valueUnits b ↔ orderKey a < orderKey b := by
  have mono := (magUnits_strictMono F).lt_iff_lt (a := magBits a) (b := magBits b)
  have mono' := (magUnits_strictMono F).lt_iff_lt (a := magBits b) (b := magBits a)
  have z : magUnits F 0 = 0 := by simp [magUnits]
  have za := (magUnits_strictMono F).lt_iff_lt (a := 0) (b := magBits a)
  have zb := (magUnits_strictMono F).lt_iff_lt (a := 0) (b := magBits b)
  rw [z] at za zb
  unfold valueUnits orderKey units
  split <;> split <;> omega

theorem valueUnits_le_iff (a b : Word F) : valueUnits a ≤ valueUnits b ↔ orderKey a ≤ orderKey b := by
  have := valueUnits_lt_iff b a
  omega

theorem valueUnits_eq_iff (a b : Word F) : valueUnits a = valueUnits b ↔ orderKey a = orderKey b := by
  have h1 := valueUnits_lt_iff a b
  have h2 := valueUnits_lt_iff b a
  omega

@[simp] theorem valueUnits_zero : valueUnits (0#F.width : Word F) = 0 := by simp [valueUnits, units, magUnits]

theorem valueUnits_fneg (a : Word F) : valueUnits (fneg a) = -valueUnits a := by
  unfold valueUnits units; rw [signBit_fneg, magBits_fneg]; cases signBit a <;> simp

theorem valueUnits_natAbs (a : Word F) : (valueUnits a).natAbs = units a := by unfold valueUnits; split <;> simp

/-! ### Rounding with a sign -/

/-- The order key of the word nearest to `z / d` units. -/
def roundKey (F : Fmt) (z : Int) (d : Nat) : Int := if z < 0 then -(roundMag F z.natAbs d : Int) else roundMag F z.natAbs d

theorem roundMag_zero {d : Nat} : roundMag F 0 d = 0 := by
  have h : roundHalfEven 0 (d * 2 ^ dropBits F (0 / d)) = 0 := by
    unfold roundHalfEven; simp
  unfold roundMag
  simp only [h]
  simp [dropBits]

theorem roundKey_mono {z₁ z₂ : Int} {d₁ d₂ : Nat} (h₁ : 0 < d₁) (h₂ : 0 < d₂) (h : z₁ * d₂ ≤ z₂ * d₁) :
    roundKey F z₁ d₁ ≤ roundKey F z₂ d₂ := by
  have p₁ : (0 : Int) < d₁ := by exact_mod_cast h₁
  have p₂ : (0 : Int) < d₂ := by exact_mod_cast h₂
  unfold roundKey
  split <;> split
  · have : roundMag F z₂.natAbs d₂ ≤ roundMag F z₁.natAbs d₁ := by
      apply roundMag_mono h₂ h₁
      zify; rw [abs_of_neg ‹z₁ < 0›, abs_of_neg ‹z₂ < 0›]; linarith
    omega
  · omega
  · have : z₂ * d₁ < 0 := by nlinarith
    have : 0 ≤ z₁ * d₂ := by nlinarith
    omega
  · have : roundMag F z₁.natAbs d₁ ≤ roundMag F z₂.natAbs d₂ := by
      apply roundMag_mono h₁ h₂
      zify; rw [abs_of_nonneg (by omega), abs_of_nonneg (by omega)]; exact h
    omega

/-- A value, rounded, is itself. -/
theorem roundKey_valueUnits {w : Word F} (hw : isNaN w = false) {d : Nat} (hd : 0 < d) :
    roundKey F (valueUnits w * d) d = orderKey w := by
  rw [isNaN_eq_false_iff] at hw
  have e := roundMag_magUnits (F := F) hd hw
  have hn : (valueUnits w * d).natAbs = magUnits F (magBits w) * d := by
    rw [Int.natAbs_mul, valueUnits_natAbs]; simp [units]
  have p : (0 : Int) < d := by exact_mod_cast hd
  unfold roundKey
  rw [hn, e]
  unfold orderKey valueUnits
  cases hs : signBit w
  · have : ¬((units w : Int) * d < 0) := not_lt.2 (by positivity)
    simp [this]
  · rcases Nat.eq_zero_or_pos (units w) with h0 | h0
    · have hz : magBits w = 0 := by
        by_contra hc
        have := magUnits_strictMono F (Nat.pos_of_ne_zero hc)
        unfold units at h0; omega
      simp [h0, hz]
    · have : (-(units w : Int)) * d < 0 := by
        have : (0 : Int) < units w := by exact_mod_cast h0
        nlinarith
      rw [if_pos (by simpa using this)]
      simp

theorem orderKey_roundWord (neg : Bool) (n d : Nat) :
    orderKey (roundWord neg n d : Word F) = if neg then -(roundMag F n d : Int) else roundMag F n d :=
  orderKey_pack neg (lt_of_le_of_lt (roundMag_le_infMag n d) (infMag_lt F))

theorem isNaN_roundWord (neg : Bool) (n d : Nat) : isNaN (roundWord neg n d : Word F) = false := by
  rw [isNaN_eq_false_iff, roundWord, magBits_pack _ (lt_of_le_of_lt (roundMag_le_infMag n d) (infMag_lt F))]
  exact roundMag_le_infMag n d

theorem isNaN_pack_zero (neg : Bool) : isNaN (pack neg 0 : Word F) = false := by
  rw [isNaN_eq_false_iff, magBits_pack _ (by positivity)]; omega

theorem isNaN_infinity (neg : Bool) : isNaN (infinity neg : Word F) = false := by
  rw [isNaN_eq_false_iff, infinity, magBits_pack _ (infMag_lt F)]

theorem isFinite_infinity (neg : Bool) : isFinite (infinity neg : Word F) = false := by
  rw [isFinite_eq_false_iff, infinity, magBits_pack _ (infMag_lt F)]

/-! ### Each primitive on finite operands: the exact result, rounded -/

theorem isNaN_fadd {nan a b : Word F} (ha : isFinite a = true) (hb : isNaN b = false) : isNaN (fadd nan a b) = false := by
  have ha' := isNaN_of_isFinite ha
  have hi := isInf_of_isFinite ha
  unfold fadd
  simp only [ha', hb, hi, Bool.or_self, Bool.false_eq_true, if_false]
  split
  · exact hb
  · split
    · exact isNaN_pack_zero _
    · exact isNaN_roundWord _ _ _

theorem isNaN_fadd' {nan a b : Word F} (ha : isNaN a = false) (hb : isFinite b = true) : isNaN (fadd nan a b) = false := by
  have hb' := isNaN_of_isFinite hb
  have hi := isInf_of_isFinite hb
  unfold fadd
  simp only [hb', ha, hi, Bool.or_self, Bool.false_and, Bool.false_eq_true, if_false]
  split
  · exact ha
  · split
    · exact isNaN_pack_zero _
    · exact isNaN_roundWord _ _ _

theorem orderKey_fadd {nan a b : Word F} (ha : isFinite a = true) (hb : isFinite b = true) :
    orderKey (fadd nan a b) = roundKey F (valueUnits a + valueUnits b) 1 := by
  unfold fadd
  simp only [isNaN_of_isFinite ha, isNaN_of_isFinite hb, isInf_of_isFinite ha, isInf_of_isFinite hb]
  simp only [Bool.or_self, Bool.false_eq_true, if_false]
  split
  · rename_i h
    rw [h, orderKey_pack _ (by positivity)]
    simp [roundKey, roundMag_zero]
  · rw [orderKey_roundWord]
    unfold roundKey
    by_cases h : valueUnits a + valueUnits b < 0 <;> simp [h]

theorem isNaN_fsub {nan a b : Word F} (ha : isFinite a = true) (hb : isNaN b = false) : isNaN (fsub nan a b) = false :=
  isNaN_fadd ha (by simpa using hb)

theorem isNaN_fsub' {nan a b : Word F} (ha : isNaN a = false) (hb : isFinite b = true) : isNaN (fsub nan a b) = false :=
  isNaN_fadd' ha (by simpa using hb)

theorem orderKey_fsub {nan a b : Word F} (ha : isFinite a = true) (hb : isFinite b = true) :
    orderKey (fsub nan a b) = roundKey F (valueUnits a - valueUnits b) 1 := by
  unfold fsub
  rw [orderKey_fadd ha (by simpa using hb), valueUnits_fneg]; rfl

theorem valueUnits_mul_sign (a b : Word F) :
    valueUnits a * valueUnits b = if signBit a != signBit b then -((units a * units b : Nat) : Int) else (units a * units b : Nat) := by
  unfold valueUnits; cases signBit a <;> cases signBit b <;> simp

theorem signed_roundMag {neg : Bool} {n d : Nat} :
    (if neg then -(roundMag F n d : Int) else roundMag F n d) = roundKey F (if neg then -(n : Int) else n) d := by
  unfold roundKey
  cases neg
  · simp
  · rcases Nat.eq_zero_or_pos n with rfl | h
    · simp [roundMag_zero]
    · simp [h]

theorem isNaN_fmul {nan a b : Word F} (ha : isFinite a = true) (hb : isFinite b = true) : isNaN (fmul nan a b) = false := by
  unfold fmul
  simp only [isNaN_of_isFinite ha, isNaN_of_isFinite hb, isInf_of_isFinite ha, isInf_of_isFinite hb]
  simpa using isNaN_roundWord _ _ _

/-- A product with a finite factor that is not zero is no NaN. -/
theorem isNaN_fmul_const {nan a c : Word F} (ha : isNaN a = false) (hc : isFinite c = true) (h0 : isZero c = false) :
    isNaN (fmul nan a c) = false := by
  unfold fmul
  simp only [ha, isNaN_of_isFinite hc, isInf_of_isFinite hc, h0, Bool.or_false, Bool.false_eq_true, if_false]
  split
  · rename_i h
    have : isZero a = false := by
      have p := infMag_pos F
      rw [isInf_iff] at h
      have := isZero_iff a
      cases hz : isZero a <;> simp [hz] at this ⊢; omega
    simp [this, isNaN_infinity]
  · exact isNaN_roundWord _ _ _

theorem orderKey_fmul {nan a b : Word F} (ha : isFinite a = true) (hb : isFinite b = true) :
    orderKey (fmul nan a b) = roundKey F (valueUnits a * valueUnits b) (2 ^ unitExp F) := by
  unfold fmul
  simp only [isNaN_of_isFinite ha, isNaN_of_isFinite hb, isInf_of_isFinite ha, isInf_of_isFinite hb]
  simp only [Bool.or_self, Bool.false_eq_true, if_false]
  rw [orderKey_roundWord, valueUnits_mul_sign]
  exact signed_roundMag

/-- A quotient by a finite divisor that is not zero is no NaN. -/
theorem isNaN_fdiv {nan a b : Word F} (ha : isNaN a = false) (hb : isFinite b = true) (h0 : isZero b = false) :
    isNaN (fdiv nan a b) = false := by
  unfold fdiv
  simp only [ha, isNaN_of_isFinite hb, isInf_of_isFinite hb, h0, Bool.or_false, Bool.false_eq_true, if_false]
  split
  · exact isNaN_infinity _
  · exact isNaN_roundWord _ _ _

theorem units_pos {b : Word F} (h0 : isZero b = false) : 0 < units b := by
  have : magBits b ≠ 0 := by intro h; rw [(isZero_iff b).2 h] at h0; cases h0
  have := magUnits_strictMono F (Nat.pos_of_ne_zero this)
  unfold units; omega

/-- The quotient by a positive divisor. -/
theorem orderKey_fdiv {nan a b : Word F} (ha : isFinite a = true) (hb : isFinite b = true) (h0 : isZero b = false)
    (hs : signBit b = false) :
    orderKey (fdiv nan a b) = roundKey F (valueUnits a * 2 ^ unitExp F) (units b) := by
  unfold fdiv
  simp only [isNaN_of_isFinite ha, isNaN_of_isFinite hb, isInf_of_isFinite ha, isInf_of_isFinite hb, h0]
  simp only [Bool.or_self, Bool.false_eq_true, if_false, hs]
  rw [orderKey_roundWord, signed_roundMag]
  congr 1
  unfold valueUnits
  cases signBit a <;> simp

/-- The general quotient. -/
theorem orderKey_fdiv_signed {nan a b : Word F} (ha : isFinite a = true) (hb : isFinite b = true) (h0 : isZero b = false) :
    orderKey (fdiv nan a b) =
      roundKey F (if signBit b then -(valueUnits a * 2 ^ unitExp F) else valueUnits a * 2 ^ unitExp F) (units b) := by
  unfold fdiv
  simp only [isNaN_of_isFinite ha, isNaN_of_isFinite hb, isInf_of_isFinite ha, isInf_of_isFinite hb, h0]
  simp only [Bool.or_self, Bool.false_eq_true, if_false]
  rw [orderKey_roundWord, signed_roundMag]
  congr 1
  unfold valueUnits
  cases signBit a <;> cases signBit b <;> simp

/-! ### A result that is finite had finite operands -/

theorem isFinite_of_fadd {nan a b : Word F} (hn : isNaN nan = true) (h : isFinite (fadd nan a b) = true) :
    isFinite a = true ∧ isFinite b = true := by
  have hnf := not_isFinite_of_isNaN hn
  unfold fadd at h
  by_cases h1 : (isNaN a || isNaN b) = true
  · simp [h1, hnf] at h
  · simp only [Bool.or_eq_true, not_or, Bool.not_eq_true] at h1
    simp only [h1.1, h1.2, Bool.or_self, Bool.false_eq_true, if_false] at h
    by_cases h2 : isInf a = true
    · simp only [h2, if_true] at h
      split at h
      · simp [hnf] at h
      · rw [isInf_of_isFinite h] at h2; cases h2
    · by_cases h3 : isInf b = true
      · simp only [h2, h3, if_true, Bool.false_eq_true, if_false] at h
        rw [isInf_of_isFinite h] at h3; cases h3
      · exact ⟨isFinite_of_not_nan_inf h1.1 (by simpa using h2), isFinite_of_not_nan_inf h1.2 (by simpa using h3)⟩

theorem isFinite_of_fsub {nan a b : Word F} (hn : isNaN nan = true) (h : isFinite (fsub nan a b) = true) :
    isFinite a = true ∧ isFinite b = true := by
  have := isFinite_of_fadd hn h
  simpa using this

theorem isFinite_of_fmul {nan a b : Word F} (hn : isNaN nan = true) (h : isFinite (fmul nan a b) = true) :
    isFinite a = true ∧ isFinite b = true := by
  have hnf := not_isFinite_of_isNaN hn
  unfold fmul at h
  by_cases h1 : (isNaN a || isNaN b) = true
  · simp [h1, hnf] at h
  · simp only [Bool.or_eq_true, not_or, Bool.not_eq_true] at h1
    by_cases h2 : (isInf a || isInf b) = true
    · simp only [h1.1, h1.2, h2, Bool.or_self, Bool.false_eq_true, if_false, if_true] at h
      split at h
      · simp [hnf] at h
      · simp [isFinite_infinity] at h
    · simp only [Bool.or_eq_true, not_or, Bool.not_eq_true] at h2
      exact ⟨isFinite_of_not_nan_inf h1.1 h2.1, isFinite_of_not_nan_inf h1.2 h2.2⟩

/-! ### Correct rounding of a signed ratio -/

theorem fracField_parity (w : Word F) : fracField w % 2 = magBits w % 2 := by
  unfold fracField; cases F
  · show magBits w % 2 ^ 23 % 2 = _; omega
  · show magBits w % 2 ^ 52 % 2 = _; omega

theorem valueUnits_roundWord {neg : Bool} {n d : Nat} (h : roundMag F n d < infMag F) :
    valueUnits (roundWord neg n d : Word F) =
      if neg then -(magUnits F (roundMagRaw F n d) : Int) else magUnits F (roundMagRaw F n d) := by
  have hr : roundMag F n d = roundMagRaw F n d := by rw [roundMag_eq] at *; omega
  unfold valueUnits units roundWord
  rw [signBit_pack _ (lt_trans h (infMag_lt F)), magBits_pack _ (lt_trans h (infMag_lt F)), hr]

/-- `roundWord` is correctly rounded, roundTiesToEven (00_scope.md R11): no finite word is nearer to `± n / d` units, a tie goes to an
even fraction, and an overflow lies beyond every finite word. -/
theorem roundWord_correct (neg : Bool) {n d : Nat} (hd : 0 < d) :
    let r : Word F := roundWord neg n d
    let x : Int := if neg then -(n : Int) else n
    (isFinite r = true ∧ ∀ w : Word F, isFinite w = true → |valueUnits r * d - x| ≤ |valueUnits w * d - x| ∧
      (|valueUnits w * d - x| = |valueUnits r * d - x| → valueUnits w ≠ valueUnits r → fracField r % 2 = 0)) ∨
    (isInf r = true ∧ ∀ w : Word F, isFinite w = true → |valueUnits w * d| < |x|) := by
  dsimp only
  have hdz : (0 : Int) < d := by exact_mod_cast hd
  have hmb : magBits (roundWord neg n d : Word F) = roundMag F n d := magBits_pack _ (lt_of_le_of_lt (roundMag_le_infMag n d) (infMag_lt F))
  have hx : |(if neg then -(n : Int) else n)| = n := by cases neg <;> simp
  rcases Nat.lt_or_ge (roundMag F n d) (infMag F) with hlt | hge
  · left
    refine ⟨by rw [isFinite_iff, hmb]; exact hlt, fun w hw => ?_⟩
    have hv := valueUnits_roundWord (neg := neg) hlt
    have hr : roundMag F n d = roundMagRaw F n d := by rw [roundMag_eq] at *; omega
    obtain ⟨a, ha, hw1, hw2, hw3⟩ : ∃ a : Int, (a < 0 ∨ a = magUnits F (magBits w)) ∧
        |valueUnits w * d - (if neg then -(n : Int) else n)| = |a * d - n| ∧
        |valueUnits (roundWord neg n d : Word F) * d - (if neg then -(n : Int) else n)| = |(magUnits F (roundMagRaw F n d) * d : Int) - n| ∧
        (valueUnits w ≠ valueUnits (roundWord neg n d : Word F) → a ≠ magUnits F (roundMagRaw F n d)) := by
      rw [hv]
      have habs := valueUnits_natAbs w
      unfold units at habs
      cases neg
      · exact ⟨valueUnits w, by omega, by simp, by simp, by simp⟩
      · refine ⟨-valueUnits w, by omega, ?_, ?_, ?_⟩
        · simp only [if_true]; rw [← abs_neg]; congr 1; ring
        · simp only [if_true]; rw [← abs_neg]; congr 1; ring
        · simp only [if_true]; omega
    rw [hw1, hw2]
    have zero := roundMagRaw_nearest (F := F) (n := n) hd 0
    have near := roundMagRaw_nearest (F := F) (n := n) hd (magBits w)
    have mz : magUnits F 0 = 0 := by simp [magUnits]
    have n0 : (0 : Int) ≤ n := by positivity
    rw [mz] at zero
    simp only [Nat.cast_zero, zero_mul, zero_sub, abs_neg, abs_of_nonneg n0] at zero
    rcases ha with ha | rfl
    · have : a * d < 0 := by nlinarith
      rw [abs_of_neg (by omega : a * d - n < 0)]
      exact ⟨by omega, fun h => absurd h (by omega)⟩
    · refine ⟨near, fun h hne => ?_⟩
      have := roundMagRaw_tie_even (F := F) (n := n) hd (m := magBits w) (fun hc => hw3 hne (by exact_mod_cast hc)) h
      rw [fracField_parity, hmb, hr]; exact this
  · right
    have hm : roundMag F n d = infMag F := le_antisymm (roundMag_le_infMag _ _) hge
    refine ⟨by rw [isInf_iff, hmb, hm], fun w hw => ?_⟩
    have := magUnits_lt_of_overflow (F := F) (n := n) hd (by rw [roundMag_eq] at hm; omega) ((isFinite_iff w).1 hw)
    rw [hx, abs_mul, abs_of_pos hdz, Int.abs_eq_natAbs, valueUnits_natAbs]
    unfold units
    exact_mod_cast this

end Sys2Proof.Machine
end

