-- ==== Sys2Proof/Laws/Numerics.lean ====
section
/-!
SUPPORT. Bounds on the primitives by exact comparison, the literals, `clamp`, `wrap1` and the functions of `NUM`.
-/

namespace Sys2Proof.Machine

variable {F : Fmt}

/-! ### When a rounded ratio overflows -/

theorem overflowBound_eq (F : Fmt) : overflowBound F = magUnits F (infMag F - 1) + magUnits F (infMag F) := by
  cases F <;> decide +kernel

/-- `roundWord` answers an infinity exactly from the overflow threshold on (00_scope.md R11). -/
theorem isInf_roundWord_iff (neg : Bool) {n d : Nat} (hd : 0 < d) :
    isInf (roundWord neg n d : Word F) = true ↔ overflowBound F * d ≤ 2 * n := by
  rw [isInf_iff, roundWord, magBits_pack _ (lt_of_le_of_lt (roundMag_le_infMag n d) (infMag_lt F)), overflowBound_eq]
  have key := infMag_le_roundMagRaw_iff (F := F) (n := n) hd
  have h2 : roundMag F n d = infMag F ↔ infMag F ≤ roundMagRaw F n d := by rw [roundMag_eq]; omega
  rw [h2, key]
  exact_mod_cast Iff.rfl

/-! ### Bounds: compare the exact result with a word, and the rounded result compares the same way -/

theorem orderKey_fadd_le {nan a b w : Word F} (ha : isFinite a = true) (hb : isFinite b = true) (hw : isNaN w = false)
    (h : valueUnits a + valueUnits b ≤ valueUnits w) : orderKey (fadd nan a b) ≤ orderKey w := by
  rw [orderKey_fadd ha hb, ← roundKey_valueUnits hw one_pos]
  exact roundKey_mono one_pos one_pos (by simpa using h)

theorem orderKey_le_fadd {nan a b w : Word F} (ha : isFinite a = true) (hb : isFinite b = true) (hw : isNaN w = false)
    (h : valueUnits w ≤ valueUnits a + valueUnits b) : orderKey w ≤ orderKey (fadd nan a b) := by
  rw [orderKey_fadd ha hb, ← roundKey_valueUnits hw one_pos]
  exact roundKey_mono one_pos one_pos (by simpa using h)

theorem orderKey_fsub_le {nan a b w : Word F} (ha : isFinite a = true) (hb : isFinite b = true) (hw : isNaN w = false)
    (h : valueUnits a - valueUnits b ≤ valueUnits w) : orderKey (fsub nan a b) ≤ orderKey w :=
  orderKey_fadd_le ha (by simpa using hb) hw (by rw [valueUnits_fneg]; omega)

theorem orderKey_le_fsub {nan a b w : Word F} (ha : isFinite a = true) (hb : isFinite b = true) (hw : isNaN w = false)
    (h : valueUnits w ≤ valueUnits a - valueUnits b) : orderKey w ≤ orderKey (fsub nan a b) :=
  orderKey_le_fadd ha (by simpa using hb) hw (by rw [valueUnits_fneg]; omega)

theorem orderKey_fmul_le {nan a b w : Word F} (ha : isFinite a = true) (hb : isFinite b = true) (hw : isNaN w = false)
    (h : valueUnits a * valueUnits b ≤ valueUnits w * 2 ^ unitExp F) : orderKey (fmul nan a b) ≤ orderKey w := by
  have hp := two_pow_unitExp_pos F
  rw [orderKey_fmul ha hb, ← roundKey_valueUnits hw hp]
  refine roundKey_mono hp hp (mul_le_mul_of_nonneg_right ?_ (by positivity))
  exact_mod_cast h

theorem orderKey_le_fmul {nan a b w : Word F} (ha : isFinite a = true) (hb : isFinite b = true) (hw : isNaN w = false)
    (h : valueUnits w * 2 ^ unitExp F ≤ valueUnits a * valueUnits b) : orderKey w ≤ orderKey (fmul nan a b) := by
  have hp := two_pow_unitExp_pos F
  rw [orderKey_fmul ha hb, ← roundKey_valueUnits hw hp]
  refine roundKey_mono hp hp (mul_le_mul_of_nonneg_right ?_ (by positivity))
  exact_mod_cast h

/-- A positive divisor. -/
def isPositive (b : Word F) : Bool := isFinite b && !isZero b && !signBit b

theorem isPositive_iff (b : Word F) : isPositive b = true ↔ isFinite b = true ∧ isZero b = false ∧ signBit b = false := by
  simp [isPositive, and_assoc]

theorem valueUnits_of_isPositive {b : Word F} (h : isPositive b = true) : valueUnits b = units b ∧ 0 < units b := by
  obtain ⟨_, h0, hs⟩ := (isPositive_iff b).1 h
  exact ⟨by simp [valueUnits, hs], units_pos h0⟩

theorem isPositive_of_valueUnits {b : Word F} (hf : isFinite b = true) (h : 0 < valueUnits b) : isPositive b = true := by
  rw [isPositive_iff]
  refine ⟨hf, ?_, ?_⟩
  · by_contra hz
    rw [Bool.not_eq_false, isZero_iff] at hz
    have : valueUnits b = 0 := by simp [valueUnits, units, hz, magUnits]
    omega
  · by_contra hs
    rw [Bool.not_eq_false] at hs
    unfold valueUnits at h; simp [hs] at h; omega

theorem orderKey_fdiv_le {nan a b w : Word F} (ha : isFinite a = true) (hb : isPositive b = true) (hw : isNaN w = false)
    (h : valueUnits a * 2 ^ unitExp F ≤ valueUnits w * valueUnits b) : orderKey (fdiv nan a b) ≤ orderKey w := by
  obtain ⟨hf, h0, hs⟩ := (isPositive_iff b).1 hb
  obtain ⟨hv, hp⟩ := valueUnits_of_isPositive hb
  rw [orderKey_fdiv ha hf h0 hs, ← roundKey_valueUnits hw hp]
  rw [hv] at h
  exact roundKey_mono hp hp (mul_le_mul_of_nonneg_right h (by positivity))

theorem orderKey_le_fdiv {nan a b w : Word F} (ha : isFinite a = true) (hb : isPositive b = true) (hw : isNaN w = false)
    (h : valueUnits w * valueUnits b ≤ valueUnits a * 2 ^ unitExp F) : orderKey w ≤ orderKey (fdiv nan a b) := by
  obtain ⟨hf, h0, hs⟩ := (isPositive_iff b).1 hb
  obtain ⟨hv, hp⟩ := valueUnits_of_isPositive hb
  rw [orderKey_fdiv ha hf h0 hs, ← roundKey_valueUnits hw hp]
  rw [hv] at h
  exact roundKey_mono hp hp (mul_le_mul_of_nonneg_right h (by positivity))

/-- A word between two finite ones is finite. -/
theorem isFinite_of_between {w lo hi : Word F} (hlo : isFinite lo = true) (hhi : isFinite hi = true)
    (h1 : orderKey lo ≤ orderKey w) (h2 : orderKey w ≤ orderKey hi) : isFinite w = true := by
  rw [isFinite_iff_key] at *; omega

/-! ### Literals -/

theorem roundMagRaw_limit (F : Fmt) : roundMagRaw F (2 ^ 24 * 2 ^ unitExp F) 1 < infMag F := by cases F <;> decide +kernel

/-- A whole number of up to 24 bits is exact in both widths (00_scope.md R12). -/
theorem valueUnits_lit {n : Nat} (h : n < 2 ^ 24) : valueUnits (lit n : Word F) = n * 2 ^ unitExp F ∧ isFinite (lit n : Word F) = true := by
  have hf : n < 2 ^ (F.fracBits + 1) := lt_of_lt_of_le h (by cases F <;> decide)
  have e := magUnits_roundMagRaw_exact (F := F) (c := n) (j := unitExp F) (d := 1) one_pos hf
  have hlim : roundMagRaw F (n * 2 ^ unitExp F) 1 ≤ roundMagRaw F (2 ^ 24 * 2 ^ unitExp F) 1 :=
    roundMagRaw_mono one_pos one_pos (by rw [Nat.mul_one, Nat.mul_one]; exact Nat.mul_le_mul_right _ h.le)
  have hlt := lt_of_le_of_lt hlim (roundMagRaw_limit F)
  have hr : roundMag F (n * 2 ^ unitExp F) 1 = roundMagRaw F (n * 2 ^ unitExp F) 1 := by rw [roundMag_eq]; omega
  rw [Nat.mul_one] at e
  have hw := lt_trans hlt (infMag_lt F)
  constructor
  · unfold valueUnits units lit roundWord
    rw [signBit_pack _ (by rw [hr]; exact hw), magBits_pack _ (by rw [hr]; exact hw), hr, e]
    simp
  · rw [isFinite_iff]; unfold lit roundWord; rw [magBits_pack _ (by rw [hr]; exact hw), hr]; exact hlt

theorem isFinite_lit {n : Nat} (h : n < 2 ^ 24) : isFinite (lit n : Word F) = true := (valueUnits_lit h).2

theorem isPositive_lit {n : Nat} (h : n < 2 ^ 24) (h0 : 0 < n) : isPositive (lit n : Word F) = true := by
  refine isPositive_of_valueUnits (isFinite_lit h) ?_
  rw [(valueUnits_lit h).1]; positivity

theorem lit_zero : (lit 0 : Word F) = 0 := by
  unfold lit roundWord; rw [Nat.zero_mul, roundMag_zero]; exact pack_false_zero

/-- The fractional literals: 0.5 and 0.25 are exact, 0.1, 0.01 and 0.3 lie where they should. -/
theorem valueUnits_half (F : Fmt) : valueUnits (lit 1 2 : Word F) * 2 = 2 ^ unitExp F ∧ isFinite (lit 1 2 : Word F) = true := by
  cases F <;> exact ⟨by decide +kernel, by decide +kernel⟩

theorem valueUnits_quarter (F : Fmt) :
    valueUnits (lit 1 4 : Word F) * 4 = 2 ^ unitExp F ∧ isFinite (lit 1 4 : Word F) = true := by
  cases F <;> exact ⟨by decide +kernel, by decide +kernel⟩

theorem isPositive_tenth (F : Fmt) : isPositive (lit 1 10 : Word F) = true := by cases F <;> decide +kernel
theorem isPositive_hundredth (F : Fmt) : isPositive (lit 1 100 : Word F) = true := by cases F <;> decide +kernel
theorem isPositive_half (F : Fmt) : isPositive (lit 1 2 : Word F) = true := by cases F <;> decide +kernel
theorem isPositive_quarter (F : Fmt) : isPositive (lit 1 4 : Word F) = true := by cases F <;> decide +kernel
theorem isPositive_three_tenths (F : Fmt) : isPositive (lit 3 10 : Word F) = true := by cases F <;> decide +kernel

theorem isPositive_twoPi (F : Fmt) : isPositive (twoPi F) = true := by cases F <;> decide +kernel

theorem isFinite_of_isPositive {b : Word F} (h : isPositive b = true) : isFinite b = true := ((isPositive_iff b).1 h).1
theorem isZero_of_isPositive {b : Word F} (h : isPositive b = true) : isZero b = false := ((isPositive_iff b).1 h).2.1

/-! ### Ranges and `clamp` -/

theorem inRange_iff (w lo hi : Word F) : inRange w lo hi = true ↔
    isNaN w = false ∧ isNaN lo = false ∧ isNaN hi = false ∧ orderKey lo ≤ orderKey w ∧ orderKey w ≤ orderKey hi := by
  simp [inRange, fge_iff]; tauto

theorem isPhase_iff (w : Word F) : isPhase w = true ↔ isNaN w = false ∧ 0 ≤ valueUnits w ∧ valueUnits w < 2 ^ unitExp F := by
  have h1 := valueUnits_le_iff (0#F.width) w
  have h2 := valueUnits_lt_iff w (lit 1)
  have h3 := valueUnits_lit (F := F) (n := 1) (by norm_num)
  have h4 := isNaN_of_isFinite h3.2
  have h5 := isNaN_of_isFinite (isFinite_zero (F := F))
  rw [h3.1] at h2
  simp at h1 h2 h5
  simp [isPhase, fge_iff, flt_iff, h4, h5]
  tauto

theorem isFinite_of_isPhase {w : Word F} (h : isPhase w = true) : isFinite w = true := by
  obtain ⟨_, h1, h2⟩ := (isPhase_iff w).1 h
  have h3 := valueUnits_lit (F := F) (n := 1) (by norm_num)
  refine isFinite_of_between (isFinite_zero (F := F)) h3.2 ?_ ?_
  · rw [← valueUnits_le_iff]; simpa using h1
  · rw [← valueUnits_le_iff, h3.1]; simpa using h2.le

/-- What `clamp` answers (00_scope.md R15). -/
theorem clamp_cases (v lo hi : Word F) :
    (clamp v lo hi = lo ∧ flt v lo = true) ∨ (clamp v lo hi = hi ∧ flt v lo = false ∧ fgt v hi = true) ∨
      (clamp v lo hi = v ∧ flt v lo = false ∧ fgt v hi = false) := by
  unfold clamp
  split
  · exact .inl ⟨rfl, ‹_›⟩
  · split
    · exact .inr (.inl ⟨rfl, by simpa using ‹¬flt v lo = true›, ‹_›⟩)
    · exact .inr (.inr ⟨rfl, by simpa using ‹¬flt v lo = true›, by simpa using ‹¬fgt v hi = true›⟩)

theorem inRange_clamp {v lo hi : Word F} (hv : isNaN v = false) (hlo : isNaN lo = false) (hhi : isNaN hi = false)
    (h : orderKey lo ≤ orderKey hi) : inRange (clamp v lo hi) lo hi = true := by
  rw [inRange_iff]
  rcases clamp_cases v lo hi with ⟨e, _⟩ | ⟨e, _⟩ | ⟨e, h1, h2⟩
  · rw [e]; exact ⟨hlo, hlo, hhi, le_rfl, h⟩
  · rw [e]; exact ⟨hhi, hlo, hhi, h, le_rfl⟩
  · rw [e]
    refine ⟨hv, hlo, hhi, ?_, ?_⟩
    · by_contra hc
      rw [← Bool.not_eq_true, flt_iff] at h1
      exact h1 ⟨hv, hlo, by omega⟩
    · by_contra hc
      rw [fgt, ← Bool.not_eq_true, flt_iff] at h2
      exact h2 ⟨hhi, hv, by omega⟩

/-- A word in range is not changed. -/
theorem clamp_of_inRange {v lo hi : Word F} (h : inRange v lo hi = true) : clamp v lo hi = v := by
  obtain ⟨_, _, _, h1, h2⟩ := (inRange_iff v lo hi).1 h
  rcases clamp_cases v lo hi with ⟨_, e⟩ | ⟨_, _, e⟩ | ⟨e, _⟩
  · rw [flt_iff] at e; omega
  · rw [fgt, flt_iff] at e; omega
  · exact e

/-! ### `wrap1` -/

theorem magUnits_lt_one {m : Nat} (h : magUnits F m < 2 ^ unitExp F) : m < infMag F := by
  have h3 := valueUnits_lit (F := F) (n := 1) (by norm_num)
  have hone : units (lit 1 : Word F) = 2 ^ unitExp F := by
    have := valueUnits_natAbs (lit 1 : Word F); rw [h3.1] at this; simpa [Int.natAbs_pow] using this.symm
  have hf := (isFinite_iff _).1 h3.2
  have := (magUnits_strictMono F).lt_iff_lt (a := m) (b := magBits (lit 1 : Word F))
  unfold units at hone
  omega

/-- The remainder of a value modulo 1 is representable: `wrap1` is exact (00_scope.md R16). -/
theorem units_mod_one_exact (a : Word F) :
    magUnits F (roundMag F (units a % 2 ^ unitExp F) 1) = units a % 2 ^ unitExp F ∧
      roundMag F (units a % 2 ^ unitExp F) 1 < infMag F := by
  have hsplit : ∃ c j, units a % 2 ^ unitExp F = c * 2 ^ j ∧ c < 2 ^ (F.fracBits + 1) := by
    obtain ⟨e, c, hm, hc, he⟩ := exists_split F (magBits a)
    unfold units
    rw [hm, magUnits_split hc he]
    rcases Nat.lt_or_ge e (unitExp F) with h | h
    · obtain ⟨i, hi⟩ := Nat.exists_eq_add_of_le h.le
      refine ⟨c % 2 ^ i, e, ?_, lt_of_le_of_lt (Nat.mod_le _ _) hc⟩
      rw [hi, pow_add, Nat.mul_comm (2 ^ e) (2 ^ i), Nat.mul_mod_mul_right]
    · refine ⟨0, 0, ?_, by positivity⟩
      obtain ⟨i, rfl⟩ := Nat.exists_eq_add_of_le h
      rw [pow_add, ← mul_assoc, Nat.mul_comm c, mul_assoc, Nat.mul_mod_right]; simp
  obtain ⟨c, j, hu, hc⟩ := hsplit
  have e := magUnits_roundMagRaw_exact (F := F) (j := j) (d := 1) one_pos hc
  rw [Nat.mul_one, ← hu] at e
  have hlt : roundMagRaw F (units a % 2 ^ unitExp F) 1 < infMag F :=
    magUnits_lt_one (by rw [e]; exact Nat.mod_lt _ (two_pow_unitExp_pos F))
  have hr : roundMag F (units a % 2 ^ unitExp F) 1 = roundMagRaw F (units a % 2 ^ unitExp F) 1 := by rw [roundMag_eq]; omega
  rw [hr]
  exact ⟨e, hlt⟩

/-- The value of `wrap1` on a finite word (00_scope.md R16): the remainder modulo 1, with the word's sign. -/
theorem valueUnits_wrap1 {nan a : Word F} {zs : Bool} (ha : isFinite a = true) :
    valueUnits (wrap1 nan zs a) =
        (if signBit a then -((units a % 2 ^ unitExp F : Nat) : Int) else (units a % 2 ^ unitExp F : Nat)) ∧
      isFinite (wrap1 nan zs a) = true := by
  obtain ⟨e, hlt⟩ := units_mod_one_exact a
  have hw := lt_trans hlt (infMag_lt F)
  have hpos : (0 : Nat) < 2 ^ (F.width - 1) := by positivity
  unfold wrap1
  simp only [ha, Bool.not_true, Bool.false_eq_true, if_false]
  split
  · rename_i hz
    simp only [Bool.and_eq_true, isZero_iff] at hz
    have hu : units a = 0 := by simp [units, hz.1, magUnits]
    constructor
    · rw [hu]; simp [valueUnits, units, magBits_pack zs hpos, magUnits]
    · rw [isFinite_iff, magBits_pack _ hpos]; exact infMag_pos F
  · constructor
    · unfold valueUnits
      rw [roundWord, signBit_pack _ hw]
      have : units (pack (signBit a) (roundMag F (units a % 2 ^ unitExp F) 1) : Word F) = units a % 2 ^ unitExp F := by
        unfold units at *; rw [magBits_pack _ hw, e]
      rw [this]
    · rw [isFinite_iff, roundWord, magBits_pack _ hw]; exact hlt

/-- The phase invariant (10_state.md R23): a finite sum that is not negative wraps into [0, 1). -/
theorem isPhase_wrap1 {nan a : Word F} {zs : Bool} (ha : isFinite a = true) (h : 0 ≤ valueUnits a) :
    isPhase (wrap1 nan zs a) = true := by
  obtain ⟨hv, hf⟩ := valueUnits_wrap1 (nan := nan) (zs := zs) ha
  have hlt : units a % 2 ^ unitExp F < 2 ^ unitExp F := Nat.mod_lt _ (two_pow_unitExp_pos F)
  rw [isPhase_iff]
  refine ⟨isNaN_of_isFinite hf, ?_, ?_⟩
  · rw [hv]
    split
    · rename_i hs
      have : units a = 0 := by unfold valueUnits at h; simp [hs] at h; omega
      simp [this]
    · positivity
  · rw [hv]
    split
    · have : (0 : Int) < 2 ^ unitExp F := by positivity
      omega
    · exact_mod_cast hlt

/-! ### `NUM` -/

theorem magBits_one_lt (F : Fmt) : magBits (lit 1 : Word F) < infMag F :=
  (isFinite_iff _).1 (isFinite_lit (by norm_num))

theorem unitBounded_bound (w : Word F) : magBits (unitBounded w) ≤ magBits (lit 1 : Word F) := by
  unfold unitBounded; split
  · assumption
  · simp

theorem key_bound_of_magBits {w : Word F} (h : magBits w ≤ magBits (lit 1 : Word F)) :
    isFinite w = true ∧ -orderKey (lit 1 : Word F) ≤ orderKey w ∧ orderKey w ≤ orderKey (lit 1 : Word F) := by
  have h1 := magBits_one_lt F
  have hk : orderKey (lit 1 : Word F) = magBits (lit 1 : Word F) := by
    have := ((isPositive_iff _).1 (isPositive_lit (F := F) (n := 1) (by norm_num) one_pos)).2.2
    simp [orderKey, this]
  refine ⟨by rw [isFinite_iff]; omega, ?_, ?_⟩ <;> rw [hk] <;> unfold orderKey <;> split <;> omega

/-- `NUM.finite` and `NUM.bound` for the sine (00_scope.md R13). -/
theorem fsin_bound (N : Num F) {nan a : Word F} (ha : isFinite a = true) :
    isFinite (fsin N nan a) = true ∧ -orderKey (lit 1 : Word F) ≤ orderKey (fsin N nan a) ∧
      orderKey (fsin N nan a) ≤ orderKey (lit 1 : Word F) := by
  apply key_bound_of_magBits
  unfold fsin
  simp only [ha, Bool.not_true, Bool.false_eq_true, if_false]
  split
  · simp
  · exact unitBounded_bound _

/-- `NUM.finite` and `NUM.bound` for the cosine (00_scope.md R13). -/
theorem fcos_bound (N : Num F) {nan a : Word F} (ha : isFinite a = true) :
    isFinite (fcos N nan a) = true ∧ -orderKey (lit 1 : Word F) ≤ orderKey (fcos N nan a) ∧
      orderKey (fcos N nan a) ≤ orderKey (lit 1 : Word F) := by
  apply key_bound_of_magBits
  unfold fcos
  simp only [ha, Bool.not_true, Bool.false_eq_true, if_false]
  split
  · exact le_rfl
  · exact unitBounded_bound _

/-- `NUM.finite` and `NUM.bound` for the hyperbolic tangent (00_scope.md R13). -/
theorem ftanh_bound (N : Num F) {nan a : Word F} (ha : isFinite a = true) :
    isFinite (ftanh N nan a) = true ∧ -orderKey (lit 1 : Word F) ≤ orderKey (ftanh N nan a) ∧
      orderKey (ftanh N nan a) ≤ orderKey (lit 1 : Word F) := by
  apply key_bound_of_magBits
  unfold ftanh
  simp only [isNaN_of_isFinite ha, isInf_of_isFinite ha, Bool.false_eq_true, if_false]
  split
  · simp
  · exact unitBounded_bound _

theorem drawEnv_valid (F : Fmt) (n : Nat) : (drawEnv F n).Valid := ⟨rfl, fun _ => isNaN_quietNaN _⟩

theorem isFinite_finiteParam (w : Word F) : isFinite (finiteParam w) = true := by
  unfold finiteParam; split
  · assumption
  · exact isFinite_zero

end Sys2Proof.Machine
end

