-- ==== Sys2Proof/Laws/Components.lean ====
section
/-!
SUPPORT. What each component's operation can answer, said once: ranges, finiteness, exact halves, the filter's two exits. The
statements about the commands cite these and unfold no formula.
-/

namespace Sys2Proof.Machine

variable {F : Fmt}

/-! ### Ranges of the literals and the sign of a range -/

theorem isNaN_lit {n : Nat} (h : n < 2 ^ 24) : isNaN (lit n : Word F) = false := isNaN_of_isFinite (isFinite_lit h)

/-- Whole-number bounds of a range, in units. -/
theorem inRange_lit_iff {w : Word F} {a b : Nat} (ha : a < 2 ^ 24) (hb : b < 2 ^ 24) : inRange w (lit a) (lit b) = true ↔
    isFinite w = true ∧ a * 2 ^ unitExp F ≤ valueUnits w ∧ valueUnits w ≤ b * 2 ^ unitExp F := by
  rw [inRange_iff, ← valueUnits_le_iff, ← valueUnits_le_iff, (valueUnits_lit ha).1, (valueUnits_lit hb).1]
  have h1 := isNaN_lit (F := F) ha
  have h2 := isNaN_lit (F := F) hb
  constructor
  · rintro ⟨_, _, _, h3, h4⟩
    refine ⟨isFinite_of_between (isFinite_lit ha) (isFinite_lit hb) ?_ ?_, h3, h4⟩
    · rw [← valueUnits_le_iff, (valueUnits_lit ha).1]; exact h3
    · rw [← valueUnits_le_iff, (valueUnits_lit hb).1]; exact h4
  · rintro ⟨hf, h3, h4⟩
    exact ⟨isNaN_of_isFinite hf, h1, h2, h3, h4⟩

/-- A range symmetric about zero, in units. -/
theorem inRange_symm_iff {w : Word F} {b : Nat} (hb : b < 2 ^ 24) : inRange w (fneg (lit b)) (lit b) = true ↔
    isFinite w = true ∧ -(b * 2 ^ unitExp F : Int) ≤ valueUnits w ∧ valueUnits w ≤ b * 2 ^ unitExp F := by
  rw [inRange_iff, ← valueUnits_le_iff, ← valueUnits_le_iff, valueUnits_fneg, (valueUnits_lit hb).1]
  have h2 := isNaN_lit (F := F) hb
  have hn : isFinite (fneg (lit b : Word F)) = true := by rw [isFinite_fneg]; exact isFinite_lit hb
  constructor
  · rintro ⟨_, _, _, h3, h4⟩
    refine ⟨isFinite_of_between hn (isFinite_lit hb) ?_ ?_, h3, h4⟩
    · rw [← valueUnits_le_iff, valueUnits_fneg, (valueUnits_lit hb).1]; exact h3
    · rw [← valueUnits_le_iff, (valueUnits_lit hb).1]; exact h4
  · rintro ⟨hf, h3, h4⟩
    exact ⟨isNaN_of_isFinite hf, by simpa using h2, h2, h3, h4⟩

/-- Upper and lower bounds of a sum, a product and a quotient, in units, against a word. -/
theorem valueUnits_fadd_le {nan a b w : Word F} (ha : isFinite a = true) (hb : isFinite b = true) (hw : isFinite w = true)
    (h : valueUnits a + valueUnits b ≤ valueUnits w) : valueUnits (fadd nan a b) ≤ valueUnits w :=
  (valueUnits_le_iff _ _).2 (orderKey_fadd_le ha hb (isNaN_of_isFinite hw) h)

theorem valueUnits_le_fadd {nan a b w : Word F} (ha : isFinite a = true) (hb : isFinite b = true) (hw : isFinite w = true)
    (h : valueUnits w ≤ valueUnits a + valueUnits b) : valueUnits w ≤ valueUnits (fadd nan a b) :=
  (valueUnits_le_iff _ _).2 (orderKey_le_fadd ha hb (isNaN_of_isFinite hw) h)

theorem valueUnits_fsub_le {nan a b w : Word F} (ha : isFinite a = true) (hb : isFinite b = true) (hw : isFinite w = true)
    (h : valueUnits a - valueUnits b ≤ valueUnits w) : valueUnits (fsub nan a b) ≤ valueUnits w :=
  (valueUnits_le_iff _ _).2 (orderKey_fsub_le ha hb (isNaN_of_isFinite hw) h)

theorem valueUnits_le_fsub {nan a b w : Word F} (ha : isFinite a = true) (hb : isFinite b = true) (hw : isFinite w = true)
    (h : valueUnits w ≤ valueUnits a - valueUnits b) : valueUnits w ≤ valueUnits (fsub nan a b) :=
  (valueUnits_le_iff _ _).2 (orderKey_le_fsub ha hb (isNaN_of_isFinite hw) h)

theorem valueUnits_fmul_le {nan a b w : Word F} (ha : isFinite a = true) (hb : isFinite b = true) (hw : isFinite w = true)
    (h : valueUnits a * valueUnits b ≤ valueUnits w * 2 ^ unitExp F) : valueUnits (fmul nan a b) ≤ valueUnits w :=
  (valueUnits_le_iff _ _).2 (orderKey_fmul_le ha hb (isNaN_of_isFinite hw) h)

theorem valueUnits_le_fmul {nan a b w : Word F} (ha : isFinite a = true) (hb : isFinite b = true) (hw : isFinite w = true)
    (h : valueUnits w * 2 ^ unitExp F ≤ valueUnits a * valueUnits b) : valueUnits w ≤ valueUnits (fmul nan a b) :=
  (valueUnits_le_iff _ _).2 (orderKey_le_fmul ha hb (isNaN_of_isFinite hw) h)

theorem valueUnits_fdiv_le {nan a b w : Word F} (ha : isFinite a = true) (hb : isPositive b = true) (hw : isFinite w = true)
    (h : valueUnits a * 2 ^ unitExp F ≤ valueUnits w * valueUnits b) : valueUnits (fdiv nan a b) ≤ valueUnits w :=
  (valueUnits_le_iff _ _).2 (orderKey_fdiv_le ha hb (isNaN_of_isFinite hw) h)

theorem valueUnits_le_fdiv {nan a b w : Word F} (ha : isFinite a = true) (hb : isPositive b = true) (hw : isFinite w = true)
    (h : valueUnits w * valueUnits b ≤ valueUnits a * 2 ^ unitExp F) : valueUnits w ≤ valueUnits (fdiv nan a b) :=
  (valueUnits_le_iff _ _).2 (orderKey_le_fdiv ha hb (isNaN_of_isFinite hw) h)

/-- A word between two whole numbers' words is finite. -/
theorem isFinite_of_valueUnits {w lo hi : Word F} (hlo : isFinite lo = true) (hhi : isFinite hi = true)
    (h1 : valueUnits lo ≤ valueUnits w) (h2 : valueUnits w ≤ valueUnits hi) : isFinite w = true :=
  isFinite_of_between hlo hhi ((valueUnits_le_iff _ _).1 h1) ((valueUnits_le_iff _ _).1 h2)

/-- A result that is no NaN does not depend on the NaN at hand. -/
theorem fadd_nan (n₁ n₂ : Word F) {a b : Word F} (ha : isFinite a = true) (hb : isFinite b = true) :
    fadd n₁ a b = fadd n₂ a b := by
  unfold fadd
  simp only [isNaN_of_isFinite ha, isNaN_of_isFinite hb, isInf_of_isFinite ha, isInf_of_isFinite hb]
  simp

theorem fdiv_nan (n₁ n₂ : Word F) {a b : Word F} (ha : isFinite a = true) (hb : isFinite b = true) (h0 : isZero b = false) :
    fdiv n₁ a b = fdiv n₂ a b := by
  unfold fdiv
  simp only [isNaN_of_isFinite ha, isNaN_of_isFinite hb, isInf_of_isFinite ha, isInf_of_isFinite hb, h0]
  simp

theorem fsub_nan (n₁ n₂ : Word F) {a b : Word F} (ha : isFinite a = true) (hb : isFinite b = true) :
    fsub n₁ a b = fsub n₂ a b := fadd_nan n₁ n₂ ha (by simpa using hb)

theorem fmul_nan (n₁ n₂ : Word F) {a b : Word F} (ha : isFinite a = true) (hb : isFinite b = true) :
    fmul n₁ a b = fmul n₂ a b := by
  unfold fmul
  simp only [isNaN_of_isFinite ha, isNaN_of_isFinite hb, isInf_of_isFinite ha, isInf_of_isFinite hb]
  simp

theorem signBit_fdiv {nan a b : Word F} (ha : isFinite a = true) (hb : isFinite b = true) (h0 : isZero b = false) :
    signBit (fdiv nan a b) = (signBit a != signBit b) := by
  unfold fdiv
  simp only [isNaN_of_isFinite ha, isNaN_of_isFinite hb, isInf_of_isFinite ha, isInf_of_isFinite hb, h0]
  simp only [Bool.or_self, Bool.false_eq_true, if_false]
  exact signBit_pack _ (lt_of_le_of_lt (roundMag_le_infMag _ _) (infMag_lt F))

theorem signBit_fmul {nan a b : Word F} (ha : isFinite a = true) (hb : isFinite b = true) :
    signBit (fmul nan a b) = (signBit a != signBit b) := by
  unfold fmul
  simp only [isNaN_of_isFinite ha, isNaN_of_isFinite hb, isInf_of_isFinite ha, isInf_of_isFinite hb]
  simp only [Bool.or_self, Bool.false_eq_true, if_false]
  exact signBit_pack _ (lt_of_le_of_lt (roundMag_le_infMag _ _) (infMag_lt F))

/-- A sum of words that are not negative, one of which has no sign, has no sign. -/
theorem signBit_fadd {nan a b : Word F} (ha : isFinite a = true) (hb : isFinite b = true) (h : 0 ≤ valueUnits a)
    (hb0 : 0 ≤ valueUnits b) (hs : signBit b = false) : signBit (fadd nan a b) = false := by
  unfold fadd
  simp only [isNaN_of_isFinite ha, isNaN_of_isFinite hb, isInf_of_isFinite ha, isInf_of_isFinite hb]
  simp only [Bool.or_self, Bool.false_eq_true, if_false]
  split
  · rw [hs, Bool.and_false, signBit_pack _ (by positivity)]
  · rw [roundWord, signBit_pack _ (lt_of_le_of_lt (roundMag_le_infMag _ _) (infMag_lt F)), decide_eq_false_iff_not]
    omega

/-! ### Exact neutral operations -/

/-- A word that is not a zero has an order key that is not 0. -/
theorem orderKey_ne_zero {a : Word F} (h : isZero a = false) : orderKey a ≠ 0 := by
  have := orderKey_natAbs a
  intro hc
  rw [hc] at this
  rw [(isZero_iff a).2 (by simpa using this.symm)] at h; cases h

/-- A product with 1 is the other factor. -/
theorem fmul_one {nan a : Word F} (ha : isFinite a = true) : fmul nan (lit 1) a = a := by
  have one := valueUnits_lit (F := F) (n := 1) (by norm_num)
  have o := isPositive_lit (F := F) (n := 1) (by norm_num) (by norm_num)
  have hs : signBit (fmul nan (lit 1) a) = signBit a := by
    rw [signBit_fmul one.2 ha, ((isPositive_iff _).1 o).2.2]; simp
  have hk : orderKey (fmul nan (lit 1) a) = orderKey a := by
    rw [orderKey_fmul one.2 ha, one.1, ← roundKey_valueUnits (isNaN_of_isFinite ha) (two_pow_unitExp_pos F)]
    congr 1; push_cast; ring
  refine word_ext hs ?_
  rw [← orderKey_natAbs, hk, orderKey_natAbs]

theorem fmul_one_right {nan a : Word F} (ha : isFinite a = true) : fmul nan a (lit 1) = a := by
  have one := valueUnits_lit (F := F) (n := 1) (by norm_num)
  have o := isPositive_lit (F := F) (n := 1) (by norm_num) (by norm_num)
  have hs : signBit (fmul nan a (lit 1)) = signBit a := by
    rw [signBit_fmul ha one.2, ((isPositive_iff _).1 o).2.2]; simp
  have hk : orderKey (fmul nan a (lit 1)) = orderKey a := by
    rw [orderKey_fmul ha one.2, one.1, ← roundKey_valueUnits (isNaN_of_isFinite ha) (two_pow_unitExp_pos F)]
    congr 1; push_cast; ring
  refine word_ext hs ?_
  rw [← orderKey_natAbs, hk, orderKey_natAbs]

/-- A product with +0 is a zero of the other factor's sign. -/
theorem fmul_zero_left {nan a : Word F} (ha : isFinite a = true) : fmul nan (lit 0) a = pack (signBit a) 0 := by
  have z := valueUnits_lit (F := F) (n := 0) (by norm_num)
  have hs : signBit (fmul nan (lit 0) a) = signBit a := by
    rw [signBit_fmul z.2 ha, lit_zero]; simp
  have hk : orderKey (fmul nan (lit 0) a) = 0 := by
    rw [orderKey_fmul z.2 ha, z.1]; simp [roundKey, roundMag_zero]
  refine word_ext (by rw [hs, signBit_pack _ (by positivity)]) ?_
  rw [← orderKey_natAbs, hk, magBits_pack _ (by positivity)]; rfl

/-- A sum with a zero is the other term, where that is not a zero. -/
theorem fadd_zero_word {nan a z : Word F} (ha : isFinite a = true) (hz : isZero z = true) (h0 : isZero a = false) :
    fadd nan a z = a ∧ fadd nan z a = a := by
  have zf : isFinite z = true := by rw [isFinite_iff, (isZero_iff z).1 hz]; exact infMag_pos F
  have zv : valueUnits z = 0 := by unfold valueUnits units; rw [(isZero_iff z).1 hz]; simp [magUnits]
  have k1 : orderKey (fadd nan a z) = orderKey a := by
    rw [orderKey_fadd ha zf, zv, ← roundKey_valueUnits (isNaN_of_isFinite ha) one_pos]; congr 1; simp
  have k2 : orderKey (fadd nan z a) = orderKey a := by
    rw [orderKey_fadd zf ha, zv, ← roundKey_valueUnits (isNaN_of_isFinite ha) one_pos]; congr 1; simp
  exact ⟨eq_of_orderKey k1 (by rw [k1]; exact orderKey_ne_zero h0), eq_of_orderKey k2 (by rw [k2]; exact orderKey_ne_zero h0)⟩

/-! ### No sum with a term of at most 1 overflows -/

theorem abs_valueUnits_le {w : Word F} (h : isFinite w = true) : |valueUnits w| ≤ magUnits F (infMag F - 1) := by
  have hm := (isFinite_iff w).1 h
  have := (magUnits_strictMono F).monotone (show magBits w ≤ infMag F - 1 by omega)
  have h1 := valueUnits_natAbs w
  unfold units at h1
  rw [Int.abs_eq_natAbs]; omega

/-- The largest finite word absorbs 1: an infinity would lie further from the sum. -/
theorem isFinite_fadd_unit {nan a b : Word F} (ha : isFinite a = true) (hb : isFinite b = true)
    (h : |valueUnits a| ≤ 2 ^ unitExp F) : isFinite (fadd nan a b) = true := by
  have gap : magUnits F (infMag F - 1) + 3 * 2 ^ unitExp F ≤ magUnits F (infMag F) := by cases F <;> decide +kernel
  have hM := abs_valueUnits_le hb
  have pk : (0 : Int) < 2 ^ unitExp F := by positivity
  by_contra hc
  rw [Bool.not_eq_true, isFinite_eq_false_iff, ← orderKey_natAbs, orderKey_fadd ha hb, roundKey] at hc
  obtain ⟨n, hn⟩ : ∃ n : Nat, n = (valueUnits a + valueUnits b).natAbs := ⟨_, rfl⟩
  rw [← hn] at hc
  have hge : infMag F ≤ roundMagRaw F n 1 := by
    have : infMag F ≤ roundMag F n 1 := by split at hc <;> simpa using hc
    rw [roundMag_eq] at this; omega
  have hmono := (magUnits_strictMono F).monotone hge
  have near := roundMagRaw_nearest (F := F) (n := n) one_pos (infMag F - 1)
  have hnM : (n : Int) ≤ magUnits F (infMag F - 1) + 2 ^ unitExp F := by
    have := abs_add_le (valueUnits a) (valueUnits b)
    rw [Int.abs_eq_natAbs, ← hn] at this; omega
  have g' : (magUnits F (infMag F - 1) : Int) + 3 * 2 ^ unitExp F ≤ magUnits F (infMag F) := by exact_mod_cast gap
  have m' : (magUnits F (infMag F) : Int) ≤ magUnits F (roundMagRaw F n 1) := by exact_mod_cast hmono
  push_cast at near
  rw [mul_one, mul_one, abs_of_nonneg (by omega)] at near
  -- the sum is at most the largest finite value plus 1, or below it; either way that value is nearer
  have n0 : (0 : Int) ≤ n := by positivity
  rcases abs_cases ((magUnits F (infMag F - 1) : Int) - n) with ⟨e, _⟩ | ⟨e, _⟩ <;> rw [e] at near <;> omega

theorem isFinite_fadd_unit' {nan a b : Word F} (ha : isFinite a = true) (hb : isFinite b = true)
    (h : |valueUnits b| ≤ 2 ^ unitExp F) : isFinite (fadd nan a b) = true := by
  have := isFinite_fadd_unit (nan := nan) hb ha h
  rw [isFinite_iff_key, orderKey_fadd hb ha, add_comm, ← orderKey_fadd (nan := nan) ha hb, ← isFinite_iff_key] at this
  exact this

/-- A sum that exceeds 1 by at most a quarter of 1's last place rounds to at most 1. -/
theorem abs_fadd_near_one {nan a b : Word F} (ha : isFinite a = true) (hb : isFinite b = true)
    (h : |valueUnits a + valueUnits b| ≤ 2 ^ unitExp F + 2 ^ (unitExp F - F.fracBits - 2)) :
    isFinite (fadd nan a b) = true ∧ |valueUnits (fadd nan a b)| ≤ 2 ^ unitExp F := by
  have one := valueUnits_lit (F := F) (n := 1) (by norm_num)
  have hm1 : magUnits F (magBits (lit 1 : Word F)) = 2 ^ unitExp F := by cases F <;> decide +kernel
  have hm2 : magUnits F (magBits (lit 1 : Word F) + 1) = 2 ^ unitExp F + 4 * 2 ^ (unitExp F - F.fracBits - 2) := by
    cases F <;> decide +kernel
  have pk : (0 : Int) < 2 ^ (unitExp F - F.fracBits - 2) := by positivity
  obtain ⟨n, hn⟩ : ∃ n : Nat, n = (valueUnits a + valueUnits b).natAbs := ⟨_, rfl⟩
  rw [Int.abs_eq_natAbs, ← hn] at h
  -- the rounded magnitude is at most that of 1
  have hle : roundMagRaw F n 1 ≤ magBits (lit 1 : Word F) := by
    by_contra hc
    have hmono := (magUnits_strictMono F).monotone (show magBits (lit 1 : Word F) + 1 ≤ roundMagRaw F n 1 by omega)
    have near := roundMagRaw_nearest (F := F) (n := n) one_pos (magBits (lit 1 : Word F))
    rw [hm2] at hmono
    rw [hm1] at near
    have m' : (2 ^ unitExp F + 4 * 2 ^ (unitExp F - F.fracBits - 2) : Int) ≤ magUnits F (roundMagRaw F n 1) := by exact_mod_cast hmono
    push_cast at near
    rw [mul_one, mul_one, abs_of_nonneg (by omega)] at near
    by_cases hlt : (n : Int) ≤ 2 ^ unitExp F
    · rw [abs_of_nonneg (by omega)] at near; omega
    · rw [abs_of_neg (by omega)] at near; omega
  have hkey : (orderKey (fadd nan a b)).natAbs ≤ magBits (lit 1 : Word F) := by
    rw [orderKey_fadd ha hb, roundKey, ← hn]
    have : roundMag F n 1 ≤ magBits (lit 1 : Word F) := by rw [roundMag_eq]; omega
    split <;> simpa using this
  rw [orderKey_natAbs] at hkey
  refine ⟨(isFinite_iff _).2 (lt_of_le_of_lt hkey (magBits_one_lt F)), ?_⟩
  have := (magUnits_strictMono F).monotone hkey
  rw [hm1] at this
  rw [Int.abs_eq_natAbs, valueUnits_natAbs]
  unfold units
  exact_mod_cast this

/-- The complement `1 - r` of a ratio, rounded, exceeds it by at most a quarter of 1's last place. -/
theorem fsub_one_bounds {nan r : Word F} (hr : isFinite r = true) (h0 : 0 ≤ valueUnits r) (h1 : valueUnits r ≤ 2 ^ unitExp F) :
    isFinite (fsub nan (lit 1) r) = true ∧ 0 ≤ valueUnits (fsub nan (lit 1) r) ∧
      valueUnits (fsub nan (lit 1) r) + valueUnits r ≤ 2 ^ unitExp F + 2 ^ (unitExp F - F.fracBits - 2) := by
  have one := valueUnits_lit (F := F) (n := 1) (by norm_num)
  have zero := valueUnits_lit (F := F) (n := 0) (by norm_num)
  have o1 : valueUnits (lit 1 : Word F) = 2 ^ unitExp F := by rw [one.1]; push_cast; ring
  have u := valueUnits_fsub_le (nan := nan) (w := lit 1) one.2 hr one.2 (by rw [o1]; omega)
  have l := valueUnits_le_fsub (nan := nan) (w := lit 0) one.2 hr zero.2 (by rw [o1, zero.1]; push_cast; omega)
  have hf := isFinite_of_valueUnits zero.2 one.2 l u
  have l0 : 0 ≤ valueUnits (fsub nan (lit 1) r) := by rw [zero.1] at l; simpa using l
  refine ⟨hf, l0, ?_⟩
  obtain ⟨n, hn⟩ : ∃ n : Nat, (n : Int) = 2 ^ unitExp F - valueUnits r := ⟨(2 ^ unitExp F - valueUnits r).toNat, by omega⟩
  have hk : orderKey (fsub nan (lit 1) r) = roundMag F n 1 := by
    rw [orderKey_fsub one.2 hr, o1, ← hn, roundKey]
    rw [if_neg (by omega)]; simp
  have hmb : magBits (fsub nan (lit 1) r) = roundMagRaw F n 1 := by
    have := orderKey_natAbs (fsub nan (lit 1) r)
    rw [hk] at this
    have hlt := (isFinite_iff _).1 hf
    have e : magBits (fsub nan (lit 1) r) = roundMag F n 1 := by rw [← this]; simp
    rw [roundMag_eq] at e
    omega
  have hv : valueUnits (fsub nan (lit 1) r) = magUnits F (roundMagRaw F n 1) := by
    have := valueUnits_natAbs (fsub nan (lit 1) r)
    unfold units at this
    rw [hmb] at this
    omega
  rw [hv, magUnits_roundMagRaw one_pos]
  have nle : n ≤ 2 ^ unitExp F := by zify; omega
  have err := (roundHalfEven_error n (d := 1 * 2 ^ dropBits F (n / 1)) (by positivity)).1
  rw [Nat.one_mul] at err ⊢
  have small : 2 ^ dropBits F (n / 1) ≤ 2 * 2 ^ (unitExp F - F.fracBits - 2) ∨ n = 2 ^ unitExp F := by
    rcases nle.lt_or_eq with hlt | he
    · left
      rw [← Nat.pow_succ']
      apply Nat.pow_le_pow_right (by norm_num)
      have : Nat.log2 n < unitExp F := by
        rcases Nat.eq_zero_or_pos n with rfl | hp
        · cases F <;> decide
        · exact (Nat.log2_lt (by omega)).2 hlt
      have hb : F.fracBits + 2 ≤ unitExp F := by cases F <;> decide
      rw [Nat.div_one]
      unfold dropBits
      omega
    · exact .inr he
  zify at err small
  push_cast at err ⊢
  rcases small with h | h
  · omega
  · have := u
    rw [hv, o1, magUnits_roundMagRaw one_pos] at this
    push_cast at this
    rw [one_mul] at this
    have : (0 : Int) < 2 ^ (unitExp F - F.fracBits - 2) := by positivity
    omega

/-- A product with a factor of magnitude at most 1 is within the other factor's magnitude. -/
theorem fmul_unit_bounds {nan a b : Word F} (ha : isFinite a = true) (hb : isFinite b = true)
    (h : |valueUnits b| ≤ 2 ^ unitExp F) : isFinite (fmul nan a b) = true ∧ |valueUnits (fmul nan a b)| ≤ |valueUnits a| := by
  have hn : isFinite (fneg a) = true := by rwa [isFinite_fneg]
  have pU : (0 : Int) < 2 ^ unitExp F := by positivity
  have key : |valueUnits a * valueUnits b| ≤ |valueUnits a| * 2 ^ unitExp F := by
    rw [abs_mul]; exact mul_le_mul_of_nonneg_left h (abs_nonneg _)
  obtain ⟨k1, k2⟩ := abs_le.1 key
  rcases le_total 0 (valueUnits a) with h0 | h0
  · rw [abs_of_nonneg h0] at k1 k2 ⊢
    have u := valueUnits_fmul_le (nan := nan) (w := a) ha hb ha k2
    have l := valueUnits_le_fmul (nan := nan) (w := fneg a) ha hb hn (by rw [valueUnits_fneg]; linarith)
    refine ⟨isFinite_of_valueUnits hn ha l u, abs_le.2 ⟨?_, u⟩⟩
    rw [valueUnits_fneg] at l; exact l
  · rw [abs_of_nonpos h0] at k1 k2 ⊢
    have u := valueUnits_fmul_le (nan := nan) (w := fneg a) ha hb hn (by rw [valueUnits_fneg]; exact k2)
    have l := valueUnits_le_fmul (nan := nan) (w := a) ha hb ha (by linarith)
    refine ⟨isFinite_of_valueUnits ha hn l u, abs_le.2 ⟨by linarith, ?_⟩⟩
    rw [valueUnits_fneg] at u; exact u

/-- Halving a finite word gives a finite word. -/
theorem isFinite_half {nan a : Word F} (ha : isFinite a = true) : isFinite (fdiv nan a (lit 2)) = true := by
  have two := valueUnits_lit (F := F) (n := 2) (by norm_num)
  have two' := isPositive_lit (F := F) (n := 2) (by norm_num) (by norm_num)
  have hn : isFinite (fneg a) = true := by rwa [isFinite_fneg]
  have pU : (0 : Int) < 2 ^ unitExp F := by positivity
  push_cast at two
  rcases le_total 0 (valueUnits a) with h | h
  · have u := valueUnits_fdiv_le (nan := nan) (w := a) ha two' ha (by rw [two.1]; nlinarith [mul_nonneg h pU.le])
    have l := valueUnits_le_fdiv (nan := nan) (w := fneg a) ha two' hn
      (by rw [two.1, valueUnits_fneg]; nlinarith [mul_nonneg h pU.le])
    exact isFinite_of_valueUnits hn ha l u
  · have u := valueUnits_fdiv_le (nan := nan) (w := fneg a) ha two' hn
      (by rw [two.1, valueUnits_fneg]; nlinarith [mul_nonneg (neg_nonneg.2 h) pU.le])
    have l := valueUnits_le_fdiv (nan := nan) (w := a) ha two' ha (by rw [two.1]; nlinarith [mul_nonneg (neg_nonneg.2 h) pU.le])
    exact isFinite_of_valueUnits ha hn l u

/-! ### The sample rate -/

/-- The check of 30_encoding.md R48 in numbers. -/
theorem initOperandOk_iff (w : Word F) :
    initOperandOk w = true ↔ isFinite w = true ∧ 40 * 2 ^ unitExp F ≤ valueUnits w := by
  have h := valueUnits_lit (F := F) (n := 40) (by norm_num)
  have hn := isNaN_of_isFinite h.2
  have hk := valueUnits_le_iff (lit 40) w
  rw [h.1] at hk
  unfold initOperandOk
  rw [Bool.and_eq_true, fge_iff]
  constructor
  · rintro ⟨h1, h2, h3, h4⟩; exact ⟨h1, hk.2 h4⟩
  · rintro ⟨h1, h2⟩; exact ⟨h1, isNaN_of_isFinite h1, hn, hk.1 h2⟩

theorem isPositive_of_rate {sr : Word F} (h : initOperandOk sr = true) : isPositive sr = true := by
  obtain ⟨hf, hv⟩ := (initOperandOk_iff sr).1 h
  refine isPositive_of_valueUnits hf ?_
  have : (0 : Int) < 2 ^ unitExp F := by positivity
  omega

/-- Half of a word whose exponent field is not zero is exact (42_biquad_filter.md R70: `SR`/2 has one value). -/
theorem half_exact {nan sr : Word F} (h : initOperandOk sr = true) :
    valueUnits (fdiv nan sr (lit 2)) * 2 = valueUnits sr ∧ isFinite (fdiv nan sr (lit 2)) = true := by
  obtain ⟨hf, hv⟩ := (initOperandOk_iff sr).1 h
  obtain ⟨hu, _⟩ := valueUnits_of_isPositive (isPositive_of_rate h)
  have htwo := isPositive_lit (F := F) (n := 2) (by norm_num) (by norm_num)
  have hl := magBits_lt sr
  obtain ⟨e, c, hm, hc, he⟩ := exists_split F (magBits sr)
  have hbig : 2 ^ (F.fracBits + 1) ≤ 2 ^ unitExp F := Nat.pow_le_pow_right (by norm_num) (by cases F <;> decide)
  have hun : units sr = c * 2 ^ e := by unfold units; rw [hm, magUnits_split hc he]
  have he1 : e ≠ 0 := by
    rintro rfl
    rw [hu, hun] at hv
    rw [pow_zero, Nat.mul_one] at hv
    have : 40 * 2 ^ unitExp F ≤ c := by exact_mod_cast hv
    omega
  obtain ⟨k, rfl⟩ := Nat.exists_eq_succ_of_ne_zero he1
  have hc2 : 2 ^ F.fracBits ≤ c := he.resolve_left he1
  -- the word with the exponent field one less
  let half : Word F := pack false (k * 2 ^ F.fracBits + c)
  have hlt : k * 2 ^ F.fracBits + c < infMag F := by
    have := (isFinite_iff sr).1 hf
    have p : 0 < 2 ^ F.fracBits := by positivity
    rw [hm, Nat.succ_mul] at this; omega
  have hmb : magBits half = k * 2 ^ F.fracBits + c := magBits_pack _ (lt_trans hlt (infMag_lt F))
  have hsb : signBit half = false := signBit_pack _ (lt_trans hlt (infMag_lt F))
  have hfin : isFinite half = true := by rw [isFinite_iff, hmb]; exact hlt
  have hval : valueUnits half * 2 = valueUnits sr := by
    rw [hu, hun]
    unfold valueUnits units
    rw [hsb, hmb, magUnits_split hc (.inr hc2)]
    push_cast; simp [pow_succ]; ring
  have h2 := valueUnits_lit (F := F) (n := 2) (by norm_num)
  have key : orderKey (fdiv nan sr (lit 2)) = orderKey half := by
    apply le_antisymm
    · exact orderKey_fdiv_le hf htwo (isNaN_of_isFinite hfin) (by rw [h2.1, ← hval]; push_cast; ring_nf; rfl)
    · exact orderKey_le_fdiv hf htwo (isNaN_of_isFinite hfin) (by rw [h2.1, ← hval]; push_cast; ring_nf; rfl)
  refine ⟨by rw [(valueUnits_eq_iff _ _).2 key, hval], ?_⟩
  rw [isFinite_iff_key, key, ← isFinite_iff_key]; exact hfin

/-- Half the rate is the same word whatever NaN is at hand: no NaN is produced. -/
theorem half_nan (n₁ n₂ : Word F) {sr : Word F} (h : initOperandOk sr = true) :
    fdiv n₁ sr (lit 2) = fdiv n₂ sr (lit 2) := by
  have h2 := isPositive_lit (F := F) (n := 2) (by norm_num) (by norm_num)
  exact fdiv_nan _ _ (isFinite_of_isPositive (isPositive_of_rate h)) (isFinite_of_isPositive h2) (isZero_of_isPositive h2)

/-- 20 Hz is never above half the rate. -/
theorem twenty_le_half {nan sr : Word F} (h : initOperandOk sr = true) :
    orderKey (lit 20 : Word F) ≤ orderKey (fdiv nan sr (lit 2)) := by
  obtain ⟨_, hv⟩ := (initOperandOk_iff sr).1 h
  obtain ⟨h2, _⟩ := half_exact (nan := nan) h
  rw [← valueUnits_le_iff, (valueUnits_lit (by norm_num)).1]
  push_cast; omega

/-- A clamp to [20, `SR`/2]. -/
theorem inRange_clamp_half {nan sr v : Word F} (h : initOperandOk sr = true) (hv : isNaN v = false) :
    inRange (clamp v (lit 20) (fdiv nan sr (lit 2))) (lit 20) (fdiv nan sr (lit 2)) = true :=
  inRange_clamp hv (isNaN_lit (by norm_num)) (isNaN_of_isFinite (half_exact h).2) (twenty_le_half h)

/-! ### Oscillators -/

/-- A frequency of 0 to 20000 over a legal rate is at most 500 cycles a sample. -/
theorem increment_bounds {nan f sr : Word F} (hf : inRange f (lit 0) (lit 20000) = true) (h : initOperandOk sr = true) :
    isFinite (fdiv nan f sr) = true ∧ 0 ≤ valueUnits (fdiv nan f sr) ∧ valueUnits (fdiv nan f sr) ≤ 500 * 2 ^ unitExp F := by
  obtain ⟨hff, h0, h1⟩ := (inRange_lit_iff (by norm_num) (by norm_num)).1 hf
  obtain ⟨_, hv⟩ := (initOperandOk_iff sr).1 h
  have hp := isPositive_of_rate h
  have p : (0 : Int) < 2 ^ unitExp F := by positivity
  have z := valueUnits_lit (F := F) (n := 0) (by norm_num)
  have w := valueUnits_lit (F := F) (n := 500) (by norm_num)
  have a := valueUnits_fdiv_le (nan := nan) (w := lit 500) hff hp w.2 (by rw [w.1]; push_cast at *; nlinarith)
  have b := valueUnits_le_fdiv (nan := nan) (w := lit 0) hff hp z.2 (by rw [z.1]; push_cast at *; nlinarith)
  refine ⟨isFinite_of_valueUnits z.2 w.2 b a, ?_, ?_⟩
  · rw [z.1] at b; simpa using b
  · rw [w.1] at a; exact_mod_cast a

/-- Any finite non-negative frequency over a legal rate is a finite increment: a rate of at least 40 takes it below the frequency. -/
theorem increment_finite {nan f sr : Word F} (hf : isFinite f = true) (h0 : 0 ≤ valueUnits f) (h : initOperandOk sr = true) :
    isFinite (fdiv nan f sr) = true ∧ 0 ≤ valueUnits (fdiv nan f sr) := by
  obtain ⟨_, hv⟩ := (initOperandOk_iff sr).1 h
  have hp := isPositive_of_rate h
  have p : (0 : Int) < 2 ^ unitExp F := by positivity
  have z := valueUnits_lit (F := F) (n := 0) (by norm_num)
  have a := valueUnits_fdiv_le (nan := nan) (w := f) hf hp hf (by nlinarith)
  have b := valueUnits_le_fdiv (nan := nan) (w := lit 0) hf hp z.2 (by rw [z.1]; push_cast; nlinarith)
  refine ⟨isFinite_of_valueUnits z.2 hf b a, ?_⟩
  rw [z.1] at b; simpa using b

/-- A phase advanced by an increment of 0 to 500 is a phase (40_oscillators.md R53). -/
theorem isPhase_advance {n₁ n₂ p inc : Word F} {zs : Bool} (hp : isPhase p = true) (hi : isFinite inc = true)
    (h0 : 0 ≤ valueUnits inc) : isFinite (fadd n₁ p inc) = true → isPhase (wrap1 n₂ zs (fadd n₁ p inc)) = true := by
  intro hf
  obtain ⟨_, hp0, _⟩ := (isPhase_iff p).1 hp
  have hpf := isFinite_of_isPhase hp
  have z := valueUnits_lit (F := F) (n := 0) (by norm_num)
  have := valueUnits_le_fadd (nan := n₁) (w := lit 0) hpf hi z.2 (by rw [z.1]; push_cast; omega)
  refine isPhase_wrap1 hf ?_
  rw [z.1] at this; simpa using this

/-- The sum of a phase and a finite increment is finite. -/
theorem isFinite_phase_sum {nan p inc : Word F} (hp : isPhase p = true) (hi : isFinite inc = true) :
    isFinite (fadd nan p inc) = true := by
  obtain ⟨_, hp0, hp1⟩ := (isPhase_iff p).1 hp
  have pU : (0 : Int) < 2 ^ unitExp F := by positivity
  exact isFinite_fadd_unit (isFinite_of_isPhase hp) hi (by rw [abs_of_nonneg hp0]; omega)

/-- A frequency from 20 up is positive, and in the wider range from 0. -/
theorem frequency_facts {f : Word F} (hf : inRange f (lit 20) (lit 20000) = true) :
    isPositive f = true ∧ inRange f (lit 0) (lit 20000) = true := by
  obtain ⟨hff, h0, h1⟩ := (inRange_lit_iff (by norm_num) (by norm_num)).1 hf
  have p : (0 : Int) < 2 ^ unitExp F := by positivity
  exact ⟨isPositive_of_valueUnits hff (by push_cast at h0; omega),
    (inRange_lit_iff (by norm_num) (by norm_num)).2 ⟨hff, by push_cast at *; omega, h1⟩⟩

/-- The LFO's rate is positive, and in the wider range from 0. -/
theorem rate_facts {f : Word F} (hf : inRange f (lit 1 100) (lit 20) = true) :
    isPositive f = true ∧ inRange f (lit 0) (lit 20000) = true := by
  obtain ⟨_, _, _, h0, h1⟩ := (inRange_iff _ _ _).1 hf
  have hp := isPositive_hundredth F
  obtain ⟨hv, hu⟩ := valueUnits_of_isPositive hp
  have h20 := valueUnits_lit (F := F) (n := 20) (by norm_num)
  rw [← valueUnits_le_iff] at h0 h1
  have hff := isFinite_of_valueUnits (isFinite_of_isPositive hp) h20.2 h0 h1
  rw [h20.1] at h1
  have p : (0 : Int) < 2 ^ unitExp F := by positivity
  exact ⟨isPositive_of_valueUnits hff (by omega),
    (inRange_lit_iff (by norm_num) (by norm_num)).2 ⟨hff, by push_cast at *; omega, by push_cast at *; omega⟩⟩

/-- The phase invariant of one advance (40_oscillators.md R53, 10_state.md R23). -/
theorem isPhase_oscAdvance {E : Env F} {id : OscId} {sr : Word F} {o : Osc F} (hp : isPhase o.phase = true)
    (hf : inRange o.freq (lit 0) (lit 20000) = true) (h : initOperandOk sr = true) :
    isPhase (oscAdvance E id sr o).phase = true := by
  obtain ⟨hi, h0, _⟩ := increment_bounds (nan := E.nan (.inc id)) hf h
  exact isPhase_advance hp hi h0 (isFinite_phase_sum hp hi)

/-- Two oscillators of one positive frequency and one phase advance to one phase, bit for bit: no NaN and no free zero sign
enters (10_state.md R23). -/
theorem oscAdvance_phase_eq {E : Env F} {i j : OscId} {sr : Word F} {o p : Osc F} (hp : isPhase o.phase = true)
    (hf : inRange o.freq (lit 0) (lit 20000) = true) (hf0 : isPositive o.freq = true) (h : initOperandOk sr = true)
    (ef : o.freq = p.freq) (ep : o.phase = p.phase) : (oscAdvance E i sr o).phase = (oscAdvance E j sr p).phase := by
  obtain ⟨hi, h0, _⟩ := increment_bounds (nan := E.nan (.inc j)) hf h
  obtain ⟨hff, _, hfs⟩ := (isPositive_iff _).1 hf0
  obtain ⟨hsf, hsz, hss⟩ := (isPositive_iff _).1 (isPositive_of_rate h)
  have hpf := isFinite_of_isPhase hp
  have hsum := isFinite_phase_sum (nan := E.nan (.sum j)) hp hi
  have hsign := signBit_fadd (nan := E.nan (.sum j)) hpf hi ((isPhase_iff _).1 hp).2.1 h0
    (by rw [signBit_fdiv hff hsf hsz, hfs, hss]; rfl)
  change wrap1 _ _ (fadd _ o.phase (fdiv _ o.freq sr)) = wrap1 _ _ (fadd _ p.phase (fdiv _ p.freq sr))
  rw [← ef, ← ep, fdiv_nan (E.nan (.inc i)) (E.nan (.inc j)) hff hsf hsz, fadd_nan (E.nan (.sum i)) (E.nan (.sum j)) hpf hi]
  unfold wrap1
  simp [hsum, hsign]

/-! ### The modulation oscillator -/

/-- What a `STEP` writes into the filter's cells. -/
theorem voiceProcess_flt (E : Env F) (v : Voice F) : (voiceProcess E v).2.flt =
    (biquadProcess E (biquadSetModulation E v.sr (fmul (E.nan .depth) (modOscNext E v.sr v.lfo).1 (lit 1 4)) v.flt)
      (mixedNext E v.sr v.osc).1).2 := rfl

/-- A sine value is finite and in [-1, 1], for a phase. -/
theorem sineOf_bounds {E : Env F} {id : OscId} {p : Word F} (h : isPhase p = true) :
    inRange (sineOf E id p) (fneg (lit 1)) (lit 1) = true := by
  have one := valueUnits_lit (F := F) (n := 1) (by norm_num)
  have z := valueUnits_lit (F := F) (n := 0) (by norm_num)
  have hp := isFinite_of_isPhase h
  obtain ⟨_, h0, h1⟩ := (isPhase_iff p).1 h
  have t := isPositive_twoPi F
  have tf := isFinite_of_isPositive t
  obtain ⟨tv, _⟩ := valueUnits_of_isPositive t
  have u : valueUnits (fmul (E.nan (.sinArg id)) (twoPi F) p) ≤ valueUnits (twoPi F) :=
    valueUnits_fmul_le tf hp tf (by rw [tv]; nlinarith [Int.natCast_nonneg (units (twoPi F))])
  have l : valueUnits (lit 0 : Word F) ≤ valueUnits (fmul (E.nan (.sinArg id)) (twoPi F) p) :=
    valueUnits_le_fmul tf hp z.2 (by rw [tv, z.1]; push_cast; nlinarith [Int.natCast_nonneg (units (twoPi F))])
  obtain ⟨f, a, b⟩ := fsin_bound E.num (nan := E.nan (.sinVal id)) (isFinite_of_valueUnits z.2 tf l u)
  rw [inRange_iff, orderKey_fneg]
  exact ⟨isNaN_of_isFinite f, by rw [isNaN_fneg]; exact isNaN_of_isFinite one.2, isNaN_of_isFinite one.2, a, b⟩

/-- The Triangle lies in [-1, 1] (41_modulation_oscillator.md R65). -/
theorem shapeTriangle_bounds {E : Env F} {p : Word F} (h : isPhase p = true) :
    inRange (shapeTriangle E p) (fneg (lit 1)) (lit 1) = true := by
  have hp := isFinite_of_isPhase h
  obtain ⟨_, h0, h1⟩ := (isPhase_iff p).1 h
  have z := valueUnits_lit (F := F) (n := 0) (by norm_num)
  have one := valueUnits_lit (F := F) (n := 1) (by norm_num)
  have two := valueUnits_lit (F := F) (n := 2) (by norm_num)
  have three := valueUnits_lit (F := F) (n := 3) (by norm_num)
  have four := valueUnits_lit (F := F) (n := 4) (by norm_num)
  have half := valueUnits_half F
  have none : isFinite (fneg (lit 1 : Word F)) = true := by rw [isFinite_fneg]; exact one.2
  have pU : (0 : Int) < 2 ^ unitExp F := by positivity
  push_cast at *
  have key := valueUnits_lt_iff p (lit 1 2)
  unfold shapeTriangle
  split
  · rename_i hlt
    have hv := key.2 ((flt_iff _ _).1 hlt).2.2
    have u := valueUnits_fmul_le (nan := E.nan .triScale) (w := lit 2) four.2 hp two.2 (by rw [four.1, two.1]; nlinarith)
    have l := valueUnits_le_fmul (nan := E.nan .triScale) (w := lit 0) four.2 hp z.2 (by rw [four.1, z.1]; nlinarith)
    have mf := isFinite_of_valueUnits z.2 two.2 l u
    rw [z.1] at l; rw [two.1] at u
    have u' := valueUnits_fsub_le (nan := E.nan .triLine) (w := lit 1) mf one.2 one.2 (by rw [one.1]; omega)
    have l' := valueUnits_le_fsub (nan := E.nan .triLine) (w := fneg (lit 1)) mf one.2 none (by rw [valueUnits_fneg, one.1]; omega)
    have f' := isFinite_of_valueUnits none one.2 l' u'
    rw [valueUnits_fneg, one.1] at l'; rw [one.1] at u'
    exact (inRange_symm_iff (by norm_num)).2 ⟨f', by push_cast; omega, by push_cast; omega⟩
  · rename_i hlt
    have hv : valueUnits (lit 1 2 : Word F) ≤ valueUnits p := by
      by_contra hc
      exact hlt ((flt_iff _ _).2 ⟨isNaN_of_isFinite hp, isNaN_of_isFinite half.2, key.1 (by omega)⟩)
    have u := valueUnits_fmul_le (nan := E.nan .triScale) (w := lit 4) four.2 hp four.2 (by rw [four.1]; nlinarith)
    have l := valueUnits_le_fmul (nan := E.nan .triScale) (w := lit 2) four.2 hp two.2 (by rw [four.1, two.1]; nlinarith)
    have mf := isFinite_of_valueUnits two.2 four.2 l u
    rw [two.1] at l; rw [four.1] at u
    have u' := valueUnits_fsub_le (nan := E.nan .triLine) (w := lit 1) three.2 mf one.2 (by rw [one.1, three.1]; omega)
    have l' := valueUnits_le_fsub (nan := E.nan .triLine) (w := fneg (lit 1)) three.2 mf none (by rw [valueUnits_fneg, one.1, three.1]; omega)
    have f' := isFinite_of_valueUnits none one.2 l' u'
    rw [valueUnits_fneg, one.1] at l'; rw [one.1] at u'
    exact (inRange_symm_iff (by norm_num)).2 ⟨f', by push_cast; omega, by push_cast; omega⟩

/-- No phase is above the word just below 1. -/
theorem ramp_top (F : Fmt) : ∀ p : Word F, isPhase p = true → orderKey p ≤ orderKey (lit 1 : Word F) - 1 := by
  intro p h
  have hp := isFinite_of_isPhase h
  obtain ⟨_, h0, h1⟩ := (isPhase_iff p).1 h
  have one := valueUnits_lit (F := F) (n := 1) (by norm_num)
  have := (valueUnits_lt_iff p (lit 1)).1 (by rw [one.1]; push_cast; omega)
  omega

/-- The Ramp lies in [-1, 1) (41_modulation_oscillator.md R66). -/
theorem shapeRamp_bounds {E : Env F} {p : Word F} (h : isPhase p = true) :
    inRange (shapeRamp E p) (fneg (lit 1)) (lit 1) = true ∧ flt (shapeRamp E p) (lit 1) = true := by
  have hp := isFinite_of_isPhase h
  obtain ⟨_, h0, h1⟩ := (isPhase_iff p).1 h
  have z := valueUnits_lit (F := F) (n := 0) (by norm_num)
  have one := valueUnits_lit (F := F) (n := 1) (by norm_num)
  have two := valueUnits_lit (F := F) (n := 2) (by norm_num)
  have none : isFinite (fneg (lit 1 : Word F)) = true := by rw [isFinite_fneg]; exact one.2
  have pU : (0 : Int) < 2 ^ unitExp F := by positivity
  push_cast at *
  -- the largest phase, twice it, and twice it less one
  let top : Word F := pack false (magBits (lit 1 : Word F) - 1)
  let top2 : Word F := pack false (magBits (lit 2 : Word F) - 1)
  let top3 : Word F := pack false (magBits (lit 1 : Word F) - 2)
  have facts : isFinite top = true ∧ isFinite top2 = true ∧ isFinite top3 = true ∧ orderKey top = orderKey (lit 1 : Word F) - 1 ∧
    valueUnits top * 2 = valueUnits top2 ∧ valueUnits top2 - 2 ^ unitExp F ≤ valueUnits top3 ∧ orderKey top3 < orderKey (lit 1 : Word F) := by
    cases F <;> decide +kernel
  obtain ⟨f1, f2, f3, k1, v2, v3, k3⟩ := facts
  have hv : valueUnits p ≤ valueUnits top := by rw [valueUnits_le_iff, k1]; exact ramp_top F p h
  have u := valueUnits_fmul_le (nan := E.nan .rampScale) (w := top2) two.2 hp f2 (by rw [two.1, ← v2]; nlinarith)
  have l := valueUnits_le_fmul (nan := E.nan .rampScale) (w := lit 0) two.2 hp z.2 (by rw [two.1, z.1]; nlinarith)
  have mf := isFinite_of_valueUnits z.2 f2 l u
  rw [z.1] at l
  have u' := valueUnits_fsub_le (nan := E.nan .rampLine) (w := top3) mf one.2 f3 (by rw [one.1]; omega)
  have l' := valueUnits_le_fsub (nan := E.nan .rampLine) (w := fneg (lit 1)) mf one.2 none (by rw [valueUnits_fneg, one.1]; omega)
  have f' := isFinite_of_valueUnits none f3 l' u'
  have k' := (valueUnits_le_iff _ _).1 u'
  have hn := isNaN_of_isFinite one.2
  exact ⟨(inRange_iff _ _ _).2 ⟨isNaN_of_isFinite f', isNaN_of_isFinite none, hn, (valueUnits_le_iff _ _).1 l', le_trans k' k3.le⟩,
    (flt_iff _ _).2 ⟨isNaN_of_isFinite f', hn, lt_of_le_of_lt k' k3⟩⟩

/-- The SmoothSquare lies in [-2, 2] (41_modulation_oscillator.md R67). -/
theorem shapeSmoothSquare_bounds {E : Env F} {p : Word F} (h : isPhase p = true) :
    inRange (shapeSmoothSquare E p) (fneg (lit 2)) (lit 2) = true := by
  have one := valueUnits_lit (F := F) (n := 1) (by norm_num)
  have two := valueUnits_lit (F := F) (n := 2) (by norm_num)
  have pU : (0 : Int) < 2 ^ unitExp F := by positivity
  have none : isFinite (fneg (lit 2 : Word F)) = true := by rw [isFinite_fneg]; exact two.2
  have hs := ((inRange_symm_iff (by norm_num)).1 (sineOf_bounds (E := E) (id := .lfo) h)).1
  obtain ⟨f, a, b⟩ := ftanh_bound E.num (nan := E.nan .softTanh) hs
  rw [← orderKey_fneg, ← valueUnits_le_iff, valueUnits_fneg, one.1] at a
  rw [← valueUnits_le_iff, one.1] at b
  push_cast at *
  have u := valueUnits_fmul_le (nan := E.nan .softScale) (w := lit 2) f two.2 two.2 (by rw [two.1]; nlinarith)
  have l := valueUnits_le_fmul (nan := E.nan .softScale) (w := fneg (lit 2)) f two.2 none (by rw [valueUnits_fneg, two.1]; nlinarith)
  have f' := isFinite_of_valueUnits none two.2 l u
  rw [valueUnits_fneg, two.1] at l; rw [two.1] at u
  change _ ≤ valueUnits (shapeSmoothSquare E p) at l
  change valueUnits (shapeSmoothSquare E p) ≤ _ at u
  exact (inRange_symm_iff (by norm_num)).2 ⟨f', by push_cast; omega, by push_cast; omega⟩

/-! ### The filter -/

/-- The eighths from 0 to 1 are exact. -/
theorem valueUnits_eighth (F : Fmt) : ∀ k < 9, valueUnits (lit k 8 : Word F) * 8 = k * 2 ^ unitExp F ∧ isFinite (lit k 8 : Word F) = true := by
  cases F <;> decide +kernel

theorem valueUnits_fourth (F : Fmt) : ∀ k < 9, valueUnits (lit k 4 : Word F) * 4 = k * 2 ^ unitExp F ∧ isFinite (lit k 4 : Word F) = true := by
  cases F <;> decide +kernel

/-- The modulated cutoff of any value but a NaN is no NaN (42_biquad_filter.md R76). -/
theorem isNaN_modulatedCutoff {E : Env F} {v : Word F} (h : isNaN v = false) : isNaN (modulatedCutoff E v) = false := by
  have h2 := isPositive_lit (F := F) (n := 2) (by norm_num) (by norm_num)
  have h3600 := isPositive_lit (F := F) (n := 3600) (by norm_num) (by norm_num)
  refine isNaN_fadd (isFinite_lit (by norm_num)) (isNaN_fmul_const ?_ (isFinite_of_isPositive h3600) (isZero_of_isPositive h3600))
  exact isNaN_fdiv (isNaN_fadd' h (isFinite_lit (by norm_num))) (isFinite_of_isPositive h2) (isZero_of_isPositive h2)

/-- The modulated cutoff of a value within `[-a/4, b/4]` lies within the exact images of its ends, `2200 - 450·a` to
`2200 + 450·b` (42_biquad_filter.md R76). -/
theorem modulatedCutoff_bounds {E : Env F} {v : Word F} {a b : Nat} (ha : a ≤ 4) (hb : b ≤ 4) (hv : isFinite v = true)
    (h1 : -(a * 2 ^ unitExp F : Int) ≤ valueUnits v * 4) (h2 : valueUnits v * 4 ≤ b * 2 ^ unitExp F) :
    inRange (modulatedCutoff E v) (lit (2200 - 450 * a)) (lit (2200 + 450 * b)) = true := by
  have p : (0 : Int) < 2 ^ unitExp F := by positivity
  have one := valueUnits_lit (F := F) (n := 1) (by norm_num)
  have two := valueUnits_lit (F := F) (n := 2) (by norm_num)
  have two' := isPositive_lit (F := F) (n := 2) (by norm_num) (by norm_num)
  have w3600 := valueUnits_lit (F := F) (n := 3600) (by norm_num)
  have w400 := valueUnits_lit (F := F) (n := 400) (by norm_num)
  -- the ends after each operation: (4-a)/4 and (4+b)/4, then (4-a)/8 and (4+b)/8, then 450(4-a) and 450(4+b), then the bounds
  have l4 := valueUnits_fourth F (4 - a) (by omega)
  have u4 := valueUnits_fourth F (4 + b) (by omega)
  have l8 := valueUnits_eighth F (4 - a) (by omega)
  have u8 := valueUnits_eighth F (4 + b) (by omega)
  have lt := valueUnits_lit (F := F) (n := 450 * (4 - a)) (by omega)
  have ut := valueUnits_lit (F := F) (n := 450 * (4 + b)) (by omega)
  have lc := valueUnits_lit (F := F) (n := 2200 - 450 * a) (by omega)
  have uc := valueUnits_lit (F := F) (n := 2200 + 450 * b) (by omega)
  have c1 : ((4 - a : Nat) : Int) = 4 - a := by omega
  have c2 : ((2200 - 450 * a : Nat) : Int) = 2200 - 450 * a := by omega
  have c3 : ((450 * (4 - a) : Nat) : Int) = 450 * (4 - a) := by omega
  rw [c1] at l4 l8
  rw [c3] at lt
  rw [c2] at lc
  push_cast at u4 u8 ut uc one two w3600 w400
  set s := fadd (E.nan .modOne) v (lit 1)
  set h := fdiv (E.nan .modHalf) s (lit 2)
  set t := fmul (E.nan .modSpan) h (lit 3600)
  have s1 : valueUnits (lit (4 - a) 4 : Word F) ≤ valueUnits s := valueUnits_le_fadd hv one.2 l4.2 (by linarith [l4.1])
  have s2 : valueUnits s ≤ valueUnits (lit (4 + b) 4 : Word F) := valueUnits_fadd_le hv one.2 u4.2 (by linarith [u4.1])
  have sf := isFinite_of_valueUnits l4.2 u4.2 s1 s2
  have q1 : valueUnits (lit (4 - a) 4 : Word F) = 2 * valueUnits (lit (4 - a) 8 : Word F) := by linarith [l4.1, l8.1]
  have q2 : valueUnits (lit (4 + b) 4 : Word F) = 2 * valueUnits (lit (4 + b) 8 : Word F) := by linarith [u4.1, u8.1]
  have h1' : valueUnits (lit (4 - a) 8 : Word F) ≤ valueUnits h := valueUnits_le_fdiv sf two' l8.2 (by
    have := mul_le_mul_of_nonneg_right s1 p.le
    rw [q1] at this; rw [two.1]; linarith)
  have h2' : valueUnits h ≤ valueUnits (lit (4 + b) 8 : Word F) := valueUnits_fdiv_le sf two' u8.2 (by
    have := mul_le_mul_of_nonneg_right s2 p.le
    rw [q2] at this; rw [two.1]; linarith)
  have hf := isFinite_of_valueUnits l8.2 u8.2 h1' h2'
  have r1 : valueUnits (lit (450 * (4 - a)) : Word F) = 3600 * valueUnits (lit (4 - a) 8 : Word F) := by linarith [lt.1, l8.1]
  have r2 : valueUnits (lit (450 * (4 + b)) : Word F) = 3600 * valueUnits (lit (4 + b) 8 : Word F) := by linarith [ut.1, u8.1]
  have t1 : valueUnits (lit (450 * (4 - a)) : Word F) ≤ valueUnits t := valueUnits_le_fmul hf w3600.2 lt.2 (by
    have := mul_le_mul_of_nonneg_right h1' p.le
    rw [r1, w3600.1]; linarith)
  have t2 : valueUnits t ≤ valueUnits (lit (450 * (4 + b)) : Word F) := valueUnits_fmul_le hf w3600.2 ut.2 (by
    have := mul_le_mul_of_nonneg_right h2' p.le
    rw [r2, w3600.1]; linarith)
  have tf := isFinite_of_valueUnits lt.2 ut.2 t1 t2
  have m1 : valueUnits (lit (2200 - 450 * a) : Word F) ≤ valueUnits (modulatedCutoff E v) :=
    valueUnits_le_fadd w400.2 tf lc.2 (by linarith [lc.1, lt.1, w400.1])
  have m2 : valueUnits (modulatedCutoff E v) ≤ valueUnits (lit (2200 + 450 * b) : Word F) :=
    valueUnits_fadd_le w400.2 tf uc.2 (by linarith [uc.1, ut.1, w400.1])
  rw [inRange_iff]
  exact ⟨isNaN_of_isFinite (isFinite_of_valueUnits lc.2 uc.2 m1 m2), isNaN_of_isFinite lc.2, isNaN_of_isFinite uc.2,
    (valueUnits_le_iff _ _).1 m1, (valueUnits_le_iff _ _).1 m2⟩

/-- The two exits of `Biquad.process` (42_biquad_filter.md R72, R73, R74). -/
theorem biquadProcess_finite {E : Env F} {b : Biquad F} {x : Word F} (h : isFinite (biquadOutput E b x) = true) :
    biquadProcess E b x = (biquadOutput E b x, biquadShift b x (biquadOutput E b x)) := if_pos h

theorem biquadProcess_guard {E : Env F} {b : Biquad F} {x : Word F} (h : isFinite (biquadOutput E b x) = false) :
    biquadProcess E b x = (x, biquadClear b) := if_neg (by simp [h])

/-- A finite output had a finite input (42_biquad_filter.md R72). -/
theorem isFinite_input_of_output {E : Env F} (hE : E.Valid) {b : Biquad F} {x : Word F}
    (h : isFinite (biquadOutput E b x) = true) : isFinite x = true := by
  have h1 := (isFinite_of_fsub (hE.nan _) h).1
  have h2 := (isFinite_of_fsub (hE.nan _) h1).1
  have h3 := (isFinite_of_fadd (hE.nan _) h2).1
  have h4 := (isFinite_of_fadd (hE.nan _) h3).1
  exact (isFinite_of_fmul (hE.nan _) h4).2

/-- Filtering keeps the cutoff, the resonance and the coefficients (42_biquad_filter.md R73, R74). -/
theorem biquadProcess_keeps {E : Env F} {b : Biquad F} {x : Word F} :
    let c := (biquadProcess E b x).2
    c.cutoff = b.cutoff ∧ c.res = b.res ∧ c.a0 = b.a0 ∧ c.a1 = b.a1 ∧ c.a2 = b.a2 ∧ c.b1 = b.b1 ∧ c.b2 = b.b2 := by
  rcases h : isFinite (biquadOutput E b x) with _ | _
  · rw [biquadProcess_guard h]; exact ⟨rfl, rfl, rfl, rfl, rfl, rfl, rfl⟩
  · rw [biquadProcess_finite h]; exact ⟨rfl, rfl, rfl, rfl, rfl, rfl, rfl⟩

theorem historyFinite_iff (b : Biquad F) : historyFinite b = true ↔
    isFinite b.x1 = true ∧ isFinite b.x2 = true ∧ isFinite b.y1 = true ∧ isFinite b.y2 = true := by
  simp [historyFinite, and_assoc]

/-- Filtering keeps the history finite (10_state.md R25). -/
theorem historyFinite_process {E : Env F} (hE : E.Valid) {b : Biquad F} {x : Word F} (hb : historyFinite b = true) :
    historyFinite (biquadProcess E b x).2 = true ∧ (isFinite x = true → isFinite (biquadProcess E b x).1 = true) := by
  obtain ⟨h1, _, h3, _⟩ := (historyFinite_iff b).1 hb
  rcases h : isFinite (biquadOutput E b x) with _ | _
  · rw [biquadProcess_guard h]
    exact ⟨(historyFinite_iff _).2 ⟨isFinite_zero, isFinite_zero, isFinite_zero, isFinite_zero⟩, id⟩
  · rw [biquadProcess_finite h]
    exact ⟨(historyFinite_iff _).2 ⟨isFinite_input_of_output hE h, h1, h, h3⟩, fun _ => h⟩

/-- The coefficients of a filter just recomputed are those of its cutoff and resonance (10_state.md R25). -/
theorem consistent_recompute {E : Env F} (hE : E.Valid) (sr : Word F) (b : Biquad F) :
    (biquadRecompute E sr b).Consistent sr := ⟨E, hE, biquadRecompute_idem E sr b⟩

/-- Consistency is about the cutoff, the resonance and the coefficients alone. -/
theorem consistent_congr {sr : Word F} {b c : Biquad F} (h : b.Consistent sr) (h1 : c.cutoff = b.cutoff) (h2 : c.res = b.res)
    (h3 : c.a0 = b.a0) (h4 : c.a1 = b.a1) (h5 : c.a2 = b.a2) (h6 : c.b1 = b.b1) (h7 : c.b2 = b.b2) : c.Consistent sr := by
  obtain ⟨E, hE, e⟩ := h
  refine ⟨E, hE, ?_⟩
  obtain ⟨f, q, a0, a1, a2, b1, b2, x1, x2, y1, y2⟩ := b
  obtain ⟨f', q', a0', a1', a2', b1', b2', x1', x2', y1', y2'⟩ := c
  simp only at h1 h2 h3 h4 h5 h6 h7
  subst h1 h2 h3 h4 h5 h6 h7
  simp only [biquadRecompute, Biquad.mk.injEq] at e ⊢
  tauto

/-! ### The VCA -/

/-- The normalized modulation less one half stays finite for every finite argument (43_vca.md R82, R83). -/
theorem isFinite_vca_offset {E : Env F} {v : Word F} (hv : isFinite v = true) :
    isFinite (fsub (E.nan .vcaOff) (fdiv (E.nan .vcaNorm) (fadd (E.nan .vcaOne) v (lit 1)) (lit 2)) (lit 1 2)) = true := by
  have one := valueUnits_lit (F := F) (n := 1) (by norm_num)
  have half := valueUnits_half F
  have pU : (0 : Int) < 2 ^ unitExp F := by positivity
  have h1 := isFinite_fadd_unit' (nan := E.nan .vcaOne) hv one.2 (by rw [one.1]; simp [abs_of_pos pU])
  refine isFinite_fadd_unit' (isFinite_half h1) (by rw [isFinite_fneg]; exact half.2) ?_
  rw [valueUnits_fneg, abs_neg, abs_of_nonneg (by omega)]; omega

end Sys2Proof.Machine
end

