-- ==== Sys2Proof/Laws/Decode.lean ====
section
/-!
SUPPORT. The opcode map and the cell index: no two rows overlap, each index names its cell, and which opcodes decode to what.
-/

namespace Sys2Proof

/-- No opcode falls under two rows of the map (30_encoding.md R44, R50). -/
theorem opcodeMap_rows_disjoint :
    ∀ op : BitVec 8, (opcodeMap.filter fun r => r.covers op).length ≤ 1 := by decide +kernel

theorem cellOfIndex_index (c : Cell) : cellOfIndex c.index = some c := by cases c <;> decide

theorem index_of_cellOfIndex {idx : BitVec 7} {c : Cell} (h : cellOfIndex idx = some c) : c.index = idx := by
  have := List.find?_some h
  simpa using this

/-- The legal indices are 0x00 to 0x16 (30_encoding.md R45). -/
theorem cellOfIndex_isSome (idx : BitVec 7) : (cellOfIndex idx).isSome = decide (idx.toNat ≤ 0x16) := by
  revert idx; decide +kernel

theorem wellFormed_operand {F : Fmt} {v : BitVec 64} (h : operandFits F v = true) :
    (v.setWidth F.width).setWidth 64 = v := by
  apply BitVec.eq_of_toNat_eq
  have := v.isLt
  simp only [operandFits, decide_eq_true_eq] at h
  simp only [BitVec.toNat_setWidth]
  rw [Nat.mod_eq_of_lt h, Nat.mod_eq_of_lt this]

theorem operandFits_setWidth {F : Fmt} (w : Word F) : operandFits F (w.setWidth 64) = true := by
  have h := w.isLt
  have h2 : 2 ^ F.width ≤ 2 ^ 64 := by cases F <;> decide
  simp only [operandFits, decide_eq_true_eq, BitVec.toNat_setWidth]
  rw [Nat.mod_eq_of_lt (by omega)]; exact h

theorem setWidth_roundTrip {F : Fmt} (w : Word F) : ((w.setWidth 64).setWidth F.width : Word F) = w := by
  apply BitVec.eq_of_toNat_eq
  have h := w.isLt
  have h2 : 2 ^ F.width ≤ 2 ^ 64 := by cases F <;> decide
  simp only [BitVec.toNat_setWidth]
  rw [Nat.mod_eq_of_lt (a := w.toNat) (by omega), Nat.mod_eq_of_lt h]

/-- The row of each opcode (30_encoding.md R44). -/
def rowOf (op : BitVec 8) : Option Mnemonic := (opcodeMap.find? fun r => r.covers op).map OpcodeRow.mnemonic

/-- `decode` by the row of the opcode. -/
theorem decode_eq {F : Fmt} (c : Command F) : decode c =
    match rowOf c.op with
    | none => .error (.reservedOpcode c.op)
    | some .INIT => .ok (.init (c.arg.setWidth 64))
    | some .STEP => .ok .step
    | some .SETF => .ok (.setf (c.arg.setWidth 64))
    | some .SETC => .ok (.setc (c.arg.setWidth 64))
    | some .SETQ => .ok (.setq (c.arg.setWidth 64))
    | some .SETL => .ok (.setl (c.arg.setWidth 64))
    | some .SETM => .ok (.setm (c.arg.setWidth 64))
    | some .RD =>
      match cellOfIndex (c.op.setWidth 7) with
      | some cell => .ok (.rd cell)
      | none => .error (.reservedIndex (c.op.setWidth 7)) := by
  unfold decode rowOf
  cases opcodeMap.find? fun r => r.covers c.op with
  | none => rfl
  | some r => obtain ⟨m, _, _⟩ := r; cases m <;> rfl

/-- The rows in numbers: the opcode map as 30_encoding.md R44 prints it. -/
theorem rowOf_cases (op : BitVec 8) : rowOf op =
    if op = 0x01 then some .INIT else if op = 0x02 then some .STEP else if op = 0x10 then some .SETF
    else if op = 0x11 then some .SETC else if op = 0x12 then some .SETQ else if op = 0x13 then some .SETL
    else if op = 0x14 then some .SETM else if 0x80 ≤ op.toNat then some .RD else none := by
  revert op; decide +kernel

/-- The opcode of `RD` for a cell (30_encoding.md R51). -/
theorem rd_opcode (c : Cell) : rowOf (0x80 ||| c.index.setWidth 8) = some .RD ∧
    ((0x80 ||| c.index.setWidth 8 : BitVec 8).setWidth 7 : BitVec 7) = c.index := by cases c <;> decide

theorem toNat_index_le (c : Cell) : c.index.toNat ≤ 0x16 := by cases c <;> decide

/-- Everything `decode` does: a reserved opcode is rejected, and every other opcode is one of the eight commands. -/
inductive Decoded {F : Fmt} (c : Command F) : Prop where
  | reserved (r : Reject) (h : decode c = .error r) (hr : Machine.isReservedOpcode c.op = true)
  | init (h : decode c = .ok (.init (c.arg.setWidth 64))) (op : c.op = 0x01)
  | step (h : decode c = .ok .step) (op : c.op = 0x02)
  | setf (h : decode c = .ok (.setf (c.arg.setWidth 64))) (op : c.op = 0x10)
  | setc (h : decode c = .ok (.setc (c.arg.setWidth 64))) (op : c.op = 0x11)
  | setq (h : decode c = .ok (.setq (c.arg.setWidth 64))) (op : c.op = 0x12)
  | setl (h : decode c = .ok (.setl (c.arg.setWidth 64))) (op : c.op = 0x13)
  | setm (h : decode c = .ok (.setm (c.arg.setWidth 64))) (op : c.op = 0x14)
  | rd (cell : Cell) (h : decode c = .ok (.rd cell)) (op : c.op = 0x80 ||| cell.index.setWidth 8)

theorem decoded {F : Fmt} (c : Command F) : Decoded c := by
  obtain ⟨op, arg⟩ := c
  have hd := decode_eq (F := F) ⟨op, arg⟩
  rw [rowOf_cases] at hd
  simp only at hd
  by_cases h1 : op = 0x01
  · subst h1; exact .init hd rfl
  by_cases h2 : op = 0x02
  · subst h2; exact .step hd rfl
  by_cases h3 : op = 0x10
  · subst h3; exact .setf hd rfl
  by_cases h4 : op = 0x11
  · subst h4; exact .setc hd rfl
  by_cases h5 : op = 0x12
  · subst h5; exact .setq hd rfl
  by_cases h6 : op = 0x13
  · subst h6; exact .setl hd rfl
  by_cases h7 : op = 0x14
  · subst h7; exact .setm hd rfl
  simp only [h1, h2, h3, h4, h5, h6, h7, if_false] at hd
  by_cases h8 : 0x80 ≤ op.toNat
  · simp only [h8, if_true] at hd
    have key : ∀ o : BitVec 8, 0x80 ≤ o.toNat → 0x80 ||| (o.setWidth 7).setWidth 8 = o ∧ (o.setWidth 7).toNat = o.toNat - 0x80 := by
      decide +kernel
    have hs := cellOfIndex_isSome (op.setWidth 7)
    rw [(key op h8).2] at hs
    rcases hc : cellOfIndex (op.setWidth 7) with _ | cell
    · rw [hc] at hd hs
      refine .reserved _ hd ?_
      simp only [Option.isSome_none, Bool.false_eq, decide_eq_false_iff_not] at hs
      have : 0x97 ≤ op.toNat := by omega
      simp [Machine.isReservedOpcode, this]
    · rw [hc] at hd
      refine .rd cell hd ?_
      rw [index_of_cellOfIndex hc, (key op h8).1]
  · simp only [h8, if_false] at hd
    refine .reserved _ hd ?_
    have key : ∀ o : BitVec 8, Machine.isReservedOpcode o = true ∨ o ∈ [1, 2, 16, 17, 18, 19, 20] ∨ 128 ≤ o.toNat := by
      decide +kernel
    have := key op
    simp only [List.mem_cons, List.not_mem_nil] at this
    tauto

theorem rd_opcode_class (c : Cell) :
    Machine.isReservedOpcode (0x80 ||| c.index.setWidth 8) = false ∧ Machine.isFormatA (0x80 ||| c.index.setWidth 8) = false ∧
      (0x80 ||| c.index.setWidth 8 : BitVec 8) ≠ 0x01 ∧ (0x80 ||| c.index.setWidth 8 : BitVec 8).toNat - 0x80 = c.index.toNat ∧
      (0x80 ||| c.index.setWidth 8 : BitVec 8).toNat ≤ 0x96 := by
  cases c <;> decide

/-- The operand a format-A command's meaning takes is `cmd_arg`. -/
theorem operand_setWidth {F : Fmt} (w : Word F) : Machine.operand F (w.setWidth 64) = w := setWidth_roundTrip w

end Sys2Proof
end

