-- ==== Sys2Proof/Laws/PerInstr.lean ====
section
/-!
SUPPORT. Per-instruction facts about the encoding: the opcode that the encoder gives an instruction belongs to the row of its
mnemonic in the opcode map, and to no other class (30_encoding.md R44, R49).
-/

namespace Sys2Proof.Laws.OpcodeRow

open Sys2Proof Sys2Proof.Machine

/-- The mnemonic of an instruction (30_encoding.md R44). -/
def mnemonicOf : Instr → Mnemonic
  | .init _ => .INIT
  | .step => .STEP
  | .setf _ => .SETF
  | .setc _ => .SETC
  | .setq _ => .SETQ
  | .setl _ => .SETL
  | .setm _ => .SETM
  | .rd _ => .RD

/-- The opcode of `i` lies in the row of its mnemonic and is not reserved, and `i` carries an operand exactly when its opcode is
of format A. -/
def Statement (i : Instr) : Prop :=
  ∀ F : Fmt, rowOf (encode F i).op = some (mnemonicOf i) ∧ isReservedOpcode (encode F i).op = false ∧
    (isFormatA (encode F i).op = true ↔ mnemonicOf i ≠ .STEP ∧ mnemonicOf i ≠ .RD)

theorem init (sr : BitVec 64) : Statement (.init sr) := fun F => by
  show rowOf 0x01 = some .INIT ∧ isReservedOpcode 0x01 = false ∧
    (isFormatA 0x01 = true ↔ Mnemonic.INIT ≠ .STEP ∧ Mnemonic.INIT ≠ .RD); decide

theorem step : Statement .step := fun F => by
  show rowOf 0x02 = some .STEP ∧ isReservedOpcode 0x02 = false ∧
    (isFormatA 0x02 = true ↔ Mnemonic.STEP ≠ .STEP ∧ Mnemonic.STEP ≠ .RD); decide

theorem setf (v : BitVec 64) : Statement (.setf v) := fun F => by
  show rowOf 0x10 = some .SETF ∧ isReservedOpcode 0x10 = false ∧
    (isFormatA 0x10 = true ↔ Mnemonic.SETF ≠ .STEP ∧ Mnemonic.SETF ≠ .RD); decide

theorem setc (v : BitVec 64) : Statement (.setc v) := fun F => by
  show rowOf 0x11 = some .SETC ∧ isReservedOpcode 0x11 = false ∧
    (isFormatA 0x11 = true ↔ Mnemonic.SETC ≠ .STEP ∧ Mnemonic.SETC ≠ .RD); decide

theorem setq (v : BitVec 64) : Statement (.setq v) := fun F => by
  show rowOf 0x12 = some .SETQ ∧ isReservedOpcode 0x12 = false ∧
    (isFormatA 0x12 = true ↔ Mnemonic.SETQ ≠ .STEP ∧ Mnemonic.SETQ ≠ .RD); decide

theorem setl (v : BitVec 64) : Statement (.setl v) := fun F => by
  show rowOf 0x13 = some .SETL ∧ isReservedOpcode 0x13 = false ∧
    (isFormatA 0x13 = true ↔ Mnemonic.SETL ≠ .STEP ∧ Mnemonic.SETL ≠ .RD); decide

theorem setm (v : BitVec 64) : Statement (.setm v) := fun F => by
  show rowOf 0x14 = some .SETM ∧ isReservedOpcode 0x14 = false ∧
    (isFormatA 0x14 = true ↔ Mnemonic.SETM ≠ .STEP ∧ Mnemonic.SETM ≠ .RD); decide

theorem rd (c : Cell) : Statement (.rd c) := fun F =>
  ⟨(rd_opcode c).1, (rd_opcode_class c).1, by
    rw [show (encode F (.rd c)).op = 0x80 ||| c.index.setWidth 8 from rfl, (rd_opcode_class c).2.1]; simp [mnemonicOf]⟩

end Sys2Proof.Laws.OpcodeRow
end

