-- ==== Sys2Proof/Tests/Slice0.lean ====
section
/-!
SUPPORT. The model's own tests. Every expected value is copied from the spec (the rule or the vector of 95_test_vectors.md named at
the test), never from the model. The second half holds the witnesses: concrete states and operands that meet the hypotheses of each
statement, at boundary values.
-/

set_option Elab.async false

namespace Sys2Proof.Tests

open Sys2Proof Sys2Proof.Machine

/-! ### Helpers -/

/-- The functions of the vectors at the angles the tests reach: `w` of cutoff 1000 (42_biquad_filter.md R71, V30), of 22050 (V35),
both printed by the spec, and of 2200 (computed with the binary64 functions of a C library and rounded, as 95_test_vectors.md says). -/
def vectorNum : Num .b32 where
  sin a := if a = 0x3E11E531#32 then 0x3E1166F5#32 else if a = 0x40490FDA#32 then 0x34222169#32
    else if a = 0x3EA07C1C#32 then 0x3E9DDEA9#32 else 0
  cos a := if a = 0x3E11E531#32 then 0x3F7D67F4#32 else if a = 0x40490FDA#32 then 0xBF800000#32
    else if a = 0x3EA07C1C#32 then 0x3F7386DA#32 else 0
  tanh _ := 0

/-- One quiet NaN everywhere. -/
def vectorEnv : Env .b32 := ⟨vectorNum, fun _ => 0x7FC00000#32, fun _ => false⟩

/-- The parameters of the vectors (00_scope.md R6). -/
def vectorParams : Params .b32 := ⟨.sine, 0x3F800000#32, 0#32⟩

/-- The Voice that `INIT 44100` constructs with them. -/
def voice44100 : Voice .b32 := voiceNew vectorEnv vectorParams 0x472C4400#32

/-- A state of the 32-bit build. -/
def stateOf (v : Voice .b32) (ctor : Bool) (input : List (HostEvent .b32)) : State := ⟨.b32, v, ctor, input, [], 0⟩

def notConstructed : State := stateOf (Voice.zero .b32) false []
def constructed : State := stateOf voice44100 true []

/-- The statuses given, in order. -/
def statuses : Result → List Status
  | .next t => t.output.map Response.status
  | .fault _ => []
  | .refused _ => []

/-- The data given, in order, as numbers. -/
def dataOf : Result → List Nat
  | .next t => t.output.map fun r => r.data.toNat
  | .fault _ => []
  | .refused _ => []

/-- A cell of the next state, as a number. -/
def cellOf (c : Cell) : Result → Option Nat
  | .next t => some (voiceRead t.voice c).toNat
  | .fault _ => none
  | .refused _ => none

/-- `CTOR` of the next state. -/
def ctorOf : Result → Option Bool
  | .next t => some t.ctor
  | .fault _ => none
  | .refused _ => none

/-! ### WellFormed: an operand wider than `cmd_arg` is refused (30_encoding.md R44) -/

theorem test_wide_init_refused : (Instr.init 0x100000000).wellFormed .b32 = false := by decide
theorem test_wide_setf_refused : (Instr.setf 0x100000000).wellFormed .b32 = false := by decide
theorem test_wide_setc_refused : (Instr.setc 0x8000000000000000).wellFormed .b32 = false := by decide
theorem test_wide_setq_refused : (Instr.setq 0x100000000).wellFormed .b32 = false := by decide
theorem test_wide_setl_refused : (Instr.setl 0x100000000).wellFormed .b32 = false := by decide
theorem test_wide_setm_refused : (Instr.setm 0xFFFFFFFFFFFFFFFF).wellFormed .b32 = false := by decide
theorem test_full_width_accepted : (Instr.setm 0xFFFFFFFF).wellFormed .b32 = true ∧
    (Instr.setm 0xFFFFFFFFFFFFFFFF).wellFormed .b64 = true ∧ Instr.step.wellFormed .b32 = true ∧
    (Instr.rd .vcaCur).wellFormed .b32 = true := by decide

/-! ### Decoding words the spec writes out (30_encoding.md R44, R51; 95_test_vectors.md P1 to P4) -/

theorem test_decode_init : decode (⟨0b00000001#8, 0x472C4400#32⟩ : Command .b32) = .ok (.init 0x472C4400) := by decide
theorem test_decode_step : decode (⟨0b00000010#8, 0xFFFFFFFF#32⟩ : Command .b32) = .ok .step := by decide
theorem test_decode_setf : decode (⟨0b00010000#8, 0x4E6E6B28#32⟩ : Command .b32) = .ok (.setf 0x4E6E6B28) := by decide
theorem test_decode_setc : decode (⟨0b00010001#8, 0xFF800000#32⟩ : Command .b32) = .ok (.setc 0xFF800000) := by decide
theorem test_decode_setq : decode (⟨0b00010010#8, 0x42480000#32⟩ : Command .b32) = .ok (.setq 0x42480000) := by decide
theorem test_decode_setl : decode (⟨0b00010011#8, 0x42C80000#32⟩ : Command .b32) = .ok (.setl 0x42C80000) := by decide
theorem test_decode_setm : decode (⟨0b00010100#8, 0xBF800000#32⟩ : Command .b32) = .ok (.setm 0xBF800000) := by decide
theorem test_decode_rd : decode (⟨0b10001001#8, 0#32⟩ : Command .b32) = .ok (.rd .fltCutoff) := by decide
theorem test_decode_rd_wide : decode (⟨0b10001010#8, 0xDEADBEEF#64⟩ : Command .b64) = .ok (.rd .fltRes) := by decide
theorem test_decode_init_wide :
    decode (⟨0b00000001#8, 0x40E5888000000000#64⟩ : Command .b64) = .ok (.init 0x40E5888000000000) := by decide
theorem test_decode_reserved : decode (⟨0b10010111#8, 0#32⟩ : Command .b32) = .error (.reservedIndex 0x17) ∧
    decode (⟨0b00000011#8, 0#32⟩ : Command .b32) = .error (.reservedOpcode 0x03) ∧
    decode (⟨0b00010101#8, 0#32⟩ : Command .b32) = .error (.reservedOpcode 0x15) ∧
    decode (⟨0b01111111#8, 0#32⟩ : Command .b32) = .error (.reservedOpcode 0x7F) := by decide

/-- The pseudo-instructions expand as R51 says. -/
theorem test_pseudo : getcut.map (encode .b32) = [⟨0x89, 0⟩] ∧ (steps 2).map (encode .b32) = [⟨0x02, 0⟩, ⟨0x02, 0⟩] := by decide

/-- The words of spec/opcode_table.json, operand bits zero. -/
theorem test_table_words : [0x01, 0x02, 0x10, 0x11, 0x12, 0x13, 0x14, 0x80].map (decodeTableWord 8) =
    [some (.init 0), some .step, some (.setf 0), some (.setc 0), some (.setq 0), some (.setl 0), some (.setm 0), some (.rd .sr)] ∧
    decodeTableWord 8 0x00 = none := by decide

/-- Each of those words, issued as the first command after reset: `INIT` of 0 Hz is below 40 (R48), the others find no Voice. -/
theorem test_first_steps : [0x01, 0x02, 0x10, 0x11, 0x12, 0x13, 0x14, 0x80].map
    (fun w => statuses (step (State.reset.withFetchWord 8 w))) =
    [[.badArg], [.notReady], [.notReady], [.notReady], [.notReady], [.notReady], [.notReady], [.notReady]] := by decide +kernel

/-- A table word with its operand: `01:472C4400`, `cmd_op` in the low eight bits. -/
theorem test_first_init : statuses (step (State.reset.withFetchWord 40 0x472C440001)) = [.ok] ∧
    ctorOf (step (State.reset.withFetchWord 40 0x472C440001)) = some true ∧
    cellOf .sr (step (State.reset.withFetchWord 40 0x472C440001)) = some 0x472C4400 := by decide +kernel

/-! ### Codes -/

theorem test_status_codes : [Status.ok, .illegal, .notReady, .badArg].map statusCode = [0, 1, 2, 3] := by decide
theorem test_shape_codes : [Shape.sine, .triangle, .ramp, .smoothSquare].map shapeCode = [0, 1, 2, 3] := by decide

/-! ### Primitives (95_test_vectors.md V1 to V5) -/

theorem test_literals : ([lit 1 4, lit 1 2, lit 20, lit 400, lit 440, lit 1000, lit 3600, lit 20000] : List (Word .b32)) =
    [0x3E800000, 0x3F000000, 0x41A00000, 0x43C80000, 0x43DC0000, 0x447A0000, 0x45610000, 0x469C4000] := by decide +kernel
theorem test_literals_wide : ([lit 440, lit 44100] : List (Word .b64)) = [0x407B800000000000, 0x40E5888000000000] := by
  decide +kernel
theorem test_clamp : ([clamp (lit 30000) (lit 20) (lit 22050), clamp 0xFF800000#32 (lit 20) (lit 22050),
    clamp 0x7F800000#32 (lit 1 10) (lit 10), clamp 0x80000000#32 (lit 0) (lit 1), clamp (lit 3 10) (lit 0) (lit 1)] :
    List (Word .b32)) = [lit 22050, lit 20, lit 10, 0x80000000, lit 3 10] := by decide +kernel
theorem test_wrap1 : ([wrap1 0 true (lit 3 4), wrap1 0 true (lit 1), wrap1 0 true (lit 17 8), wrap1 0 true (lit 11)] :
    List (Word .b32)) = [lit 3 4, 0, lit 1 8, 0] := by decide +kernel
/-- The C `fmod(-2.125, 1)` is -0.125 (00_scope.md R16). -/
theorem test_wrap1_negative : wrap1 (F := .b32) 0 false 0xC0080000#32 = 0xBE000000#32 := by decide +kernel

/-! ### Oscillators (V10, V12, V14, V16, V19a) -/

theorem test_advance_440 :
    let o1 := oscAdvance vectorEnv .sine 0x472C4400#32 ⟨0x43DC0000#32, 0⟩
    let o2 := oscAdvance vectorEnv .sine 0x472C4400#32 o1
    [o1.phase, o2.phase, (oscAdvance vectorEnv .sine 0x472C4400#32 o2).phase] = [0x3C2377EE, 0x3CA377EE, 0x3CF533E5] := by
  decide +kernel
theorem test_advance_true_modulo : (oscAdvance vectorEnv .lfo (lit 8) ⟨lit 17, 0⟩).phase = lit 1 8 ∧
    (oscAdvance vectorEnv .lfo 0x473B8000#32 ⟨lit 6000, lit 7 8⟩).phase = 0 := by decide +kernel
theorem test_square_eighths : [0, 1, 2, 3, 4, 5, 6, 7].map (fun k => (squareNext vectorEnv (lit 8) ⟨lit 1, lit k 8⟩).1) =
    [0x3F800000, 0x3F800000, 0x3F800000, 0x3F800000, 0xBF800000, 0xBF800000, 0xBF800000, 0xBF800000] := by decide +kernel
theorem test_mixed_setters :
    let m : Mixed .b32 := ⟨⟨lit 440, lit 3 8⟩, ⟨lit 440, lit 3 8⟩, 0x3E99999A#32⟩
    mixedSetFrequency (lit 6000) m = ⟨⟨lit 6000, 0⟩, ⟨lit 6000, 0⟩, 0x3E99999A#32⟩ ∧
    mixedSetMixRatio (lit 1) (mixedSetFrequency (lit 6000) m) = ⟨⟨lit 6000, 0⟩, ⟨lit 6000, 0⟩, 0x3F800000#32⟩ := by decide +kernel
/-- V25. -/
theorem test_modosc_new : modOscNew (lit 20) .smoothSquare = (⟨⟨0x41A00000#32, 0⟩, .smoothSquare⟩ : ModOsc .b32) := by decide +kernel

/-! ### Filter (V30, V36a, V38, V39, V39b, V40, V41) -/

/-- V30: the cells after `Biquad.new(1000, 0.1)`. -/
def filter1000 : Biquad .b32 :=
  ⟨0x447A0000#32, 0x3DCCCCCD#32, 0x3B422B43#32, 0x3BC22B43#32, 0x3B422B43#32, 0xBF943172#32, 0x3E2DAE45#32, 0, 0, 0, 0⟩

theorem test_biquad_new : biquadNew vectorEnv 0x472C4400#32 (lit 1000) (lit 1 10) = filter1000 := by decide +kernel
theorem test_biquad_new_clamps : (biquadNew vectorEnv 0x472C4400#32 (lit 99999) (lit 50)).cutoff = 0x46AC4400#32 ∧
    (biquadNew vectorEnv 0x472C4400#32 (lit 99999) (lit 50)).res = lit 20 ∧
    (biquadNew vectorEnv 0x472C4400#32 (lit 1) (lit 0)).cutoff = lit 20 ∧
    (biquadNew vectorEnv 0x472C4400#32 (lit 1) (lit 0)).res = 0x3DCCCCCD#32 := by decide +kernel
/-- V32, the first two outputs. -/
theorem test_impulse : (biquadProcess vectorEnv filter1000 (lit 1)).1 = 0x3B422B43#32 ∧
    (biquadProcess vectorEnv (biquadProcess vectorEnv filter1000 (lit 1)).2 0).1 = 0x3C1948E3#32 := by decide +kernel
def corrupted : Biquad .b32 :=
  { filter1000 with x1 := 0x3F400000#32, x2 := 0xBF000000#32, y1 := 0x7F800000#32, y2 := 0x3E000000#32 }
theorem test_guard : biquadProcess vectorEnv corrupted 0x3E800000#32 = (0x3E800000#32, filter1000) := by decide +kernel
theorem test_after_guard : biquadProcess vectorEnv filter1000 0x3F000000#32 =
    (0x3AC22B43#32, { filter1000 with x1 := 0x3F000000#32, y1 := 0x3AC22B43#32 }) := by decide +kernel
theorem test_infinite_input_not_stored : biquadProcess vectorEnv filter1000 0x7F800000#32 = (0x7F800000#32, filter1000) := by
  decide +kernel
theorem test_set_modulation_cutoffs : ([fneg (lit 1), lit 0, lit 1, lit 1 4, fneg (lit 1 4)] : List (Word .b32)).map
    (fun v => (biquadSetModulation vectorEnv 0x472C4400#32 v filter1000).cutoff) =
    [0x43C80000, 0x45098000, 0x457A0000, 0x4525A000, 0x44DAC000] := by decide +kernel
theorem test_set_modulation_clamps : ([fneg (lit 3 2), lit 11, 0x7F800000#32, 0xFF800000#32] : List (Word .b32)).map
    (fun v => (biquadSetModulation vectorEnv 0x472C4400#32 v filter1000).cutoff) =
    [0x41A00000, 0x46ABE000, 0x46AC4400, 0x41A00000] := by decide +kernel

/-! ### VCA (V43 to V47) -/

theorem test_vca_half_depth : vcaSetModulation vectorEnv (lit 1) ⟨0x3F4CCCCD#32, lit 1 2, lit 1⟩ =
      ⟨0x3F4CCCCD#32, 0x3F000000#32, 0x3FA00000#32⟩ ∧
    vcaProcess vectorEnv ⟨0x3F4CCCCD#32, lit 1 2, 0x3FA00000#32⟩ (lit 1 2) = 0x3F000000#32 := by decide +kernel
theorem test_vca_process : ([lit 1, lit 1 2, lit 3 2] : List (Word .b32)).map
    (fun c => vcaProcess vectorEnv ⟨0x3F4CCCCD#32, 0, c⟩ (lit 1 2)) = [0x3ECCCCCD, 0x3E4CCCCD, 0x3F19999A] := by decide +kernel
theorem test_vca_depth_zero : (vcaSetModulation vectorEnv (lit 7 10) ⟨0x3F4CCCCD#32, 0, lit 1⟩).cur = lit 1 ∧
    isNaN (vcaSetModulation vectorEnv 0x7F800000#32 ⟨0x3F4CCCCD#32, 0, lit 1⟩).cur = true := by decide +kernel

/-! ### Commands (P1, P2, P4, V59, V61, V62) -/

/-- P1: the first `STEP` after `INIT 44100`. -/
theorem test_first_sample : (voiceProcess vectorEnv voice44100).1 = 0x3ABC7224#32 := by decide +kernel
theorem test_first_sample_state :
    (voiceProcess vectorEnv voice44100).2.flt =
        ⟨0x45098000#32, 0x3DCCCCCD#32, 0x3C1D09C8#32, 0x3C9D09C8#32, 0x3C1D09C8#32, 0xBF3FA016#32, 0xBE5A3D35#32,
          0x3E99999A#32, 0, 0x3B3C7224#32, 0⟩ ∧
      (voiceProcess vectorEnv voice44100).2.osc.sin.phase = 0x3C2377EE#32 ∧
      (voiceProcess vectorEnv voice44100).2.lfo.osc.phase = 0x373E37C6#32 := by decide +kernel
theorem test_init_small_rate : (voiceNew vectorEnv vectorParams (lit 1000)).flt.cutoff = 0x43FA0000#32 := by decide +kernel
theorem test_init_rejected : statuses (exec (.init 0x41F00000) notConstructed) = [.badArg] ∧
    statuses (exec (.init 0x7F800000) constructed) = [.badArg] ∧ ctorOf (exec (.init 0x42200000) notConstructed) = some true := by
  decide +kernel
theorem test_step_not_ready : statuses (exec .step notConstructed) = [.notReady] ∧ dataOf (exec .step notConstructed) = [0] := by
  decide +kernel
theorem test_setf : (cellOf .oscSinFreq (exec (.setf 0x40A00000) constructed), cellOf .oscSqrFreq (exec (.setf 0x4E6E6B28) constructed)) =
    (some 0x41A00000, some 0x469C4000) := by decide +kernel
theorem test_setf_nan : statuses (exec (.setf 0x7FC00000) constructed) = [.badArg] ∧
    statuses (exec (.setf 0x7FC00000) notConstructed) = [.notReady] := by decide +kernel
theorem test_setc : (cellOf .fltCutoff (exec (.setc 0x46EA6000) constructed), cellOf .fltCutoff (exec (.setc 0xFF800000) constructed)) =
    (some 0x46AC4400, some 0x41A00000) := by decide +kernel
theorem test_setq : (cellOf .fltRes (exec (.setq 0x42480000) constructed), cellOf .fltRes (exec (.setq 0) constructed)) =
    (some 0x41200000, some 0x3DCCCCCD) := by decide +kernel
theorem test_setl : (cellOf .lfoFreq (exec (.setl 0x42C80000) constructed), cellOf .lfoFreq (exec (.setl 0) constructed)) =
    (some 0x41A00000, some 0x3C23D70A) := by decide +kernel
theorem test_setm : [0x3FC00000, 0xBF800000, 0x80000000].map (fun v => cellOf .oscMix (exec (.setm v) constructed)) =
    [some 0x3F800000, some 0, some 0x80000000] := by decide +kernel
theorem test_setm_signalling_nan : statuses (exec (.setm 0x7F800001) constructed) = [.badArg] := by decide +kernel
theorem test_rd : [Cell.sr, .oscSinFreq, .lfoShape, .vcaCur].flatMap (fun c => dataOf (exec (.rd c) constructed)) =
    [0x472C4400, 0x43DC0000, 0, 0x3F800000] := by decide +kernel
theorem test_reserved_is_illegal : statuses (step { notConstructed with input := [.command ⟨0x00, 0⟩] }) = [.illegal] ∧
    statuses (step { constructed with input := [.command ⟨0x97, 0⟩] }) = [.illegal] := by decide +kernel

/-- Overflow by roundTiesToEven (00_scope.md R11; the largest words and the threshold 2^128 - 2^103 are binary32's): the largest
finite word plus half its last place is an infinity, plus anything less it stays. -/
theorem test_overflow_threshold : largestFinite .b32 = (0x7F7FFFFF#32 : Word .b32) ∧ largestFinite .b64 = (0x7FEFFFFFFFFFFFFF#64 : Word .b64) ∧
    overflowBound .b32 = 2 * (2 ^ 128 - 2 ^ 103) * 2 ^ 149 ∧
    fadd (F := .b32) 0 0x7F7FFFFF#32 0x73000000#32 = 0x7F800000#32 ∧
    fadd (F := .b32) 0 0x7F7FFFFF#32 0x72FFFFFF#32 = 0x7F7FFFFF#32 := by decide +kernel

/-! ### Witnesses: the hypotheses of each statement are met by these, at the boundaries of their clauses -/

/-- The environment of the machine's first command. -/
def firstEnv : Env .b32 := drawEnv .b32 0

theorem witness_env_valid : firstEnv.Valid := drawEnv_valid .b32 0

/-- `s` with one event issued. -/
def issuing (v : Voice .b32) (ctor : Bool) (e : HostEvent .b32) : State := stateOf v ctor [e]

theorem witness_DecodeOfEncode : (Instr.setf 0xFFFFFFFF).wellFormed .b32 = true ∧ (Instr.rd .vcaCur).wellFormed .b64 = true := by
  decide

theorem witness_EncodeOfDecode : decode (⟨0x14, 0xFFFFFFFF#32⟩ : Command .b32) = .ok (.setm 0xFFFFFFFF) ∧
    isFormatA 0x14 = true ∧ decode (⟨0x96, 0#32⟩ : Command .b32) = .ok (.rd .vcaCur) ∧ isFormatA 0x96 = false := by decide

theorem witness_StepRunsTheIssuedCommand : notConstructed.input = [] ∧
    (issuing voice44100 true (.command ⟨0x02, 0⟩)).input = .command ⟨0x02, 0⟩ :: [] ∧
    decode (⟨0x02, 0#32⟩ : Command .b32) = .ok .step := ⟨rfl, rfl, by decide⟩

/-- The four clauses of the checks: reserved at the edges of the reserved ranges, not ready, bad operand, passing. -/
theorem witness_ChecksInOrder :
    (issuing voice44100 true (.command ⟨0x97, 0⟩)).input = .command ⟨0x97, 0⟩ :: [] ∧
    [0x00, 0x03, 0x0F, 0x15, 0x7F, 0x97, 0xFF].all isReservedOpcode = true ∧
    [0x01, 0x02, 0x10, 0x14, 0x80, 0x96].any isReservedOpcode = false ∧
    notConstructed.ctor = false ∧ (0x10 : BitVec 8) ≠ 0x01 ∧
    isFormatA 0x14 = true ∧ operandPasses (F := .b32) 0x14 0x7F800001#32 = false ∧
    isFormatA 0x01 = true ∧ operandPasses (F := .b32) 0x01 0x421FFFFF#32 = false ∧
    operandPasses (F := .b32) 0x01 0x42200000#32 = true ∧ operandPasses (F := .b32) 0x10 0xFF800000#32 = true ∧
    isFormatA 0x80 = false ∧ constructed.ctor = true := by decide +kernel

/-- `CTOR` falls at `rst` and rises at `INIT`. -/
theorem witness_CtorChangesOnlyAtResetAndInit :
    (∃ t, step (issuing voice44100 true .rst) = .next t ∧ t.ctor = false) ∧
    (∃ t, step (issuing (Voice.zero .b32) false (.command ⟨0x01, 0x42200000#32⟩)) = .next t ∧ t.ctor = true) :=
  ⟨⟨_, step_rst rfl, rfl⟩, ⟨_, (step_command rfl (by decide : decode (⟨0x01, 0x42200000#32⟩ : Command .b32) = .ok (.init 0x42200000))).trans
    (exec_init_ok (by decide +kernel)), rfl⟩⟩

theorem witness_PowerOnReset : (issuing voice44100 true .rst).input = .rst :: [] := rfl

/-- Rates 40, just below 2000, and 2000; just below 40. -/
theorem witness_InitConstructsTheVoice :
    initOperandOk (operand .b32 0x42200000) = true ∧ flt (operand .b32 0x42200000) (lit 2000) = true ∧
    initOperandOk (operand .b32 0x44F9FFFF) = true ∧ flt (operand .b32 0x44F9FFFF) (lit 2000) = true ∧
    initOperandOk (operand .b32 0x44FA0000) = true ∧ fge (operand .b32 0x44FA0000) (lit 2000) = true ∧
    initOperandOk (operand .b32 0x421FFFFF) = false := by decide +kernel

theorem witness_InitAcceptsExactlyRatesFromForty : isNaN (F := .b32) 0x7F800001#32 = true ∧ isInf (F := .b32) 0x7F800000#32 = true ∧
    signBit (F := .b32) 0xC72C4400#32 = true ∧ expField (F := .b32) 0x007FFFFF#32 = 0 ∧
    isFinite (F := .b32) 0x42200000#32 = true ∧ 40 * 2 ^ unitExp .b32 ≤ valueUnits (F := .b32) 0x42200000#32 := by decide +kernel

theorem witness_StepRunsThePipeline : constructed.ctor = true ∧ notConstructed.ctor = false := ⟨rfl, rfl⟩

theorem witness_StepForgetsTheSetCutoff : constructed.ctor = true ∧ filter1000.res = { filter1000 with cutoff := lit 20 }.res ∧
    filter1000 ≠ { filter1000 with cutoff := lit 20 } := by decide +kernel

/-- Finite words from 0 up, negative words with a fraction and without (-1), zeros and an infinity. -/
theorem witness_WrapIsTheExactRemainder : isFinite (F := .b32) 0x3F800000#32 = true ∧ signBit (F := .b32) 0x3F800000#32 = false ∧
    isFinite (F := .b32) 0x80000001#32 = true ∧ signBit (F := .b32) 0x80000001#32 = true ∧ isZero (F := .b32) 0x80000001#32 = false ∧
    isFinite (F := .b32) 0xBF800000#32 = true ∧ signBit (F := .b32) 0xBF800000#32 = true ∧ isZero (F := .b32) 0xBF800000#32 = false ∧
    isZero (F := .b32) 0x80000000#32 = true ∧ isFinite (F := .b32) 0x80000000#32 = true ∧
    isFinite (F := .b32) 0x7F800000#32 = false := by decide +kernel

theorem witness_PhaseStaysInUnitInterval : isPhase (F := .b32) 0x3F7FFFFF#32 = true ∧ isPhase (F := .b32) 0#32 = true ∧
    isPhase (F := .b32) 0x3F800000#32 = false ∧
    isFinite (fdiv (firstEnv.nan (.inc .sine)) (lit 20000 : Word .b32) (lit 40)) = true ∧
    0 ≤ valueUnits (fdiv (firstEnv.nan (.inc .sine)) (lit 20000 : Word .b32) (lit 40)) := by decide +kernel

/-- The smallest accepted rate with the largest and the smallest positive frequency. -/
theorem witness_PhaseInvariantAtAcceptedRates : isPhase (F := .b32) 0x3F7FFFFF#32 = true ∧
    isFinite (F := .b32) 0x7F7FFFFF#32 = true ∧ 0 < valueUnits (F := .b32) 0x7F7FFFFF#32 ∧
    isFinite (F := .b32) 1#32 = true ∧ 0 < valueUnits (F := .b32) 1#32 ∧ initOperandOk (F := .b32) 0x42200000#32 = true := by
  decide +kernel

theorem witness_SquareIsPlusOrMinusOne : flt (F := .b32) 0x3EFFFFFF#32 (lit 1 2) = true ∧ flt (F := .b32) 0x3F000000#32 (lit 1 2) = false := by
  decide +kernel

theorem witness_SineSamplesThenAdvances : (⟨lit 440, 0⟩ : Osc .b32).phase = 0 ∧ isPhase (F := .b32) 0x3F7FFFFF#32 = true :=
  ⟨rfl, by decide +kernel⟩

theorem witness_CrossfadeEndpoints : isFinite (F := .b32) 0xB3BBBD2E#32 = true ∧ isZero (F := .b32) 0xB3BBBD2E#32 = false ∧
    isFinite (F := .b32) 0x80000000#32 = true ∧ isZero (F := .b32) 0x80000000#32 = true := by decide +kernel

theorem witness_CrossfadeIsBounded : inRange (F := .b32) 0x80000000#32 (lit 0) (lit 1) = true ∧
    inRange (F := .b32) (lit 1) (lit 0) (lit 1) = true ∧ inRange (F := .b32) (fneg (lit 1)) (fneg (lit 1)) (lit 1) = true := by
  decide +kernel

theorem witness_LfoShapeRanges : isPhase (F := .b64) 0x3FEFFFFFFFFFFFFF#64 = true := by decide +kernel

theorem witness_BiquadConstruction : firstEnv.Valid ∧ initOperandOk (F := .b32) 0x42200000#32 = true ∧
    isNaN (F := .b32) 0x7F800000#32 = false ∧ isNaN (F := .b32) 0xFF800000#32 = false := ⟨witness_env_valid, by decide +kernel⟩

theorem witness_CoefficientDerivation : vectorEnv.num.cos 0x3E11E531#32 = 0x3F7D67F4#32 ∧
    vectorEnv.num.sin 0x3E11E531#32 = 0x3E1166F5#32 ∧ filter1000.cutoff = 0x447A0000#32 ∧ filter1000.res = 0x3DCCCCCD#32 := by
  decide

theorem witness_GuardBypassesAndClearsHistory : isFinite (biquadOutput vectorEnv corrupted 0x3E800000#32) = false := by
  decide +kernel

theorem witness_FiniteOutputShiftsHistory : firstEnv.Valid ∧ isFinite (biquadOutput firstEnv filter1000 (lit 1)) = true ∧
    isFinite (F := .b32) 0x7F800000#32 = false := ⟨witness_env_valid, by decide +kernel⟩

theorem witness_FilteringKeepsHistoryFinite : firstEnv.Valid ∧ historyFinite filter1000 = true ∧
    isFinite (F := .b32) 0x7F7FFFFF#32 = true := ⟨witness_env_valid, by decide +kernel⟩

theorem witness_OutputAfterTheGuard : isFinite (biquadOutput vectorEnv corrupted 0x3E800000#32) = false ∧
    coefficientsFinite corrupted = true ∧ isFinite (fmul (vectorEnv.nan .t0) corrupted.a0 0x3F000000#32) = true ∧
    isZero (fmul (vectorEnv.nan .t0) corrupted.a0 0x3F000000#32) = false := by decide +kernel

theorem witness_ModulationMapsUnitRange : inRange (F := .b32) 0x80000001#32 (fneg (lit 1)) (lit 1) = true ∧
    inRange (F := .b32) (fneg (lit 1)) (fneg (lit 1)) (lit 1) = true := by decide +kernel

theorem witness_SetModulationReplacesTheCutoff : firstEnv.Valid ∧ initOperandOk (F := .b32) 0x42200000#32 = true ∧
    isNaN (F := .b32) 0xFF800000#32 = false := ⟨witness_env_valid, by decide +kernel⟩

theorem witness_UnmodulatedVcaIsItsGain : firstEnv.Valid ∧
    ∀ c ∈ ([(firstEnv, 0xFF7FFFFF#32), (firstEnv, 0x7F7FFFFF#32)] : List (Env .b32 × Word .b32)), isFinite c.2 = true := by
  refine ⟨witness_env_valid, ?_⟩
  simp only [List.mem_cons, List.not_mem_nil, or_false, forall_eq_or_imp, forall_eq]
  decide +kernel

/-- The three clauses of each setter: no Voice, a NaN, and an operand that is none (an infinity). -/
theorem witness_Setters : notConstructed.ctor = false ∧ constructed.ctor = true ∧
    isNaN (operand .b32 0x7F800001) = true ∧ isNaN (operand .b32 0xFFFFFFFF) = true ∧
    isNaN (operand .b32 0x7F800000) = false ∧ isNaN (operand .b32 0xFF800000) = false := by decide +kernel

theorem witness_SetcReconstructsTheFilter : constructed.ctor = true ∧ isNaN (operand .b32 0x7F800000) = false ∧
    initOperandOk constructed.voice.sr = true ∧ inRange constructed.voice.flt.res (lit 1 10) (lit 20) = true ∧
    fgt (operand .b32 0x46AC4401) 0x46AC4400#32 = true := by decide +kernel

theorem witness_SetqReconstructsTheFilter : constructed.ctor = true ∧ isNaN (operand .b32 0xFF800000) = false ∧
    inRange constructed.voice.flt.cutoff (lit 20) (fdiv (constructed.env.nan .halfNew) constructed.voice.sr (lit 2)) = true := by
  decide +kernel

theorem witness_SetmSetsTheMixRatio : isNaN (operand .b32 0x80000000) = false ∧ operand .b32 0x80000000 = fneg 0 := by
  decide +kernel

/-- The clauses of `RD`: the first and the last legal index with a Voice, the first reserved index, no Voice. -/
theorem witness_ReadAnswersTheIndexedCell :
    (issuing voice44100 true (.command ⟨0x80, 0⟩)).input = .command ⟨0x80, 0⟩ :: [] ∧
    (cellsInOrder voice44100)[0x80 - 0x80]? = some 0x472C4400#32 ∧ (cellsInOrder voice44100)[0x96 - 0x80]? = some (lit 1) ∧
    (cellsInOrder voice44100)[0x97 - 0x80]? = none ∧ 0x97 ≤ (0x97 : BitVec 8).toNat ∧ (0x96 : BitVec 8).toNat ≤ 0x96 ∧
    notConstructed.ctor = false ∧ constructed.ctor = true := by decide +kernel

theorem witness_ReadCompletesAndChangesNothing : constructed.ctor = true := rfl

/-- The Voice that `INIT 44100` constructs on this machine, whatever its open parameters are. -/
def machineVoice : Voice .b32 := voiceNew firstEnv (configParams .b32) 0x472C4400#32

theorem witness_voice_inv : machineVoice.Inv where
  rate := by decide +kernel
  freqEq := rfl
  freqRange := by decide +kernel
  phaseEq := rfl
  phaseRange := by decide +kernel
  mixRange := by decide +kernel
  lfoFreq := by decide +kernel
  lfoPhase := by decide +kernel
  lfoShape := rfl
  cutoffRange := fun nan => by rw [half_nan nan 0 (by decide +kernel)]; decide +kernel
  resRange := by decide +kernel
  consistent := consistent_recompute witness_env_valid _ _
  history := by decide +kernel
  gain := rfl
  amt := rfl
  cur := rfl

theorem witness_InitEstablishesTheInvariant : initOperandOk (operand .b32 0x42200000) = true := by decide +kernel

/-- A constructed state with the invariant, and a `STEP` to take from it. -/
theorem witness_EveryStepKeepsTheInvariant :
    (issuing machineVoice true (.command ⟨0x02, 0⟩)).Inv ∧ (issuing machineVoice true (.command ⟨0x02, 0⟩)).ctor = true ∧
    ∃ t, step (issuing machineVoice true (.command ⟨0x02, 0⟩)) = .next t ∧ t.ctor = true :=
  ⟨fun _ => witness_voice_inv, rfl, _, (step_command rfl (by decide : decode (⟨0x02, 0⟩ : Command .b32) = .ok .step)).trans
    (exec_step_ok rfl), rfl⟩

theorem witness_ReachableStatesHaveTheInvariant : ∃ s, Reachable s ∧ s.voice.sr.toNat = 0x472C4400 :=
  ⟨_, .construct (s := notConstructed) (sr := 0x472C4400) (by decide +kernel) (exec_init_ok (by decide +kernel)), by decide +kernel⟩

theorem witness_SamplesAreNeverNaN : (stateOf machineVoice true []).ctor = true ∧ (stateOf machineVoice true []).voice.Inv :=
  ⟨rfl, witness_voice_inv⟩

/-- A rate of exactly 8000, the largest phase, and a shape for each clause. -/
theorem witness_SweepOfTheCutoff :
    isFinite (F := .b32) (lit 8000) = true ∧ fge (F := .b32) (lit 8000) (lit 8000) = true ∧
    isPhase (F := .b32) 0x3F7FFFFF#32 = true ∧ constructed.ctor = true ∧ constructed.voice.lfo.shape ≠ .smoothSquare := by
  decide +kernel

/-- Finite words, a divisor that is no zero, and a sum at the overflow threshold and just below it. -/
theorem witness_correct_rounding : isFinite (F := .b32) 0x7F7FFFFF#32 = true ∧ isFinite (F := .b32) 0x80000001#32 = true ∧
    isZero (F := .b32) 0x00000001#32 = false ∧
    overflowBound .b32 ≤ 2 * |valueUnits (F := .b32) 0x7F7FFFFF#32 + valueUnits (F := .b32) 0x73000000#32| ∧
    ¬overflowBound .b32 ≤ 2 * |valueUnits (F := .b32) 0x7F7FFFFF#32 + valueUnits (F := .b32) 0x72FFFFFF#32| := by decide +kernel

theorem witness_ZerosAndInfinitiesFollowIeee : isZero (F := .b32) 0x80000000#32 = true ∧ isInf (F := .b32) 0xFF800000#32 = true ∧
    isNaN (F := .b32) 0xFF800000#32 = false ∧ isZero (F := .b32) 0xFF800000#32 = false ∧ isFinite (F := .b32) 0x80000000#32 = true ∧
    isFinite (F := .b32) 0x3F800000#32 = true ∧ isZero (F := .b32) 0x3F800000#32 = false ∧
    valueUnits (F := .b32) 0x3F800000#32 + valueUnits (F := .b32) 0xBF800000#32 = 0 := by decide +kernel

theorem witness_InvalidOperationsGiveNaN : isNaN (F := .b32) 0x7FC00000#32 = true ∧ isInf (F := .b32) 0xFF800000#32 = true ∧
    isZero (F := .b32) 0x80000000#32 = true ∧ isFinite (F := .b32) 0x00000001#32 = true ∧ isZero (F := .b32) 0x00000001#32 = false := by
  decide +kernel

theorem witness_NumericsRecordProperties : isNaN (F := .b32) 0x7FC00000#32 = true ∧ isFinite (F := .b32) 0x7F7FFFFF#32 = true ∧
    isFinite (F := .b32) 0x7F800000#32 = false := by decide +kernel

theorem witness_FiniteMeansNoInfinityAndNoNaN : expField (F := .b32) 0x807FFFFF#32 = 0 ∧ isZero (F := .b32) 0x80000000#32 = true := by
  decide +kernel

/-- Each clause of `clamp` at its boundary. -/
theorem witness_ClampResults : isNaN (F := .b32) (lit 20) = false ∧ fge (F := .b32) (lit 20) (lit 20) = true ∧
    flt (F := .b32) 0x419FFFFF#32 (lit 20) = true ∧ fgt (F := .b32) 0x41A00001#32 (lit 20) = true ∧
    flt (F := .b32) (lit 20) (lit 20) = false ∧ fgt (F := .b32) (lit 20) (lit 20) = false ∧
    isNaN (F := .b32) 0x7FC00000#32 = true ∧ isFinite (F := .b32) (lit 20) = true := by decide +kernel

theorem witness_ProducedNaNsAreAnyQuietNaN : isNaN (F := .b32) 0xFFC00000#32 = true ∧
    2 ^ (Fmt.b32.fracBits - 1) ≤ fracField (F := .b32) 0xFFC00000#32 := by decide +kernel

end Sys2Proof.Tests
end

section
/-!
PROOFS. The statements of 00_scope.md: what a run does to the two ports (R19), the classes of a word (R14), the arithmetic primitives
case by case and their correct rounding (R11), the literals (R12), `NUM` (R13), `clamp` (R15), `wrap1` (R16) and produced NaNs (R17).
-/

namespace Sys2Proof.Machine

variable {F : Fmt}

/-! ### The ports along a run (R19) -/

/-- A step takes at most one event from the head of `input`, and answers it exactly when it is a command. -/
theorem step_answers_taken_event (s : State) : ∃ v b new n,
    step s = .next ⟨s.fw, v, b, s.input.drop 1, s.output ++ new, n⟩ ∧
      new.length = ((s.input.take 1).filter isCommand).length := by
  obtain ⟨t, ht, hcase⟩ := step_cases s
  rw [ht]
  cases hcase with
  | idle h =>
    have hdrop : s.input.drop 1 = s.input := by rw [h]; rfl
    exact ⟨_, _, [], _, by rw [hdrop, List.append_nil], by rw [h]; rfl⟩
  | rst rest h => exact ⟨_, _, [], _, by rw [h, List.append_nil]; rfl, by rw [h]; rfl⟩
  | illegal c rest r h hd => exact ⟨_, _, [⟨.illegal, 0⟩], _, by rw [h]; rfl, by rw [h]; rfl⟩
  | command c rest i t h hd he ha =>
    obtain ⟨v, b, k, d, n, rfl⟩ := answer_form ha
    exact ⟨v, b, [⟨k, d⟩], n, by rw [h]; rfl, by rw [h]; rfl⟩

/-- Settles O7, by induction on the number of steps: the responses of the first step and those of the rest make up the run's. -/
theorem everyRunAnswersEveryCommand : Obligations.EveryRunAnswersEveryCommand := by
  unfold Obligations.EveryRunAnswersEveryCommand
  intro k
  induction k with
  | zero => exact fun s => ⟨s.voice, s.ctor, [], s.draws, by simp [Host.Core.run], by simp⟩
  | succ k ih =>
    intro s
    obtain ⟨v₁, b₁, new₁, n₁, hstep, hlen₁⟩ := step_answers_taken_event s
    obtain ⟨v, b, new, n, hrun, hlen⟩ := ih ⟨s.fw, v₁, b₁, s.input.drop 1, s.output ++ new₁, n₁⟩
    refine ⟨v, b, new₁ ++ new, n, ?_, ?_⟩
    · rw [run_next k hstep, hrun]
      simp
    · rw [Nat.add_comm k 1, List.take_add, List.filter_append, List.length_append, List.length_append, hlen₁, hlen]

/-! ### The classes of a word exclude each other (R14) -/

theorem isNaN_of_isInf {w : Word F} (h : isInf w = true) : isNaN w = false := by
  rw [isInf_iff] at h; rw [isNaN_eq_false_iff, h]

theorem isZero_of_isInf {w : Word F} (h : isInf w = true) : isZero w = false := by
  rw [isInf_iff] at h
  rw [← Bool.not_eq_true, isZero_iff, h]
  exact (infMag_pos F).ne'

theorem isFinite_of_isZero {w : Word F} (h : isZero w = true) : isFinite w = true := by
  rw [isZero_iff] at h; rw [isFinite_iff, h]; exact infMag_pos F

theorem isFinite_iff_expField (w : Word F) : isFinite w = true ↔ expField w ≠ expAllOnes F := by
  unfold isFinite; exact bne_iff_ne

theorem isFinite_iff_not_inf_nan (w : Word F) : isFinite w = true ↔ isInf w = false ∧ isNaN w = false :=
  ⟨fun h => ⟨isInf_of_isFinite h, isNaN_of_isFinite h⟩, fun ⟨hi, hn⟩ => isFinite_of_not_nan_inf hn hi⟩

/-- Settles O57, from the classes by their exponent-and-fraction number. -/
theorem finiteMeansNoInfinityAndNoNaN : Obligations.FiniteMeansNoInfinityAndNoNaN := by
  unfold Obligations.FiniteMeansNoInfinityAndNoNaN
  intro F w
  refine ⟨isFinite_iff_not_inf_nan w, isFinite_iff_expField w, ?_, isFinite_of_isZero, ?_⟩
  · rintro ⟨hi, hn⟩
    rw [isNaN_of_isInf hi] at hn
    cases hn
  · intro h
    rw [isFinite_iff_expField, h]
    cases F <;> decide

/-! ### Each operator on infinities, zeros and NaNs (R11) -/

section
variable {nan a b : Word F}

theorem fadd_of_nan (h : isNaN a = true ∨ isNaN b = true) : fadd nan a b = nan := by
  unfold fadd; rw [if_pos (by simpa using h)]

theorem fmul_of_nan (h : isNaN a = true ∨ isNaN b = true) : fmul nan a b = nan := by
  unfold fmul; rw [if_pos (by simpa using h)]

theorem fdiv_of_nan (h : isNaN a = true ∨ isNaN b = true) : fdiv nan a b = nan := by
  unfold fdiv; rw [if_pos (by simpa using h)]

theorem fadd_inf_inf (ha : isInf a = true) (hb : isInf b = true) :
    fadd nan a b = if signBit a != signBit b then nan else a := by
  simp [fadd, isNaN_of_isInf ha, isNaN_of_isInf hb, ha, hb]

theorem fadd_inf_finite (ha : isInf a = true) (hb : isFinite b = true) : fadd nan a b = a := by
  simp [fadd, isNaN_of_isInf ha, isNaN_of_isFinite hb, ha, isInf_of_isFinite hb]

theorem fadd_finite_inf (ha : isFinite a = true) (hb : isInf b = true) : fadd nan a b = b := by
  simp [fadd, isNaN_of_isFinite ha, isNaN_of_isInf hb, hb, isInf_of_isFinite ha]

theorem fmul_of_inf (ha : isNaN a = false) (hb : isNaN b = false) (h : isInf a = true ∨ isInf b = true) :
    fmul nan a b = if isZero a || isZero b then nan else infinity (signBit a != signBit b) := by
  unfold fmul
  rw [if_neg (by simp [ha, hb]), if_pos (by simpa using h)]

theorem fdiv_inf_inf (ha : isInf a = true) (hb : isInf b = true) : fdiv nan a b = nan := by
  simp [fdiv, isNaN_of_isInf ha, isNaN_of_isInf hb, ha, hb]

theorem fdiv_inf_finite (ha : isInf a = true) (hb : isFinite b = true) :
    fdiv nan a b = infinity (signBit a != signBit b) := by
  simp [fdiv, isNaN_of_isInf ha, isNaN_of_isFinite hb, ha, isInf_of_isFinite hb]

theorem fdiv_finite_inf (ha : isFinite a = true) (hb : isInf b = true) :
    fdiv nan a b = pack (signBit a != signBit b) 0 := by
  simp [fdiv, isNaN_of_isFinite ha, isNaN_of_isInf hb, hb, isInf_of_isFinite ha]

theorem fdiv_by_zero (ha : isFinite a = true) (hb : isZero b = true) :
    fdiv nan a b = if isZero a then nan else infinity (signBit a != signBit b) := by
  have hbf := isFinite_of_isZero hb
  simp [fdiv, isNaN_of_isFinite ha, isNaN_of_isFinite hbf, isInf_of_isFinite ha, isInf_of_isFinite hbf, hb]
end

theorem isInf_infinity (neg : Bool) : isInf (infinity neg : Word F) = true := by
  rw [isInf_iff, infinity, magBits_pack _ (infMag_lt F)]

theorem signBit_infinity (neg : Bool) : signBit (infinity neg : Word F) = neg := signBit_pack _ (infMag_lt F)

theorem isZero_pack_zero (neg : Bool) : isZero (pack neg 0 : Word F) = true := by
  rw [isZero_iff, magBits_pack _ (by positivity)]

theorem signBit_pack_zero (neg : Bool) : signBit (pack neg 0 : Word F) = neg := signBit_pack _ (by positivity)

/-- Settles O54: each invalid case is one branch of its operator. -/
theorem invalidOperationsGiveNaN : Obligations.InvalidOperationsGiveNaN := by
  unfold Obligations.InvalidOperationsGiveNaN
  intro F nan a b
  have inf_minus_inf (ha : isInf a = true) : fadd nan a (fneg a) = nan := by
    rw [fadd_inf_inf ha (by simpa using ha), signBit_fneg]
    cases signBit a <;> rfl
  refine ⟨fun h => ⟨fadd_of_nan h, fadd_of_nan (by simpa using h), fmul_of_nan h, fdiv_of_nan h⟩,
    fun ha => ⟨inf_minus_inf ha, inf_minus_inf ha⟩, fdiv_inf_inf, fun ha hb => ?_, fun ha hb => ?_, fun ha h0 hb => ?_⟩
  · have hna := isNaN_of_isInf ha
    have hnb := isNaN_of_isFinite (isFinite_of_isZero hb)
    rw [fmul_of_inf hna hnb (.inl ha), fmul_of_inf hnb hna (.inr ha)]
    simp [hb]
  · rw [fdiv_by_zero (isFinite_of_isZero ha) hb, if_pos ha]
  · rw [fdiv_by_zero ha hb, if_neg (by simp [h0])]
    exact ⟨isInf_infinity _, signBit_infinity _⟩

/-! ### Each operator on finite operands: one rounding of the exact result (R11) -/

section
variable {nan a b : Word F}

theorem units_of_isZero (h : isZero a = true) : units a = 0 := by
  rw [isZero_iff] at h; simp [units, h, magUnits]

theorem valueUnits_of_isZero (h : isZero a = true) : valueUnits a = 0 := by
  simp [valueUnits, units_of_isZero h]

theorem abs_valueUnits (w : Word F) : |valueUnits w| = units w := by
  rw [Int.abs_eq_natAbs, valueUnits_natAbs]

theorem signBit_roundWord (neg : Bool) (n d : Nat) : signBit (roundWord neg n d : Word F) = neg :=
  signBit_pack _ (lt_of_le_of_lt (roundMag_le_infMag n d) (infMag_lt F))

theorem roundWord_zero (neg : Bool) (d : Nat) : (roundWord neg 0 d : Word F) = pack neg 0 := by
  rw [roundWord, roundMag_zero]

theorem fadd_of_sum_eq_zero (ha : isFinite a = true) (hb : isFinite b = true) (h : valueUnits a + valueUnits b = 0) :
    fadd nan a b = pack (signBit a && signBit b) 0 := by
  simp [fadd, isNaN_of_isFinite ha, isNaN_of_isFinite hb, isInf_of_isFinite ha, isInf_of_isFinite hb, h]

theorem fadd_of_sum_ne_zero (ha : isFinite a = true) (hb : isFinite b = true) (h : valueUnits a + valueUnits b ≠ 0) :
    fadd nan a b =
      roundWord (decide (valueUnits a + valueUnits b < 0)) (valueUnits a + valueUnits b).natAbs 1 := by
  simp [fadd, isNaN_of_isFinite ha, isNaN_of_isFinite hb, isInf_of_isFinite ha, isInf_of_isFinite hb, h]

/-- A zero sum is its own rounding too, so every finite sum is a `roundWord`; only its sign depends on the case. -/
theorem fadd_eq_roundWord (ha : isFinite a = true) (hb : isFinite b = true) :
    ∃ neg, fadd nan a b = roundWord neg (valueUnits a + valueUnits b).natAbs 1 ∧
      (valueUnits a + valueUnits b ≠ 0 → (neg = true ↔ valueUnits a + valueUnits b < 0)) := by
  by_cases h : valueUnits a + valueUnits b = 0
  · exact ⟨_, by rw [fadd_of_sum_eq_zero ha hb h, h, Int.natAbs_zero, roundWord_zero], fun hne => absurd h hne⟩
  · exact ⟨_, fadd_of_sum_ne_zero ha hb h, fun _ => decide_eq_true_iff⟩

theorem fmul_eq_roundWord (ha : isFinite a = true) (hb : isFinite b = true) :
    fmul nan a b = roundWord (signBit a != signBit b) (units a * units b) (2 ^ unitExp F) := by
  simp [fmul, isNaN_of_isFinite ha, isNaN_of_isFinite hb, isInf_of_isFinite ha, isInf_of_isFinite hb]

theorem fdiv_eq_roundWord (ha : isFinite a = true) (hb : isFinite b = true) (h0 : isZero b = false) :
    fdiv nan a b = roundWord (signBit a != signBit b) (units a * 2 ^ unitExp F) (units b) := by
  simp [fdiv, isNaN_of_isFinite ha, isNaN_of_isFinite hb, isInf_of_isFinite ha, isInf_of_isFinite hb, h0]
end

/-- Settles O60: zeros and infinities are the operators' own cases, and `fneg` flips the sign bit alone. -/
theorem zerosAndInfinitiesFollowIeee : Obligations.ZerosAndInfinitiesFollowIeee := by
  unfold Obligations.ZerosAndInfinitiesFollowIeee
  intro F nan a b
  refine ⟨fun ha hb => ?_, fun ha hb h0 hsum => ?_, fun ha hb => ⟨fadd_inf_finite ha hb, fadd_finite_inf hb ha⟩,
    fun ha => ?_, fun ha hb h0 => ?_, fdiv_inf_finite, fun ha hb => ?_, rfl, magBits_fneg b, signBit_fneg b⟩
  · have hsum : valueUnits a + valueUnits b = 0 := by rw [valueUnits_of_isZero ha, valueUnits_of_isZero hb]; rfl
    rw [fadd_of_sum_eq_zero (isFinite_of_isZero ha) (isFinite_of_isZero hb) hsum]
    exact ⟨isZero_pack_zero _, signBit_pack_zero _⟩
  · -- words of opposite values that are not zero cannot both be negative
    have hpos := units_pos h0
    have hsign : (signBit a && signBit b) = false := by
      by_contra hc
      obtain ⟨hsa, hsb⟩ : signBit a = true ∧ signBit b = true := by simpa using hc
      simp only [valueUnits, hsa, hsb, if_true] at hsum
      omega
    rw [fadd_of_sum_eq_zero ha hb hsum, hsign, pack_false_zero]
  · rw [fadd_inf_inf ha ha]; simp
  · have hna := isNaN_of_isInf ha
    rw [fmul_of_inf hna hb (.inl ha), fmul_of_inf hb hna (.inr ha)]
    simp [h0, isZero_of_isInf ha]
  · rw [fdiv_finite_inf ha hb]
    exact ⟨isZero_pack_zero _, signBit_pack_zero _⟩

/-! ### Correct rounding (R11) -/

/-- The signed ratio that is rounded, from the magnitude of an integer and a sign that is the integer's wherever it is not zero. -/
theorem signed_natAbs {neg : Bool} {x : Int} (h : x ≠ 0 → (neg = true ↔ x < 0)) :
    (if neg then -(x.natAbs : Int) else x.natAbs) = x := by
  rcases eq_or_ne x 0 with rfl | hx
  · simp
  · have := h hx
    cases neg <;> simp only [Bool.false_eq_true, false_iff, true_iff, if_true, if_false] at this ⊢ <;> omega

/-- Settles O51: a finite sum is one rounding of the exact sum. -/
theorem sumIsCorrectlyRounded : Obligations.SumIsCorrectlyRounded := by
  unfold Obligations.SumIsCorrectlyRounded
  intro F nan a b ha hb
  obtain ⟨neg, hr, hneg⟩ := fadd_eq_roundWord (nan := nan) ha hb
  dsimp only
  rw [hr]
  generalize valueUnits a + valueUnits b = x at hneg ⊢
  have hinf := isInf_roundWord_iff (F := F) neg (n := x.natAbs) one_pos
  have hround := roundWord_correct (F := F) neg (n := x.natAbs) one_pos
  dsimp only at hround
  simp only [signed_natAbs hneg, Nat.cast_one, mul_one] at hround
  rw [Nat.cast_one, mul_one, ← Int.abs_eq_natAbs] at hinf
  refine ⟨hinf, hround.imp_right fun ⟨hi, hbeyond⟩ => ⟨hi, ?_, hbeyond⟩⟩
  rw [signBit_roundWord]
  have hx := hbeyond 0 isFinite_zero
  exact hneg (by rintro rfl; simp at hx)

/-- Settles O52: a finite product is one rounding of the product of the magnitudes, under the product of the signs. -/
theorem productIsCorrectlyRounded : Obligations.ProductIsCorrectlyRounded := by
  unfold Obligations.ProductIsCorrectlyRounded
  intro F nan a b ha hb
  have hd := two_pow_unitExp_pos F
  have habs : |valueUnits a * valueUnits b| = (units a * units b : Nat) := by
    rw [abs_mul, abs_valueUnits, abs_valueUnits, Nat.cast_mul]
  have hinf := isInf_roundWord_iff (F := F) (signBit a != signBit b) (n := units a * units b) hd
  have hround := roundWord_correct (F := F) (signBit a != signBit b) (n := units a * units b) hd
  dsimp only at hround ⊢
  rw [← valueUnits_mul_sign] at hround
  rw [← habs] at hinf
  rw [fmul_eq_roundWord ha hb]
  push_cast at hinf hround
  exact ⟨signBit_roundWord _ _ _, hinf, hround⟩

theorem abs_signed (neg : Bool) (n : Nat) : |if neg then -(n : Int) else n| = n := by cases neg <;> simp

/-- Dividing by the magnitude of `b` under the product of the signs is dividing by `b`: the errors of a quotient `v` agree. -/
theorem quotient_error_eq (v : Int) (a b : Word F) :
    |v * units b -
        (if signBit a != signBit b then -((units a * 2 ^ unitExp F : Nat) : Int) else (units a * 2 ^ unitExp F : Nat))| =
      |v * valueUnits b - valueUnits a * 2 ^ unitExp F| := by
  push_cast
  cases hb : signBit b
  · simp [valueUnits, hb]
  · rw [← abs_neg]
    congr 1
    cases ha : signBit a <;> simp [valueUnits, ha, hb] <;> ring

/-- Settles O53: a quotient is one rounding of the quotient of the magnitudes, under the product of the signs. -/
theorem quotientIsCorrectlyRounded : Obligations.QuotientIsCorrectlyRounded := by
  unfold Obligations.QuotientIsCorrectlyRounded
  intro F nan a b ha hb h0
  have hd := units_pos h0
  have habs : |valueUnits a * 2 ^ unitExp F| = (units a * 2 ^ unitExp F : Nat) := by
    rw [abs_mul, abs_valueUnits, abs_of_pos (by positivity)]; push_cast; rfl
  have hinf := isInf_roundWord_iff (F := F) (signBit a != signBit b) (n := units a * 2 ^ unitExp F) hd
  have hround := roundWord_correct (F := F) (signBit a != signBit b) (n := units a * 2 ^ unitExp F) hd
  dsimp only at hround ⊢
  simp only [quotient_error_eq, abs_signed] at hround
  rw [fdiv_eq_roundWord ha hb h0, habs]
  refine ⟨signBit_roundWord _ _ _, ?_, ?_⟩
  · rw [abs_valueUnits]; exact hinf
  · simpa only [abs_mul _ (units b : Int), abs_mul _ (valueUnits b), abs_valueUnits, Nat.abs_cast] using hround

/-! ### Literals, `NUM`, `clamp` and `wrap1` (R12, R13, R15, R16) -/

/-- Settles O55: the printed words are computed, and a whole number of up to 24 bits is exact. -/
theorem literalPatterns : Obligations.LiteralPatterns := by
  unfold Obligations.LiteralPatterns
  refine ⟨by decide +kernel, by decide +kernel, by decide +kernel, by decide +kernel, by decide +kernel, by decide +kernel,
    rfl, rfl, by decide +kernel, by decide +kernel, fun F => ⟨?_, fun n hn => (valueUnits_lit ?_).1,
      (valueUnits_quarter F).1, (valueUnits_half F).1⟩⟩
  · cases F <;> decide +kernel
  · have : ∀ n ∈ [0, 1, 2, 3, 4, 10, 20, 400, 440, 1000, 3600, 20000], n < 2 ^ 24 := by decide
    exact this n hn

/-- A finite word whose order key lies between those of -1 and 1 is in the range [-1, 1]. -/
theorem inRange_unit_of_bound {w : Word F} (h : isFinite w = true ∧ -orderKey (lit 1 : Word F) ≤ orderKey w ∧
    orderKey w ≤ orderKey (lit 1 : Word F)) : inRange w (fneg (lit 1)) (lit 1) = true := by
  obtain ⟨hf, hlo, hhi⟩ := h
  have h1 : isNaN (lit 1 : Word F) = false := isNaN_of_isFinite (isFinite_lit (by norm_num))
  rw [inRange_iff, isNaN_fneg, orderKey_fneg]
  exact ⟨isNaN_of_isFinite hf, h1, h1, hlo, hhi⟩

theorem ftanh_infinity (N : Num F) (nan : Word F) (neg : Bool) :
    ftanh N nan (infinity neg) = if neg then fneg (lit 1) else lit 1 := by
  simp [ftanh, isNaN_infinity, isInf_infinity, signBit_infinity]

/-- Settles O56: the properties are forced on the raw functions branch by branch. -/
theorem numericsRecordProperties : Obligations.NumericsRecordProperties := by
  unfold Obligations.NumericsRecordProperties
  intro F N nan a hnan
  have hz : isFinite (0#F.width : Word F) = true := isFinite_zero
  refine ⟨fun ha r hr => ?_, ⟨?_, ?_, ?_⟩, fun ha => ?_, fun ha => ?_, ftanh_infinity N nan false, ftanh_infinity N nan true⟩
  · apply inRange_unit_of_bound
    simp only [List.mem_cons, List.not_mem_nil, or_false] at hr
    rcases hr with rfl | rfl | rfl
    · exact fsin_bound N ha
    · exact fcos_bound N ha
    · exact ftanh_bound N ha
  · simp [fsin, hz]
  · simp [fcos, hz]
  · simp [ftanh, isNaN_of_isFinite hz, isInf_of_isFinite hz]
  · simp [fsin, fcos, ha, hnan]
  · simp [ftanh, ha, hnan]

section
variable {v lo hi : Word F}

theorem clamp_of_flt (h : flt v lo = true) : clamp v lo hi = lo := if_pos h

theorem clamp_of_fgt (hle : fge hi lo = true) (h : fgt v hi = true) : clamp v lo hi = hi := by
  have hlo : flt v lo = false := by
    rw [fge_iff] at hle
    rw [fgt, flt_iff] at h
    rw [← Bool.not_eq_true, flt_iff]
    omega
  simp [clamp, hlo, h]

theorem clamp_of_not_outside (h1 : flt v lo = false) (h2 : fgt v hi = false) : clamp v lo hi = v := by
  simp [clamp, h1, h2]

/-- Both comparisons are false of a NaN, so it passes. -/
theorem clamp_of_isNaN (h : isNaN v = true) : clamp v lo hi = v :=
  clamp_of_not_outside (by simp [flt, h]) (by simp [fgt, flt, h])
end

theorem orderKey_infinity (neg : Bool) :
    orderKey (infinity neg : Word F) = if neg then -(infMag F : Int) else infMag F := orderKey_pack _ (infMag_lt F)

theorem fgt_infinity {w : Word F} (h : isFinite w = true) : fgt (infinity false) w = true := by
  rw [fgt, flt_iff, orderKey_infinity]
  exact ⟨isNaN_of_isFinite h, isNaN_infinity _, ((isFinite_iff_key w).1 h).2⟩

theorem flt_infinity {w : Word F} (h : isFinite w = true) : flt (infinity true) w = true := by
  rw [flt_iff, orderKey_infinity]
  exact ⟨isNaN_infinity _, isNaN_of_isFinite h, ((isFinite_iff_key w).1 h).1⟩

/-- Settles O58: the two comparisons of `clamp`, case by case. -/
theorem clampResults : Obligations.ClampResults := by
  unfold Obligations.ClampResults
  intro F v lo hi hlo hhi hle
  have hkey : orderKey lo ≤ orderKey hi := ((fge_iff hi lo).1 hle).2.2
  refine ⟨clamp_of_flt, clamp_of_fgt hle, clamp_of_not_outside, clamp_of_isNaN, fun hv => inRange_clamp hv hlo hhi hkey,
    fun h => clamp_of_fgt hle (fgt_infinity h), fun h => clamp_of_flt (flt_infinity h), ?_⟩
  cases F <;> decide +kernel

section
variable {nan a : Word F} {zs : Bool}

theorem signBit_wrap1 (ha : isFinite a = true) (h : (isZero a && signBit a) = false) :
    signBit (wrap1 nan zs a) = signBit a := by
  simp only [wrap1, ha, h, Bool.not_true, Bool.false_eq_true, if_false]
  exact signBit_roundWord _ _ _

theorem wrap1_of_not_isFinite (ha : isFinite a = false) : wrap1 nan zs a = nan := by simp [wrap1, ha]

theorem isZero_wrap1 (h : isZero a = true) : isZero (wrap1 nan zs a) = true := by
  have hf := isFinite_of_isZero h
  unfold wrap1
  rw [units_of_isZero h, Nat.zero_mod, roundWord_zero, if_neg (by simp [hf])]
  split <;> exact isZero_pack_zero _
end

/-- Settles O15: the remainder of the magnitude is representable, so its one rounding is exact. -/
theorem wrapIsTheExactRemainder : Obligations.WrapIsTheExactRemainder := by
  unfold Obligations.WrapIsTheExactRemainder
  intro F nan a zs
  refine ⟨fun ha hs => ?_, fun ha hs h0 => ?_, fun _ => isZero_wrap1, wrap1_of_not_isFinite⟩
  · have hval : valueUnits a = units a := by simp [valueUnits, hs]
    refine ⟨?_, ?_, isPhase_wrap1 ha (by omega)⟩
    · rw [(valueUnits_wrap1 ha).1, hval]; simp [hs]
    · rw [signBit_wrap1 ha (by simp [hs]), hs]
  · have hval : -valueUnits a = units a := by simp [valueUnits, hs]
    refine ⟨?_, ?_⟩
    · rw [(valueUnits_wrap1 ha).1, hval]; simp [hs]
    · rw [signBit_wrap1 ha (by simp [h0]), hs]

/-! ### Produced NaNs (R17) -/

/-- The bits that `quietNaN` sets: the exponent field and the fraction's top bit, a block of ones below the sign. -/
theorem quietMag_eq_block (F : Fmt) :
    infMag F + 2 ^ (F.fracBits - 1) = (2 ^ (F.expBits + 1) - 1) * 2 ^ (F.fracBits - 1) := by cases F <;> decide

/-- A quiet word has ones in the whole of that block. -/
theorem quiet_block (w : Word F) (h : infMag F + 2 ^ (F.fracBits - 1) ≤ magBits w) :
    w.toNat / 2 ^ (F.fracBits - 1) % 2 ^ (F.expBits + 1) = 2 ^ (F.expBits + 1) - 1 := by
  have hw : 2 ^ (F.width - 1) = 2 ^ (F.fracBits - 1) * 2 ^ (F.expBits + 1) := by cases F <;> decide
  rw [quietMag_eq_block] at h
  have hdiv : magBits w / 2 ^ (F.fracBits - 1) = w.toNat / 2 ^ (F.fracBits - 1) % 2 ^ (F.expBits + 1) := by
    rw [magBits, hw, Nat.mod_mul_right_div_self]
  have hge := (Nat.le_div_iff_mul_le (by positivity)).2 h
  have hlt : w.toNat / 2 ^ (F.fracBits - 1) % 2 ^ (F.expBits + 1) < 2 ^ (F.expBits + 1) := Nat.mod_lt _ (by positivity)
  omega

/-- A quiet NaN has every bit that `quietNaN` sets. -/
theorem quietNaN_eq_self {w : Word F} (h : infMag F + 2 ^ (F.fracBits - 1) ≤ magBits w) : quietNaN w = w := by
  have hsub : ∀ i, (infMag F + 2 ^ (F.fracBits - 1)).testBit i = true → w.toNat.testBit i = true := by
    intro i hi
    rw [quietMag_eq_block, Nat.testBit_mul_two_pow] at hi
    obtain ⟨hle, hbit⟩ : F.fracBits - 1 ≤ i ∧ (2 ^ (F.expBits + 1) - 1).testBit (i - (F.fracBits - 1)) = true := by
      simpa using hi
    rw [← quiet_block w h, Nat.testBit_mod_two_pow, Nat.testBit_div_two_pow, Nat.sub_add_cancel hle] at hbit
    exact (Bool.and_eq_true_iff.1 hbit).2
  have hpack : (pack false (infMag F + 2 ^ (F.fracBits - 1)) : Word F).toNat = infMag F + 2 ^ (F.fracBits - 1) := by
    cases F <;> decide
  apply BitVec.eq_of_toNat_eq
  apply Nat.eq_of_testBit_eq
  intro i
  rw [quietNaN, BitVec.toNat_or, hpack, Nat.testBit_or]
  cases hi : (infMag F + 2 ^ (F.fracBits - 1)).testBit i
  · rw [Bool.or_false]
  · rw [hsub i hi, Bool.or_true]

/-- Settles O59: the drawn bits are made quiet, which changes no word that is quiet already. -/
theorem producedNaNsAreAnyQuietNaN : Obligations.ProducedNaNsAreAnyQuietNaN := by
  unfold Obligations.ProducedNaNsAreAnyQuietNaN
  exact ⟨fun s site => (quiet_iff _).2 (quietMag_le_quietNaN _), fun F w hn hq => quietNaN_eq_self ((quiet_iff w).1 ⟨hn, hq⟩)⟩

end Sys2Proof.Machine
end

section
/-!
PROOFS. The statements of 10_state.md: what the cells hold without a Voice is never observed (R31), when `CTOR` changes (R31, R33),
and the invariants of R22 to R26 at reset, at `INIT`, along every step and in every reachable state (R34).
-/

namespace Sys2Proof.Machine

variable {F : Fmt}

/-! ### Without a Voice nothing observes the cells (R31) -/

/-- Two states of the build `F` that agree in everything but what the cells hold while no Voice is constructed. -/
inductive AgreeButUnseenCells (F : Fmt) : State → State → Prop where
  | intro (v w : Voice F) (b : Bool) (inp : List (HostEvent F)) (out : List (Response F)) (n : Nat) (h : b = true → v = w) :
      AgreeButUnseenCells F ⟨F, v, b, inp, out, n⟩ ⟨F, w, b, inp, out, n⟩

/-- A command carried out without a Voice reads no cell: `INIT` writes every cell and the others are rejected. -/
theorem exec_agrees_without_voice (i : Instr) (v w : Voice F) (inp : List (HostEvent F)) (out : List (Response F)) (n : Nat) :
    ∃ s t, exec i ⟨F, v, false, inp, out, n⟩ = .next s ∧ exec i ⟨F, w, false, inp, out, n⟩ = .next t ∧
      AgreeButUnseenCells F s t := by
  by_cases hi : ∃ sr, i = .init sr
  · obtain ⟨sr, rfl⟩ := hi
    rcases hok : initOperandOk (operand F sr) with _ | _
    · exact ⟨_, _, exec_init_badArg hok, exec_init_badArg hok, .intro v w false inp _ n (by simp)⟩
    · exact ⟨_, _, exec_init_ok hok, exec_init_ok hok, .intro _ _ true inp _ _ (fun _ => rfl)⟩
  · have hne : ∀ sr, i ≠ .init sr := fun sr h => hi ⟨sr, h⟩
    exact ⟨_, _, exec_notReady rfl hne, exec_notReady rfl hne, .intro v w false inp _ n (by simp)⟩

/-- A step without a Voice reads no cell. -/
theorem step_agrees_without_voice (v w : Voice F) (inp : List (HostEvent F)) (out : List (Response F)) (n : Nat) :
    ∃ s t, step ⟨F, v, false, inp, out, n⟩ = .next s ∧ step ⟨F, w, false, inp, out, n⟩ = .next t ∧
      AgreeButUnseenCells F s t := by
  rcases inp with _ | ⟨e, rest⟩
  · exact ⟨_, _, step_idle rfl, step_idle rfl, .intro v w false [] out n (by simp)⟩
  · cases e with
    | rst => exact ⟨_, _, step_rst rfl, step_rst rfl, .intro _ _ false rest out _ (fun _ => rfl)⟩
    | command c =>
      rcases hd : decode c with r | i
      · exact ⟨_, _, step_illegal rfl hd, step_illegal rfl hd, .intro v w false rest _ n (by simp)⟩
      · obtain ⟨s, t, hs, ht, hst⟩ := exec_agrees_without_voice i v w rest out n
        exact ⟨s, t, (step_command rfl hd).trans hs, (step_command rfl hd).trans ht, hst⟩

/-- With a Voice the two states are one, so a step keeps the agreement in either case. -/
theorem step_keeps_agreement {s t : State} (h : AgreeButUnseenCells F s t) :
    ∃ s' t', step s = .next s' ∧ step t = .next t' ∧ AgreeButUnseenCells F s' t' := by
  obtain ⟨v, w, b, inp, out, n, hvw⟩ := h
  cases b with
  | false => exact step_agrees_without_voice v w inp out n
  | true =>
    obtain rfl := hvw rfl
    obtain ⟨v', b', new, n', hstep, -⟩ := step_answers_taken_event ⟨F, v, true, inp, out, n⟩
    exact ⟨_, _, hstep, hstep, .intro v' v' b' _ _ n' (fun _ => rfl)⟩

theorem run_keeps_agreement (k : Nat) {s t : State} (h : AgreeButUnseenCells F s t) :
    ∃ s' t', Sys2Proof.core.run k s = .next s' ∧ Sys2Proof.core.run k t = .next t' ∧ AgreeButUnseenCells F s' t' := by
  induction k generalizing s t with
  | zero => exact ⟨s, t, rfl, rfl, h⟩
  | succ k ih =>
    obtain ⟨s₁, t₁, hs, ht, h₁⟩ := step_keeps_agreement h
    obtain ⟨s', t', hs', ht', h'⟩ := ih h₁
    exact ⟨s', t', (run_next k hs).trans hs', (run_next k ht).trans ht', h'⟩

/-- Settles O10: agreement in everything but unseen cells is kept along a run, and is equality once a Voice is constructed. -/
theorem powerOnContentsAreNeverObserved : Obligations.PowerOnContentsAreNeverObserved := by
  unfold Obligations.PowerOnContentsAreNeverObserved
  intro k F v w inp out n
  obtain ⟨s, t, hs, ht, h⟩ := run_keeps_agreement k (AgreeButUnseenCells.intro v w false inp out n (by simp))
  obtain ⟨v', w', b, inp', out', n', hvw⟩ := h
  exact ⟨v', w', b, inp', out', n', hs, ht, hvw⟩

/-! ### When `CTOR` changes (R31, R33) -/

/-- `INIT` alone writes `CTOR`, and only with a passing operand. -/
theorem ctor_of_answer {i : Instr} {s t : State} (h : Answer i s t) :
    t.ctor = s.ctor ∨ (t.ctor = true ∧ ∃ sr, i = .init sr ∧ initOperandOk (operand s.fw sr) = true) := by
  cases h with
  | rejected k => exact .inl rfl
  | read => exact .inl rfl
  | sample => exact .inl rfl
  | set => exact .inl rfl
  | constructed sr hi ok => exact .inr ⟨rfl, sr, hi, ok⟩

/-- An `INIT` was issued as opcode 0x01, and its operand is `cmd_arg` (30_encoding.md R44). -/
theorem command_of_decode_init {c : Command F} {sr : BitVec 64} (hd : decode c = .ok (.init sr)) :
    c.op = 0x01 ∧ operand F sr = c.arg := by
  cases decoded c with
  | init h op =>
    rw [h] at hd
    cases hd
    exact ⟨op, operand_setWidth c.arg⟩
  | reserved _ h | step h | setf h | setc h | setq h | setl h | setm h | rd _ h => rw [h] at hd; cases hd

/-- What a step does to `CTOR`: nothing, or `rst` clears it, or a passing `INIT` sets it. -/
theorem ctor_of_step {s t : State} (h : StepCase s t) :
    t.ctor = s.ctor ∨ (t.ctor = false ∧ s.input.head? = some .rst) ∨
      (t.ctor = true ∧ ∃ c, s.input.head? = some (.command c) ∧ c.op = 0x01 ∧ initOperandOk c.arg = true) := by
  cases h with
  | idle => exact .inl rfl
  | rst rest h => exact .inr (.inl ⟨rfl, by rw [h]; rfl⟩)
  | illegal => exact .inl rfl
  | command c rest i _ h hd he ha =>
    rcases ctor_of_answer ha with hsame | ⟨htrue, sr, rfl, hok⟩
    · exact .inl hsame
    · obtain ⟨hop, harg⟩ := command_of_decode_init hd
      rw [withInput_fw, harg] at hok
      exact .inr (.inr ⟨htrue, c, by rw [h]; rfl, hop, hok⟩)

/-- Settles O8: of the three things a step can do to `CTOR`, one lowers it and one raises it. -/
theorem ctorChangesOnlyAtResetAndInit : Obligations.CtorChangesOnlyAtResetAndInit := by
  unfold Obligations.CtorChangesOnlyAtResetAndInit
  intro s t hstep
  rcases ctor_of_step (step_case hstep) with hsame | ⟨hfalse, hrst⟩ | ⟨htrue, hinit⟩
  · rw [hsame]
    exact ⟨fun h₁ h₀ => by simp [h₁] at h₀, fun h₀ h₁ => by simp [h₀] at h₁⟩
  · exact ⟨fun _ _ => hrst, fun _ h₁ => by simp [hfalse] at h₁⟩
  · exact ⟨fun _ h₀ => by simp [htrue] at h₀, fun _ _ => hinit⟩

/-! ### The invariants, one component at a time (R23 to R26) -/

/-- Settles O31: the guard keeps every non-finite word out of the history. -/
theorem filteringKeepsHistoryFinite : Obligations.FilteringKeepsHistoryFinite := by
  unfold Obligations.FilteringKeepsHistoryFinite
  intro F E b xin hE hb
  exact historyFinite_process hE hb

/-- The part of `Voice.Inv` that is about the Mixed oscillator (R23). -/
structure Mixed.Inv (m : Mixed F) : Prop where
  freqEq : m.sin.freq = m.sqr.freq
  freqRange : inRange m.sin.freq (lit 20) (lit 20000) = true
  phaseEq : m.sin.phase = m.sqr.phase
  phaseRange : isPhase m.sin.phase = true
  mixRange : inRange m.mix (lit 0) (lit 1) = true

/-- The part of `Voice.Inv` that is about the modulation oscillator (R24). -/
structure ModOsc.Inv (l : ModOsc F) : Prop where
  freq : inRange l.osc.freq (lit 1 100) (lit 20) = true
  phase : isPhase l.osc.phase = true
  shape : l.shape = Config.lfoShapeInit

/-- The part of `Voice.Inv` that is about the filter at the rate `sr` (R25). -/
structure Biquad.Inv (sr : Word F) (b : Biquad F) : Prop where
  cutoffRange : ∀ nan, inRange b.cutoff (lit 20) (fdiv nan sr (lit 2)) = true
  resRange : inRange b.res (lit 1 10) (lit 10) = true
  consistent : b.Consistent sr
  history : historyFinite b = true

/-- `Voice.Inv` is the rate's check, the three parts, and the constants of the VCA, which no command writes but `INIT` (R26). -/
theorem voice_inv_iff (v : Voice F) : v.Inv ↔ initOperandOk v.sr = true ∧ v.osc.Inv ∧ v.lfo.Inv ∧ v.flt.Inv v.sr ∧
    v.vca = vcaNew (configParams F).vcaGain (configParams F).vcaAmt := by
  constructor
  · rintro ⟨rate, freqEq, freqRange, phaseEq, phaseRange, mixRange, lfoFreq, lfoPhase, lfoShape, cutoffRange, resRange,
      consistent, history, gain, amt, cur⟩
    refine ⟨rate, ⟨freqEq, freqRange, phaseEq, phaseRange, mixRange⟩, ⟨lfoFreq, lfoPhase, lfoShape⟩,
      ⟨cutoffRange, resRange, consistent, history⟩, ?_⟩
    rw [vcaNew, ← gain, ← amt, ← cur]
  · rintro ⟨rate, ⟨freqEq, freqRange, phaseEq, phaseRange, mixRange⟩, ⟨lfoFreq, lfoPhase, lfoShape⟩,
      ⟨cutoffRange, resRange, consistent, history⟩, hvca⟩
    exact ⟨rate, freqEq, freqRange, phaseEq, phaseRange, mixRange, lfoFreq, lfoPhase, lfoShape, cutoffRange, resRange,
      consistent, history, by rw [hvca, vcaNew_gain], by rw [hvca, vcaNew_amt], by rw [hvca, vcaNew_cur]⟩

theorem isPhase_zero : isPhase (0 : Word F) = true :=
  (isPhase_iff _).2 ⟨isNaN_of_isFinite isFinite_zero, valueUnits_zero.ge, valueUnits_zero.trans_lt (by positivity)⟩

/-- The bounds that the setters clamp to (44_voice.md R88 to R92) are ordered numbers, and construction's greatest resonance, 20, is
above the setters' (42_biquad_filter.md R70). -/
theorem bounds_ordered (F : Fmt) : fge (lit 20000 : Word F) (lit 20) = true ∧ fge (lit 1 : Word F) (lit 0) = true ∧
    fge (lit 20 : Word F) (lit 1 100) = true ∧ fge (lit 10 : Word F) (lit 1 10) = true ∧
    fge (lit 20 : Word F) (lit 10) = true := by cases F <;> decide +kernel

theorem inRange_clamp_of_fge {v lo hi : Word F} (hle : fge hi lo = true) (hv : isNaN v = false) :
    inRange (clamp v lo hi) lo hi = true := by
  obtain ⟨hhi, hlo, hkey⟩ := (fge_iff hi lo).1 hle
  exact inRange_clamp hv hlo hhi hkey

/-! The Mixed oscillator -/

theorem mixedSetFrequency_inv {m : Mixed F} {f : Word F} (hm : m.Inv) (hf : inRange f (lit 20) (lit 20000) = true) :
    (mixedSetFrequency f m).Inv := ⟨rfl, hf, rfl, isPhase_zero, hm.mixRange⟩

theorem mixedSetMixRatio_inv {m : Mixed F} {r : Word F} (hm : m.Inv) (hr : inRange r (lit 0) (lit 1) = true) :
    (mixedSetMixRatio r m).Inv := ⟨hm.freqEq, hm.freqRange, rfl, isPhase_zero, hr⟩

/-- The two sub-oscillators advance to one phase, bit for bit (40_oscillators.md R53). -/
theorem mixedNext_inv {E : Env F} {sr : Word F} {m : Mixed F} (hsr : initOperandOk sr = true) (hm : m.Inv) :
    (mixedNext E sr m).2.Inv := by
  obtain ⟨hpos, hwide⟩ := frequency_facts hm.freqRange
  exact ⟨hm.freqEq, hm.freqRange, oscAdvance_phase_eq hm.phaseRange hwide hpos hsr hm.freqEq hm.phaseEq,
    isPhase_oscAdvance hm.phaseRange hwide hsr, hm.mixRange⟩

/-! The modulation oscillator -/

theorem modOscNew_inv {f : Word F} {shape : Shape} (hf : inRange f (lit 1 100) (lit 20) = true)
    (hs : shape = Config.lfoShapeInit) : (modOscNew f shape).Inv := ⟨hf, isPhase_zero, hs⟩

theorem modOscNext_inv {E : Env F} {sr : Word F} {l : ModOsc F} (hsr : initOperandOk sr = true) (hl : l.Inv) :
    (modOscNext E sr l).2.Inv :=
  ⟨hl.freq, isPhase_oscAdvance hl.phase (rate_facts hl.freq).2 hsr, hl.shape⟩

theorem isNaN_of_inRange {w lo hi : Word F} (h : inRange w lo hi = true) : isNaN w = false := ((inRange_iff w lo hi).1 h).1

/-- No shape gives a NaN at a phase: each is bounded (41_modulation_oscillator.md R64 to R67). -/
theorem isNaN_shapeOf {E : Env F} {p : Word F} (hp : isPhase p = true) (shape : Shape) : isNaN (shapeOf E shape p) = false := by
  cases shape with
  | sine => exact isNaN_of_inRange (sineOf_bounds hp)
  | triangle => exact isNaN_of_inRange (shapeTriangle_bounds hp)
  | ramp => exact isNaN_of_inRange (shapeRamp_bounds hp).1
  | smoothSquare => exact isNaN_of_inRange (shapeSmoothSquare_bounds hp)

/-! The filter -/

/-- A clamp to half the rate, computed with one NaN at hand, is in range whatever NaN the bound is computed with. -/
theorem inRange_clamp_any_half {n₁ sr v : Word F} (hsr : initOperandOk sr = true) (hv : isNaN v = false) (n₂ : Word F) :
    inRange (clamp v (lit 20) (fdiv n₁ sr (lit 2))) (lit 20) (fdiv n₂ sr (lit 2)) = true := by
  rw [half_nan n₁ n₂ hsr]
  exact inRange_clamp_half hsr hv

/-- A resonance of R25's range lies in the wider range that construction clamps to (42_biquad_filter.md R70). -/
theorem clamp_resonance {q : Word F} (hq : inRange q (lit 1 10) (lit 10) = true) : clamp q (lit 1 10) (lit 20) = q := by
  obtain ⟨-, -, -, -, hle⟩ := bounds_ordered F
  obtain ⟨h20, -, hkey⟩ := (fge_iff _ _).1 hle
  obtain ⟨hn, hlo, -, h₁, h₂⟩ := (inRange_iff q _ _).1 hq
  exact clamp_of_inRange ((inRange_iff q _ _).2 ⟨hn, hlo, h20, h₁, h₂.trans hkey⟩)

theorem biquadNew_inv {E : Env F} {sr fc q : Word F} (hE : E.Valid) (hsr : initOperandOk sr = true) (hfc : isNaN fc = false)
    (hq : inRange q (lit 1 10) (lit 10) = true) : (biquadNew E sr fc q).Inv sr where
  cutoffRange := inRange_clamp_any_half hsr hfc
  resRange := by rw [biquadNew_res, clamp_resonance hq]; exact hq
  consistent := consistent_recompute hE sr _
  history := (historyFinite_iff _).2 ⟨isFinite_zero, isFinite_zero, isFinite_zero, isFinite_zero⟩

theorem biquadSetModulation_inv {E : Env F} {sr v : Word F} {b : Biquad F} (hE : E.Valid) (hsr : initOperandOk sr = true)
    (hv : isNaN v = false) (hb : b.Inv sr) : (biquadSetModulation E sr v b).Inv sr where
  cutoffRange := inRange_clamp_any_half hsr (isNaN_modulatedCutoff hv)
  resRange := hb.resRange
  consistent := consistent_recompute hE sr _
  history := hb.history

theorem biquadProcess_inv {E : Env F} {sr x : Word F} {b : Biquad F} (hE : E.Valid) (hb : b.Inv sr) :
    (biquadProcess E b x).2.Inv sr := by
  obtain ⟨hcut, hres, ha0, ha1, ha2, hb1, hb2⟩ := biquadProcess_keeps (E := E) (b := b) (x := x)
  exact ⟨by rw [hcut]; exact hb.cutoffRange, by rw [hres]; exact hb.resRange,
    consistent_congr hb.consistent hcut hres ha0 ha1 ha2 hb1 hb2, (historyFinite_process hE hb.history).1⟩

/-! ### The Voice's operations keep its invariants -/

/-- The values of R32 lie in their ranges: 440 Hz, a ratio of 0.3, an LFO rate of 0.5 and a resonance of 0.1. -/
theorem initial_values_inRange (F : Fmt) : inRange (lit 440 : Word F) (lit 20) (lit 20000) = true ∧
    inRange (lit 3 10 : Word F) (lit 0) (lit 1) = true ∧ inRange (lit 1 2 : Word F) (lit 1 100) (lit 20) = true ∧
    inRange (lit 1 10 : Word F) (lit 1 10) (lit 10) = true := by cases F <;> decide +kernel

theorem voiceNew_inv {E : Env F} {sr : Word F} (hE : E.Valid) (hsr : initOperandOk sr = true) :
    (voiceNew E (configParams F) sr).Inv := by
  obtain ⟨hfreq, hmix, hrate, hres⟩ := initial_values_inRange F
  exact (voice_inv_iff _).2 ⟨hsr, ⟨rfl, hfreq, rfl, isPhase_zero, hmix⟩, modOscNew_inv hrate rfl,
    biquadNew_inv hE hsr (isNaN_lit (by norm_num)) hres, rfl⟩

theorem voiceProcess_inv {E : Env F} {v : Voice F} (hE : E.Valid) (hv : v.Inv) : (voiceProcess E v).2.Inv := by
  obtain ⟨hsr, hosc, hlfo, hflt, hvca⟩ := (voice_inv_iff v).1 hv
  have hquarter := isPositive_quarter F
  have hmod : isNaN (fmul (E.nan .depth) (modOscNext E v.sr v.lfo).1 (lit 1 4)) = false :=
    isNaN_fmul_const (isNaN_shapeOf hlfo.phase _) (isFinite_of_isPositive hquarter) (isZero_of_isPositive hquarter)
  exact (voice_inv_iff _).2 ⟨hsr, mixedNext_inv hsr hosc, modOscNext_inv hsr hlfo,
    biquadProcess_inv hE (biquadSetModulation_inv hE hsr hmod hflt), hvca⟩

section
variable {v : Voice F} {x : Word F} (hv : v.Inv) (hx : isNaN x = false)
include hv hx

theorem voiceSetFrequency_inv : (voiceSetFrequency x v).Inv := by
  obtain ⟨hsr, hosc, hlfo, hflt, hvca⟩ := (voice_inv_iff v).1 hv
  obtain ⟨hle, -⟩ := bounds_ordered F
  exact (voice_inv_iff _).2 ⟨hsr, mixedSetFrequency_inv hosc (inRange_clamp_of_fge hle hx), hlfo, hflt, hvca⟩

theorem voiceSetMixRatio_inv : (voiceSetMixRatio x v).Inv := by
  obtain ⟨hsr, hosc, hlfo, hflt, hvca⟩ := (voice_inv_iff v).1 hv
  obtain ⟨-, hle, -⟩ := bounds_ordered F
  exact (voice_inv_iff _).2 ⟨hsr, mixedSetMixRatio_inv hosc (inRange_clamp_of_fge hle hx), hlfo, hflt, hvca⟩

theorem voiceSetLfoRate_inv : (voiceSetLfoRate x v).Inv := by
  obtain ⟨hsr, hosc, hlfo, hflt, hvca⟩ := (voice_inv_iff v).1 hv
  obtain ⟨-, -, hle, -⟩ := bounds_ordered F
  exact (voice_inv_iff _).2 ⟨hsr, hosc, modOscNew_inv (inRange_clamp_of_fge hle hx) hlfo.shape, hflt, hvca⟩

/-- The new cutoff is a number, and the resonance, being in range already, is kept (44_voice.md R89). -/
theorem voiceSetCutoff_inv {E : Env F} (hE : E.Valid) : (voiceSetCutoff E x v).Inv := by
  obtain ⟨hsr, hosc, hlfo, hflt, hvca⟩ := (voice_inv_iff v).1 hv
  have hcut := isNaN_of_inRange (inRange_clamp_half (nan := E.nan .halfSetc) hsr hx)
  exact (voice_inv_iff _).2 ⟨hsr, hosc, hlfo, biquadNew_inv hE hsr hcut hflt.resRange, hvca⟩

/-- The resonance is clamped into its range, and the present cutoff is a number (44_voice.md R90). -/
theorem voiceSetResonance_inv {E : Env F} (hE : E.Valid) : (voiceSetResonance E x v).Inv := by
  obtain ⟨hsr, hosc, hlfo, hflt, hvca⟩ := (voice_inv_iff v).1 hv
  obtain ⟨-, -, -, hle, -⟩ := bounds_ordered F
  have hcut := isNaN_of_inRange (hflt.cutoffRange 0)
  exact (voice_inv_iff _).2 ⟨hsr, hosc, hlfo, biquadNew_inv hE hsr hcut (inRange_clamp_of_fge hle hx), hvca⟩
end

/-! ### The machine keeps its invariant (R34) -/

theorem env_valid (s : State) : s.env.Valid := drawEnv_valid s.fw s.draws

/-- Each setter's operation keeps the Voice's invariants for every operand that passes its check (30_encoding.md R48). -/
theorem setterOperation_inv {i : Instr} {s : State} {v : BitVec 64} {f : Word s.fw → Voice s.fw}
    (hi : setterOperation s i = some (v, f)) (hs : s.voice.Inv) {x : Word s.fw} (hx : isNaN x = false) : (f x).Inv := by
  cases i with
  | setf _ => cases hi; exact voiceSetFrequency_inv hs hx
  | setc _ => cases hi; exact voiceSetCutoff_inv hs hx (env_valid s)
  | setq _ => cases hi; exact voiceSetResonance_inv hs hx (env_valid s)
  | setl _ => cases hi; exact voiceSetLfoRate_inv hs hx
  | setm _ => cases hi; exact voiceSetMixRatio_inv hs hx
  | init _ | step | rd _ => cases hi

theorem answer_keeps_inv {i : Instr} {s t : State} (h : Answer i s t) (hs : s.Inv) : t.Inv := by
  cases h with
  | rejected k => exact hs
  | read => exact hs
  | sample hi ready => exact fun _ => voiceProcess_inv (env_valid s) (hs ready)
  | set v f hi ready ok => exact fun _ => setterOperation_inv hi (hs ready) ok
  | constructed sr hi ok => exact fun _ => voiceNew_inv (env_valid s) ok

/-- Settles O45: no Voice is constructed at reset. -/
theorem invariantAtReset : Obligations.InvariantAtReset := by
  unfold Obligations.InvariantAtReset
  intro (hctor : false = true)
  cases hctor

/-- Settles O46: the values `INIT` writes lie in their ranges, and the filter it constructs is consistent. -/
theorem initEstablishesTheInvariant : Obligations.InitEstablishesTheInvariant := by
  unfold Obligations.InitEstablishesTheInvariant
  intro s arg hok
  exact ⟨_, exec_init_ok hok, rfl, voiceNew_inv (env_valid s) hok⟩

/-- Settles O47, by the cases of a step: `rst` leaves no Voice, and every command's answer keeps the invariant. -/
theorem everyStepKeepsTheInvariant : Obligations.EveryStepKeepsTheInvariant := by
  unfold Obligations.EveryStepKeepsTheInvariant
  intro s t hs hstep
  cases step_case hstep with
  | idle h => exact hs
  | rst rest h => intro (hctor : false = true); cases hctor
  | illegal c rest r h hd => exact hs
  | command c rest i _ h hd he ha => exact answer_keeps_inv ha hs

/-- Settles O48, by induction on the steps taken since the `INIT`. -/
theorem reachableStatesHaveTheInvariant : Obligations.ReachableStatesHaveTheInvariant := by
  unfold Obligations.ReachableStatesHaveTheInvariant
  intro s hreach
  induction hreach with
  | construct ok h =>
    obtain ⟨t, ht, hctor, hinv⟩ := initEstablishesTheInvariant _ _ ok
    rw [h] at ht
    cases ht
    exact ⟨hctor, hinv⟩
  | step r h hctor ih => exact ⟨hctor, everyStepKeepsTheInvariant _ _ (fun _ => ih.2) h hctor⟩

end Sys2Proof.Machine
end

section
/-!
PROOFS. The statement of 20_memory.md: commands are carried out one at a time, in the order issued (R41), and with nothing issued
the core waits (R103).
-/

namespace Sys2Proof.Machine

/-- Settles O5, by the two cases of a step it speaks of: no event, and a command whose word decodes. -/
theorem stepRunsTheIssuedCommand : Obligations.StepRunsTheIssuedCommand := by
  unfold Obligations.StepRunsTheIssuedCommand
  constructor
  · intro s hidle
    exact step_idle hidle
  · intro s c rest i hissued hdecode
    exact step_command hissued hdecode

end Sys2Proof.Machine
end

section
/-!
PROOFS. The statements of 30_encoding.md: decoding and encoding are inverse to each other (R44, R45), a command as one number (R44),
the four checks of an issued command in their order (R47, R49), the operand check of `INIT` (R48) and the printed words (R51).
-/

namespace Sys2Proof.Machine

variable {F : Fmt}

/-! ### Decoding what the encoder writes (R44, R45) -/

/-- The opcode map's facts about each command's encoding, for all commands at once. -/
theorem opcodeRow_statement (i : Instr) : Laws.OpcodeRow.Statement i := by
  cases i with
  | init v => exact Laws.OpcodeRow.init v
  | step => exact Laws.OpcodeRow.step
  | setf v => exact Laws.OpcodeRow.setf v
  | setc v => exact Laws.OpcodeRow.setc v
  | setq v => exact Laws.OpcodeRow.setq v
  | setl v => exact Laws.OpcodeRow.setl v
  | setm v => exact Laws.OpcodeRow.setm v
  | rd c => exact Laws.OpcodeRow.rd c

/-- The instruction that arrives when `i` is issued: the port carries the low `FW` bits of an operand. -/
def onPort (F : Fmt) : Instr → Instr
  | .init v => .init ((v.setWidth F.width).setWidth 64)
  | .step => .step
  | .setf v => .setf ((v.setWidth F.width).setWidth 64)
  | .setc v => .setc ((v.setWidth F.width).setWidth 64)
  | .setq v => .setq ((v.setWidth F.width).setWidth 64)
  | .setl v => .setl ((v.setWidth F.width).setWidth 64)
  | .setm v => .setm ((v.setWidth F.width).setWidth 64)
  | .rd c => .rd c

theorem cellOfIndex_encode_rd (c : Cell) : cellOfIndex ((encode F (.rd c)).op.setWidth 7) = some c := by
  obtain ⟨-, hindex⟩ := rd_opcode c
  rw [encode, hindex, cellOfIndex_index]

theorem decode_encode (i : Instr) : decode (encode F i) = .ok (onPort F i) := by
  obtain ⟨hrow, -⟩ := opcodeRow_statement i F
  rw [decode_eq, hrow]
  cases i with
  | rd c => simp only [Laws.OpcodeRow.mnemonicOf, cellOfIndex_encode_rd, onPort]
  | init v | step | setf v | setc v | setq v | setl v | setm v => rfl

theorem onPort_of_wellFormed {i : Instr} (h : i.wellFormed F = true) : onPort F i = i := by
  cases i with
  | init v | setf v | setc v | setq v | setl v | setm v => rw [onPort, wellFormed_operand h]
  | step | rd c => rfl

/-- Settles O1: what arrives is the instruction with its operand cut to `FW` bits, and a well-formed one has no bits to lose. -/
theorem decodeOfEncode : Obligations.DecodeOfEncode := by
  unfold Obligations.DecodeOfEncode
  intro F i hwf
  rw [decode_encode, onPort_of_wellFormed hwf]

/-! ### Encoding what was decoded (R44, R45) -/

/-- What a decoded instruction owes the word it came from: it is a command of the build, has the word's opcode and, in format A,
the word's operand. -/
def EncodesBack (c : Command F) (i : Instr) : Prop :=
  i.wellFormed F = true ∧ (encode F i).op = c.op ∧ (isFormatA c.op = true → encode F i = c)

theorem encodesBack_of_operand {c : Command F} {i : Instr} (hwf : i.wellFormed F = operandFits F (c.arg.setWidth 64))
    (henc : encode F i = ⟨c.op, (c.arg.setWidth 64).setWidth F.width⟩) : EncodesBack c i := by
  rw [setWidth_roundTrip] at henc
  exact ⟨by rw [hwf, operandFits_setWidth], by rw [henc], fun _ => henc⟩

theorem encodesBack_of_opcode {c : Command F} {i : Instr} (hwf : i.wellFormed F = true) (hop : c.op = (encode F i).op)
    (hformat : isFormatA (encode F i).op = false) : EncodesBack c i :=
  ⟨hwf, hop.symm, fun hA => by rw [hop, hformat] at hA; cases hA⟩

theorem encodesBack_of_decode {c : Command F} {i : Instr} (hd : decode c = .ok i) : EncodesBack c i := by
  cases decoded c with
  | reserved _ h => rw [h] at hd; cases hd
  | step h op => rw [h] at hd; cases hd; exact encodesBack_of_opcode rfl op rfl
  | rd cell h op => rw [h] at hd; cases hd; exact encodesBack_of_opcode rfl op (rd_opcode_class cell).2.1
  | init h op | setf h op | setc h op | setq h op | setl h op | setm h op =>
    rw [h] at hd; cases hd; exact encodesBack_of_operand rfl (by rw [op]; rfl)

/-- Settles O2, by the rows of the opcode map. -/
theorem encodeOfDecode : Obligations.EncodeOfDecode := by
  unfold Obligations.EncodeOfDecode
  intro F c i hd
  exact encodesBack_of_decode hd

/-- Settles O3, by evaluating the decoder. -/
theorem printedWordsDecode : Obligations.PrintedWordsDecode := by
  unfold Obligations.PrintedWordsDecode
  decide

/-! ### A command as one number (R44) -/

theorem toNat_toNumber (c : Command F) : c.toNumber.toNat = c.op.toNat * 2 ^ F.width + c.arg.toNat := by
  rw [Command.toNumber, BitVec.toNat_append, ← Nat.shiftLeft_add_eq_or_of_lt c.arg.isLt, Nat.shiftLeft_eq]

theorem commandOfNumber_toNumber (c : Command F) : commandOfNumber c.toNumber = c := by
  rw [commandOfNumber, Command.toNumber, BitVec.extractLsb'_append_eq_left, BitVec.setWidth_append_eq_right]

/-- Settles O4: the operand lies below `2^FW`, so neither part reaches into the other. -/
theorem commandAsOneNumber : Obligations.CommandAsOneNumber := by
  unfold Obligations.CommandAsOneNumber
  exact fun F c => ⟨toNat_toNumber c, commandOfNumber_toNumber c⟩

/-! ### The operand check of INIT (R48, R98) -/

theorem valueUnits_nonpos_of_signBit {w : Word F} (h : signBit w = true) : valueUnits w ≤ 0 := by
  rw [valueUnits, if_pos h]; omega

/-- A zero or a subnormal is below `2^fracBits` units. -/
theorem valueUnits_lt_of_expField_eq_zero {w : Word F} (h : expField w = 0) : valueUnits w < 2 ^ F.fracBits := by
  have hunits : units w < 2 ^ F.fracBits := by
    rw [expField] at h
    rw [units, magUnits, if_pos h]
    exact Nat.mod_lt _ (by positivity)
  have hle : valueUnits w ≤ units w := by rw [← valueUnits_natAbs]; exact Int.le_natAbs
  exact hle.trans_lt (by exact_mod_cast hunits)

/-- The least normal value, `2^fracBits` units, is at most 1. -/
theorem pow_fracBits_le_unit (F : Fmt) : (2 : Int) ^ F.fracBits ≤ 2 ^ unitExp F :=
  pow_le_pow_right₀ (by norm_num) (by cases F <;> decide)

/-- Settles O12: a NaN and an infinity are not finite, and a negative number, a zero and a subnormal are below 40. -/
theorem initAcceptsExactlyRatesFromForty : Obligations.InitAcceptsExactlyRatesFromForty := by
  unfold Obligations.InitAcceptsExactlyRatesFromForty
  intro F w
  refine ⟨initOperandOk_iff w, fun hclass => ?_⟩
  rw [← Bool.not_eq_true, initOperandOk_iff]
  rintro ⟨hfinite, hforty⟩
  have hunit : (0 : Int) < 2 ^ unitExp F := by positivity
  rcases hclass with hnan | hinf | hneg | hsmall
  · rw [isNaN_of_isFinite hfinite] at hnan; cases hnan
  · rw [isInf_of_isFinite hfinite] at hinf; cases hinf
  · have := valueUnits_nonpos_of_signBit hneg
    omega
  · have := valueUnits_lt_of_expField_eq_zero hsmall
    have := pow_fracBits_le_unit F
    omega

/-! ### Which words decode (R49) -/

theorem not_reserved_of_decode {c : Command F} {i : Instr} (hd : decode c = .ok i) : isReservedOpcode c.op = false := by
  obtain ⟨-, hop, -⟩ := encodesBack_of_decode hd
  obtain ⟨-, hreserved, -⟩ := opcodeRow_statement i F
  rw [← hop, hreserved]

theorem decode_of_reserved {c : Command F} (h : isReservedOpcode c.op = true) : ∃ r, decode c = .error r := by
  rcases hd : decode c with r | i
  · exact ⟨r, rfl⟩
  · rw [not_reserved_of_decode hd] at h; cases h

theorem decode_of_not_reserved {c : Command F} (h : isReservedOpcode c.op = false) : ∃ i, decode c = .ok i := by
  cases decoded c with
  | reserved _ _ hr => rw [hr] at h; cases h
  | init hd | step hd | setf hd | setc hd | setq hd | setl hd | setm hd | rd _ hd => exact ⟨_, hd⟩

/-! ### The checks of a command by its encoded word (R47, R48) -/

section
variable {i : Instr} {s : State} {v : BitVec 64} {f : Word s.fw → Voice s.fw}

/-- A setter's word has an opcode other than `INIT`'s, so its operand passes when it is no NaN. -/
theorem setter_check (hi : setterOperation s i = some (v, f)) :
    (encode s.fw i).op ≠ 0x01 ∧
      operandPasses (encode s.fw i).op (encode s.fw i).arg = !isNaN (operand s.fw v) := by
  have hword : (encode s.fw i).op ≠ 0x01 ∧ (encode s.fw i).arg = operand s.fw v := by
    cases i with
    | setf _ | setc _ | setq _ | setl _ | setm _ => cases hi; exact ⟨by simp [encode], rfl⟩
    | init _ | step | rd _ => cases hi
  obtain ⟨hop, harg⟩ := hword
  exact ⟨hop, by rw [operandPasses, if_neg hop, harg, setterOperandOk]⟩

/-- What the last two checks of R47 decide for a command that has passed the first two. -/
structure CheckedAnswer (i : Instr) (s : State) : Prop where
  badArg : isFormatA (encode s.fw i).op = true → operandPasses (encode s.fw i).op (encode s.fw i).arg = false →
    exec i s = .next (s.raise .badArg)
  ok : (isFormatA (encode s.fw i).op = true → operandPasses (encode s.fw i).op (encode s.fw i).arg = true) →
    ∃ v b d n, exec i s = .next ⟨s.fw, v, b, s.input, s.output ++ [⟨.ok, d⟩], n⟩

theorem checkedAnswer_setter (hi : setterOperation s i = some (v, f)) (hformat : isFormatA (encode s.fw i).op = true)
    (hready : s.ctor = true ∨ (encode s.fw i).op = 0x01) : CheckedAnswer i s := by
  obtain ⟨hop, hpasses⟩ := setter_check hi
  have hctor := hready.resolve_right hop
  constructor
  · intro _ hbad
    rw [exec_setter hi, setParameter_badArg hctor (by simpa [hpasses] using hbad)]
  · intro hok
    rw [exec_setter hi, setParameter_ok hctor (by simpa [hpasses] using hok hformat)]
    exact ⟨_, _, _, _, rfl⟩

end

/-- The last two checks of every command, once a Voice is there or the command is `INIT` (R47). -/
theorem checkedAnswer {i : Instr} {s : State} (hready : s.ctor = true ∨ (encode s.fw i).op = 0x01) : CheckedAnswer i s := by
  cases i with
  | init sr =>
    exact ⟨fun _ hbad => exec_init_badArg hbad, fun hok => ⟨_, _, _, _, exec_init_ok (hok rfl)⟩⟩
  | step =>
    exact ⟨fun hA _ => absurd hA (by simp [encode, isFormatA]),
      fun _ => ⟨_, _, _, _, exec_step_ok (hready.resolve_right (by simp [encode]))⟩⟩
  | rd c =>
    obtain ⟨-, hformat, hop, -⟩ := rd_opcode_class c
    exact ⟨fun hA _ => absurd hA (by rw [encode, hformat]; simp),
      fun _ => ⟨_, _, _, _, exec_rd_ok (hready.resolve_right hop)⟩⟩
  | setf _ | setc _ | setq _ | setl _ | setm _ => exact checkedAnswer_setter rfl rfl hready

/-- Settles O6. A reserved opcode decodes to nothing; any other word decodes, and its instruction's encoding has its opcode and, in
format A, its operand, so that the checks of the instruction are those of the word. -/
theorem checksInOrder : Obligations.ChecksInOrder := by
  unfold Obligations.ChecksInOrder
  intro s c rest hissued
  refine ⟨?illegal, ?notReady, ?badArg, ?passes⟩
  case illegal =>
    intro hreserved
    obtain ⟨r, hd⟩ := decode_of_reserved hreserved
    exact step_illegal hissued hd
  case notReady =>
    intro hlegal hctor hop
    obtain ⟨i, hd⟩ := decode_of_not_reserved hlegal
    have hinit : ∀ sr, i ≠ .init sr := by
      rintro sr rfl
      obtain ⟨hop', -⟩ := command_of_decode_init hd
      exact hop hop'
    rw [step_command hissued hd]
    exact exec_notReady (s := s.withInput rest) hctor hinit
  case badArg =>
    intro hlegal hready hformat hbad
    obtain ⟨i, hd⟩ := decode_of_not_reserved hlegal
    obtain ⟨-, -, hword⟩ := encodesBack_of_decode hd
    obtain rfl := hword hformat
    rw [step_command hissued hd]
    exact (checkedAnswer (s := s.withInput rest) hready).badArg hformat hbad
  case passes =>
    intro hlegal hready hpasses
    obtain ⟨i, hd⟩ := decode_of_not_reserved hlegal
    obtain ⟨-, hop, hword⟩ := encodesBack_of_decode hd
    have hok : isFormatA (encode s.fw i).op = true → operandPasses (encode s.fw i).op (encode s.fw i).arg = true := by
      rw [hop]
      intro hformat
      rw [hword hformat]
      exact hpasses hformat
    refine ⟨i, hd, step_command hissued hd, ?_⟩
    rw [step_command hissued hd]
    rw [← hop] at hready
    exact (checkedAnswer (s := s.withInput rest) hready).ok hok

end Sys2Proof.Machine
end

section
/-!
PROOFS. The statements of 40_oscillators.md: the phase stays in [0, 1) (R53), the samples of the Sine and the Square (R54, R55), and
the crossfade of the Mixed oscillator, at its ends and between them (R57, R60).
-/

namespace Sys2Proof.Machine

variable {F : Fmt}

/-! ### The phase (R53) -/

/-- A phase in [0, 1) and an increment that is finite and not negative: their rounded sum wraps into [0, 1). -/
theorem isPhase_oscAdvance_of_increment {E : Env F} {id : OscId} {sr : Word F} {o : Osc F} (hphase : isPhase o.phase = true)
    (hfinite : isFinite (fdiv (E.nan (.inc id)) o.freq sr) = true)
    (hnonneg : 0 ≤ valueUnits (fdiv (E.nan (.inc id)) o.freq sr)) : isPhase (oscAdvance E id sr o).phase = true :=
  isPhase_advance hphase hfinite hnonneg (isFinite_phase_sum hphase hfinite)

/-- Settles O16: a finite increment keeps the sum with a phase finite, and `wrap1` of a finite sum that is not negative is a phase. -/
theorem phaseStaysInUnitInterval : Obligations.PhaseStaysInUnitInterval := by
  unfold Obligations.PhaseStaysInUnitInterval
  intro F E id sr o hphase hfinite hnonneg
  exact ⟨isPhase_oscAdvance_of_increment hphase hfinite hnonneg, rfl, rfl⟩

/-- Settles O17: a rate of at least 40 makes the quotient finite. -/
theorem phaseInvariantAtAcceptedRates : Obligations.PhaseInvariantAtAcceptedRates := by
  unfold Obligations.PhaseInvariantAtAcceptedRates
  intro F E id sr o hphase hfreq hpos hrate
  obtain ⟨hfinite, hnonneg⟩ := increment_finite (nan := E.nan (.inc id)) hfreq hpos.le hrate
  exact isPhase_oscAdvance_of_increment hphase hfinite hnonneg

/-! ### The Square (R55) -/

theorem valueUnits_one (F : Fmt) : valueUnits (lit 1 : Word F) = 2 ^ unitExp F := by
  simpa using (valueUnits_lit (F := F) (n := 1) (by norm_num)).1

theorem squareNext_of_below {E : Env F} {sr : Word F} {o : Osc F} (h : flt o.phase (lit 1 2) = true) :
    squareNext E sr o = (lit 1, oscAdvance E .square sr o) := by
  rw [squareNext, squareOf, if_pos h]

theorem squareNext_of_not_below {E : Env F} {sr : Word F} {o : Osc F} (h : flt o.phase (lit 1 2) = false) :
    squareNext E sr o = (fneg (lit 1), oscAdvance E .square sr o) := by
  rw [squareNext, squareOf, if_neg (by simp [h])]

/-- Settles O18, by the two cases of the comparison with 0.5; the literal 1 is exact. -/
theorem squareIsPlusOrMinusOne : Obligations.SquareIsPlusOrMinusOne := by
  unfold Obligations.SquareIsPlusOrMinusOne
  intro F E sr o
  exact ⟨squareNext_of_below, squareNext_of_not_below, valueUnits_one F, by rw [valueUnits_fneg, valueUnits_one]⟩

/-! ### The Sine (R54) -/

/-- A product with +0 on the right is a zero of the other factor's sign. -/
theorem fmul_zero_right {nan a : Word F} (ha : isFinite a = true) : fmul nan a 0 = pack (signBit a) 0 := by
  have hsign : (signBit a != signBit (0 : Word F)) = signBit a := by simp
  have hunits : units (0 : Word F) = 0 := units_of_isZero ((isZero_iff _).2 magBits_zero)
  rw [fmul_eq_roundWord ha isFinite_zero, hsign, hunits, Nat.mul_zero, roundWord_zero]

theorem fsin_zero (N : Num F) (nan : Word F) : fsin N nan 0 = 0 := by
  rw [fsin, isFinite_zero, Bool.not_true, if_neg Bool.false_ne_true, if_pos rfl]

/-- At phase +0 the argument of the sine is +0, and so is its value (`NUM.zero`). -/
theorem sineOf_zero (E : Env F) (id : OscId) : sineOf E id 0 = 0 := by
  obtain ⟨hfinite, -, hsign⟩ := (isPositive_iff _).1 (isPositive_twoPi F)
  rw [sineOf, fmul_zero_right hfinite, hsign, pack_false_zero, fsin_zero]

/-- Settles O19: the sample is the sine of the phase found, which is +0 at +0 and bounded at every phase. -/
theorem sineSamplesThenAdvances : Obligations.SineSamplesThenAdvances := by
  unfold Obligations.SineSamplesThenAdvances
  intro F E sr o
  refine ⟨rfl, fun hzero => ?_, sineOf_bounds⟩
  rw [sineNext, hzero, sineOf_zero]

/-! ### The crossfade (R57, R60) -/

/-- Settles O20: the four operations and the two advances are the operation's own. -/
theorem mixedCrossfadesBothSamples : Obligations.MixedCrossfadesBothSamples := by
  unfold Obligations.MixedCrossfadesBothSamples
  intro F E sr m
  rfl

/-- The range [-1, 1], in units. -/
theorem inRange_unit_iff (w : Word F) :
    inRange w (fneg (lit 1)) (lit 1) = true ↔ isFinite w = true ∧ |valueUnits w| ≤ 2 ^ unitExp F := by
  rw [inRange_symm_iff (by norm_num), Nat.cast_one, one_mul, abs_le]

section
variable {nan s q : Word F}

theorem signBit_one (F : Fmt) : signBit (lit 1 : Word F) = false :=
  ((isPositive_iff _).1 (isPositive_lit (by norm_num) one_pos)).2.2

/-- What a sample of the Square is (R55): a finite word of magnitude 1, negative exactly when it is -1. -/
theorem square_sample (hq : q = lit 1 ∨ q = fneg (lit 1)) :
    isFinite q = true ∧ isZero q = false ∧ |valueUnits q| = 2 ^ unitExp F ∧ (signBit q = true ↔ q = fneg (lit 1)) := by
  have hone := isPositive_lit (F := F) (n := 1) (by norm_num) one_pos
  obtain ⟨hfinite, hzero, -⟩ := (isPositive_iff _).1 hone
  have hmag : |valueUnits (lit 1 : Word F)| = 2 ^ unitExp F := by rw [valueUnits_one, abs_of_pos (by positivity)]
  have hneg : signBit (fneg (lit 1 : Word F)) = true := by rw [signBit_fneg, signBit_one]; rfl
  rcases hq with rfl | rfl
  · refine ⟨hfinite, hzero, hmag, fun h => ?_, fun h => by rw [h, hneg]⟩
    rw [signBit_one] at h; cases h
  · have hzero' : isZero (fneg (lit 1 : Word F)) = false := by rw [isZero, magBits_fneg]; exact hzero
    exact ⟨by rw [isFinite_fneg]; exact hfinite, hzero', by rw [valueUnits_fneg, abs_neg, hmag], fun _ => rfl, fun _ => hneg⟩

/-- The complement of the ratio at its two ends is exact. -/
theorem one_sub_zero : fsub nan (lit 1) (lit 0) = (lit 1 : Word F) := by
  obtain ⟨hfinite, hzero, -⟩ := square_sample (F := F) (.inl rfl)
  have hz : isZero (fneg (lit 0 : Word F)) = true := by rw [lit_zero, isZero_iff, magBits_fneg]; exact magBits_zero
  exact (fadd_zero_word hfinite hz hzero).1

theorem one_sub_one : fsub nan (lit 1) (lit 1) = (lit 0 : Word F) := by
  have hfinite := isFinite_lit (F := F) (n := 1) (by norm_num)
  rw [fsub, fadd_of_sum_eq_zero hfinite (by rwa [isFinite_fneg]) (by rw [valueUnits_fneg]; omega), signBit_one, Bool.false_and,
    pack_false_zero, lit_zero]

/-- At ratio 0 the crossfade adds to the sine a zero of the square's sign. -/
theorem crossfade_zero {E : Env F} (hs : isFinite s = true) (hq : isFinite q = true) :
    crossfade E (lit 0) s q = fadd (E.nan .mixSum) s (pack (signBit q) 0) := by
  rw [crossfade, one_sub_zero, fmul_one hs, fmul_zero_left hq]

/-- At ratio 1 the crossfade adds to the square a zero of the sine's sign. -/
theorem crossfade_one {E : Env F} (hs : isFinite s = true) (hq : isFinite q = true) :
    crossfade E (lit 1) s q = fadd (E.nan .mixSum) (pack (signBit s) 0) q := by
  rw [crossfade, one_sub_one, fmul_zero_left hs, fmul_one hq]

/-- A sum of two zeros is negative only where both are. -/
theorem fadd_zero_zero (ha : isZero s = true) (hb : isZero q = true) :
    fadd nan s q = pack (signBit s && signBit q) 0 :=
  fadd_of_sum_eq_zero (isFinite_of_isZero ha) (isFinite_of_isZero hb)
    (by rw [valueUnits_of_isZero ha, valueUnits_of_isZero hb]; rfl)

theorem eq_pack_of_isZero (h : isZero s = true) : s = pack (signBit s) 0 := by
  rw [← (isZero_iff s).1 h, pack_signBit_magBits]
end

/-- Settles O21: at each end one product is the sample kept and the other a zero, whose sign matters only beside a zero sine. -/
theorem crossfadeEndpoints : Obligations.CrossfadeEndpoints := by
  unfold Obligations.CrossfadeEndpoints
  intro F E s q hs hq
  obtain ⟨hqfinite, hqzero, -, hqsign⟩ := square_sample hq
  rw [crossfade_zero hs hqfinite, crossfade_one hs hqfinite]
  refine ⟨fun h0 => (fadd_zero_word hs (isZero_pack_zero _) h0).1, fun h0 => ?_,
    (fadd_zero_word hqfinite (isZero_pack_zero _) hqzero).2⟩
  rw [fadd_zero_zero h0 (isZero_pack_zero _), signBit_pack_zero]
  split
  · rename_i hboth
    rw [hqsign.2 hboth.2, Bool.and_true, ← eq_pack_of_isZero h0]
  · rename_i hnot
    have hsign : (signBit s && signBit q) = false := by rw [← hqsign] at hnot; simpa using hnot
    rw [hsign, pack_false_zero]

/-- Settles O22: the two products are within `1 - r`, rounded, and `r`; rounding `1 - r` takes their sum at most a quarter of 1's last
place beyond 1, and such a sum rounds to at most 1. -/
theorem crossfadeIsBounded : Obligations.CrossfadeIsBounded := by
  unfold Obligations.CrossfadeIsBounded
  intro F E r s q hr hs hq
  obtain ⟨hrfinite, hr0, hr1⟩ := (inRange_lit_iff (by norm_num) (by norm_num)).1 hr
  rw [Nat.cast_zero, zero_mul] at hr0
  rw [Nat.cast_one, one_mul] at hr1
  obtain ⟨hsfinite, hsmag⟩ := (inRange_unit_iff s).1 hs
  obtain ⟨hqfinite, -, hqmag, -⟩ := square_sample hq
  obtain ⟨hrest, hrest0, hsum⟩ := fsub_one_bounds (nan := E.nan .mixRest) hrfinite hr0 hr1
  obtain ⟨hsine, hsineMag⟩ := fmul_unit_bounds (nan := E.nan .mixSine) hrest hsfinite hsmag
  obtain ⟨hsquare, hsquareMag⟩ := fmul_unit_bounds (nan := E.nan .mixSquare) hrfinite hqfinite hqmag.le
  rw [abs_of_nonneg hrest0] at hsineMag
  rw [abs_of_nonneg hr0] at hsquareMag
  have hexact := (abs_add_le _ _).trans ((add_le_add hsineMag hsquareMag).trans hsum)
  exact (inRange_unit_iff _).2 (abs_fadd_near_one hsine hsquare hexact)

end Sys2Proof.Machine
end

section
/-!
PROOFS. The statements of 41_modulation_oscillator.md: the sample of each shape and the advance (R63 to R67), the ranges of the
shapes (R64 to R67), and the Triangle and the Ramp at the eighths of a cycle (R65, R66).
-/

namespace Sys2Proof.Machine

variable {F : Fmt}

/-! ### The ranges of the shapes (R64 to R67) -/

/-- Settles O24: each shape's bounds at a phase, the Ramp's with the strict upper one. -/
theorem lfoShapeRanges : Obligations.LfoShapeRanges := by
  unfold Obligations.LfoShapeRanges
  intro F E p hphase
  obtain ⟨hramp, hrampBelow⟩ := shapeRamp_bounds (E := E) hphase
  exact ⟨sineOf_bounds hphase, shapeTriangle_bounds hphase, hramp, hrampBelow, shapeSmoothSquare_bounds hphase⟩

/-! ### The sample, then the advance (R63) -/

/-- Settles O23: each conjunct is the operation with the shape's arm chosen. -/
theorem lfoSamplesThenAdvances : Obligations.LfoSamplesThenAdvances := by
  unfold Obligations.LfoSamplesThenAdvances
  intro F E sr p f
  exact ⟨rfl, rfl, rfl, rfl⟩

/-! ### Triangle and Ramp draw no NaN at a phase (R65, R66) -/

/-- A phase scaled by a whole number lies between 0 and that number. -/
theorem isFinite_scaled_phase {nan p : Word F} {n : Nat} (hn : n < 2 ^ 24) (hphase : isPhase p = true) :
    isFinite (fmul nan (lit n) p) = true := by
  obtain ⟨-, hp0, hp1⟩ := (isPhase_iff p).1 hphase
  obtain ⟨hvalue, hfinite⟩ := valueUnits_lit (F := F) hn
  have hnonneg : 0 ≤ valueUnits (lit n : Word F) := by rw [hvalue]; positivity
  have hzero : valueUnits (0 : Word F) * 2 ^ unitExp F = 0 := mul_eq_zero_of_left valueUnits_zero _
  have hfinitePhase := isFinite_of_isPhase hphase
  have hlower := valueUnits_le_fmul (nan := nan) hfinite hfinitePhase isFinite_zero (hzero.trans_le (mul_nonneg hnonneg hp0))
  have hupper := valueUnits_fmul_le (nan := nan) hfinite hfinitePhase hfinite (mul_le_mul_of_nonneg_left hp1.le hnonneg)
  exact isFinite_of_valueUnits isFinite_zero hfinite hlower hupper

theorem scaled_phase_nan (n₁ n₂ : Word F) {p : Word F} {n : Nat} (hn : n < 2 ^ 24) (hphase : isPhase p = true) :
    fmul n₁ (lit n) p = fmul n₂ (lit n) p :=
  fmul_nan n₁ n₂ (isFinite_lit hn) (isFinite_of_isPhase hphase)

/-- At a phase the Triangle is the same in every environment. -/
theorem shapeTriangle_env (E E' : Env F) {p : Word F} (hphase : isPhase p = true) : shapeTriangle E p = shapeTriangle E' p := by
  have hscaled := isFinite_scaled_phase (nan := E'.nan .triScale) (n := 4) (by norm_num) hphase
  rw [shapeTriangle, shapeTriangle, scaled_phase_nan (E.nan .triScale) (E'.nan .triScale) (by norm_num) hphase,
    fsub_nan (E.nan .triLine) (E'.nan .triLine) hscaled (isFinite_lit (by norm_num)),
    fsub_nan (E.nan .triLine) (E'.nan .triLine) (isFinite_lit (by norm_num)) hscaled]

/-- At a phase the Ramp is the same in every environment. -/
theorem shapeRamp_env (E E' : Env F) {p : Word F} (hphase : isPhase p = true) : shapeRamp E p = shapeRamp E' p := by
  have hscaled := isFinite_scaled_phase (nan := E'.nan .rampScale) (n := 2) (by norm_num) hphase
  rw [shapeRamp, shapeRamp, scaled_phase_nan (E.nan .rampScale) (E'.nan .rampScale) (by norm_num) hphase,
    fsub_nan (E.nan .rampLine) (E'.nan .rampLine) hscaled (isFinite_lit (by norm_num))]

/-! ### The eighths of a cycle (R65, R66) -/

theorem isPhase_eighth {k : Nat} (hk : k < 8) : isPhase (lit k 8 : Word F) = true := by
  obtain ⟨hvalue, hfinite⟩ := valueUnits_eighth F k (by omega)
  have hunit : (0 : Int) < 2 ^ unitExp F := by positivity
  exact (isPhase_iff _).2 ⟨isNaN_of_isFinite hfinite, by nlinarith, by nlinarith⟩

/-- Two functions of a word that agree at every phase agree at the eighths of a cycle. -/
theorem map_eighths_congr {f g : Word F → Word F} (h : ∀ p, isPhase p = true → f p = g p) :
    ([0, 1, 2, 3, 4, 5, 6, 7].map fun k => f (lit k 8)) = [0, 1, 2, 3, 4, 5, 6, 7].map fun k => g (lit k 8) := by
  have hlt : ∀ k ∈ [0, 1, 2, 3, 4, 5, 6, 7], k < 8 := by decide
  exact List.map_congr_left fun k hk => h _ (isPhase_eighth (hlt k hk))

/-- Settles O25: in one environment the sixteen values are computed, and no other environment changes them. -/
theorem triangleAndRampAtEighths : Obligations.TriangleAndRampAtEighths := by
  unfold Obligations.TriangleAndRampAtEighths
  intro F E
  rw [map_eighths_congr fun p => shapeTriangle_env E (drawEnv F 0) (p := p),
    map_eighths_congr fun p => shapeRamp_env E (drawEnv F 0) (p := p)]
  cases F <;> decide +kernel

end Sys2Proof.Machine
end

section
/-!
PROOFS. The statements of 42_biquad_filter.md: construction (R70), the coefficients (R71), the filtering equation with its two exits
(R72 to R74), and the modulated cutoff (R76).
-/

namespace Sys2Proof.Machine

variable {F : Fmt}

/-! ### Construction and modulation of the cutoff (R70, R76) -/

/-- The bounds of the resonance at construction. -/
theorem resonance_bounds_ordered (F : Fmt) : fge (lit 20 : Word F) (lit 1 10) = true := by cases F <;> decide +kernel

/-- Settles O26: both clamps land in their ranges, the half rate is exact, and the rest is what construction writes. -/
theorem biquadConstruction : Obligations.BiquadConstruction := by
  unfold Obligations.BiquadConstruction
  intro F E sr fc q hE hsr hfc hq
  obtain ⟨hhalf, -⟩ := half_exact (nan := E.nan .halfNew) hsr
  exact ⟨biquadNew_cutoff .., biquadNew_res .., inRange_clamp_half hsr hfc,
    inRange_clamp_of_fge (resonance_bounds_ordered F) hq, hhalf, biquadNew_x1 .., biquadNew_x2 .., biquadNew_y1 ..,
    biquadNew_y2 .., consistent_recompute hE sr _⟩

/-- Settles O34: the mapped value is no NaN, so its clamp is in range; recomputing keeps the resonance and the history. -/
theorem setModulationReplacesTheCutoff : Obligations.SetModulationReplacesTheCutoff := by
  unfold Obligations.SetModulationReplacesTheCutoff
  intro F E sr v b hE hsr hv
  exact ⟨biquadSetModulation_cutoff .., inRange_clamp_half hsr (isNaN_modulatedCutoff hv), consistent_recompute hE sr _,
    biquadSetModulation_res .., biquadSetModulation_x1 .., biquadSetModulation_x2 .., biquadSetModulation_y1 ..,
    biquadSetModulation_y2 ..⟩

/-- Values of [-1, 1] map into [400, 4000]. -/
theorem modulatedCutoff_of_unit {E : Env F} {v : Word F} (hv : inRange v (fneg (lit 1)) (lit 1) = true) :
    inRange (modulatedCutoff E v) (lit 400) (lit 4000) = true := by
  obtain ⟨hfinite, hlo, hhi⟩ := (inRange_symm_iff (by norm_num)).1 hv
  exact modulatedCutoff_bounds (a := 4) (b := 4) le_rfl le_rfl hfinite (by push_cast at hlo ⊢; linarith)
    (by push_cast at hhi ⊢; linarith)

/-- On [-1, 1] the mapping draws no NaN: its value is that of any environment of the machine. -/
theorem modulatedCutoff_env (E : Env F) {E' : Env F} (hE' : E'.Valid) {v : Word F}
    (hv : inRange v (fneg (lit 1)) (lit 1) = true) : modulatedCutoff E v = modulatedCutoff E' v := by
  obtain ⟨hfinite, -, -⟩ := (inRange_symm_iff (by norm_num)).1 hv
  obtain ⟨hone, hfiniteOne⟩ := valueUnits_lit (F := F) (n := 1) (by norm_num)
  have htwo := isPositive_lit (F := F) (n := 2) (by norm_num) (by norm_num)
  obtain ⟨hcutoff, -, -⟩ := (inRange_lit_iff (by norm_num) (by norm_num)).1 (modulatedCutoff_of_unit (E := E') hv)
  obtain ⟨hbase, hspan⟩ := isFinite_of_fadd (hE'.nan _) hcutoff
  obtain ⟨hhalf, hscale⟩ := isFinite_of_fmul (hE'.nan _) hspan
  have hsum : isFinite (fadd (E'.nan .modOne) v (lit 1)) = true :=
    isFinite_fadd_unit' hfinite hfiniteOne (by rw [hone]; simp)
  rw [modulatedCutoff, modulatedCutoff, fadd_nan (E.nan .modOne) (E'.nan .modOne) hfinite hfiniteOne,
    fdiv_nan (E.nan .modHalf) (E'.nan .modHalf) hsum (isFinite_of_isPositive htwo) (isZero_of_isPositive htwo),
    fmul_nan (E.nan .modSpan) (E'.nan .modSpan) hhalf hscale, fadd_nan (E.nan .modBase) (E'.nan .modBase) hbase hspan]

theorem unit_points_inRange (F : Fmt) : inRange (fneg (lit 1) : Word F) (fneg (lit 1)) (lit 1) = true ∧
    inRange (lit 0 : Word F) (fneg (lit 1)) (lit 1) = true ∧ inRange (lit 1 : Word F) (fneg (lit 1)) (lit 1) = true := by
  cases F <;> decide +kernel

theorem modulatedCutoff_at_points (F : Fmt) : modulatedCutoff (drawEnv F 0) (fneg (lit 1)) = lit 400 ∧
    modulatedCutoff (drawEnv F 0) (lit 0) = lit 2200 ∧ modulatedCutoff (drawEnv F 0) (lit 1) = lit 4000 := by
  cases F <;> decide +kernel

/-- Settles O33: the three points are computed in one environment, and no other changes them; the range is that of the mapping's
monotone operations. -/
theorem modulationMapsUnitRange : Obligations.ModulationMapsUnitRange := by
  unfold Obligations.ModulationMapsUnitRange
  intro F E
  obtain ⟨hneg, hzero, hone⟩ := unit_points_inRange F
  have henv := drawEnv_valid F 0
  rw [modulatedCutoff_env E henv hneg, modulatedCutoff_env E henv hzero, modulatedCutoff_env E henv hone]
  obtain ⟨hlow, hmid, hhigh⟩ := modulatedCutoff_at_points F
  exact ⟨fun _ => rfl, hlow, hmid, hhigh, fun v hv => modulatedCutoff_of_unit hv⟩

/-! ### The coefficients (R71) -/

section
variable {nan a b c : Word F}

/-! Operations on words that draw no NaN, by their result with the word 0 in the NaN's place, which `decide` can compute. -/

theorem fadd_eval (h : isFinite a = true ∧ isFinite b = true ∧ fadd 0 a b = c) : fadd nan a b = c := by
  obtain ⟨ha, hb, rfl⟩ := h
  exact fadd_nan nan 0 ha hb

theorem fsub_eval (h : isFinite a = true ∧ isFinite b = true ∧ fsub 0 a b = c) : fsub nan a b = c := by
  obtain ⟨ha, hb, rfl⟩ := h
  exact fsub_nan nan 0 ha hb

theorem fmul_eval (h : isFinite a = true ∧ isFinite b = true ∧ fmul 0 a b = c) : fmul nan a b = c := by
  obtain ⟨ha, hb, rfl⟩ := h
  exact fmul_nan nan 0 ha hb

theorem fdiv_eval (h : isFinite a = true ∧ isFinite b = true ∧ isZero b = false ∧ fdiv 0 a b = c) : fdiv nan a b = c := by
  obtain ⟨ha, hb, h0, rfl⟩ := h
  exact fdiv_nan nan 0 ha hb h0

/-- A `NUM` whose sine at a finite non-zero word is bounded by 1 gives that sine. -/
theorem fsin_of_num {N : Num F} (ha : isFinite a = true ∧ a ≠ 0) (hc : magBits c ≤ magBits (lit 1 : Word F))
    (h : N.sin a = c) : fsin N nan a = c := by
  obtain ⟨hfinite, h0⟩ := ha
  rw [fsin, if_neg (by simp [hfinite]), if_neg h0, h, unitBounded, if_pos hc]

theorem fcos_of_num {N : Num F} (ha : isFinite a = true ∧ a ≠ 0) (hc : magBits c ≤ magBits (lit 1 : Word F))
    (h : N.cos a = c) : fcos N nan a = c := by
  obtain ⟨hfinite, h0⟩ := ha
  rw [fcos, if_neg (by simp [hfinite]), if_neg h0, h, unitBounded, if_pos hc]

end

/-- R71's example: every value on the way from 1000 Hz and resonance 0.1 at 44100 to the five words, the printed ones and those
between them. No operation draws a NaN. -/
theorem biquadRecompute_example {E : Env .b32} {b : Biquad .b32} (hcos : E.num.cos 0x3E11E531#32 = 0x3F7D67F4#32)
    (hsin : E.num.sin 0x3E11E531#32 = 0x3E1166F5#32) (hcutoff : b.cutoff = 0x447A0000#32) (hres : b.res = 0x3DCCCCCD#32) :
    biquadRecompute E 0x472C4400#32 b =
      { b with a0 := 0x3B422B43#32, a1 := 0x3BC22B43#32, a2 := 0x3B422B43#32, b1 := 0xBF943172#32, b2 := 0x3E2DAE45#32 } := by
  have hscale : fmul (E.nan .wScale) (twoPi .b32) 0x447A0000#32 = 0x45C4597C#32 := fmul_eval (by decide +kernel)
  have hw : fdiv (E.nan .w) 0x45C4597C#32 0x472C4400#32 = 0x3E11E531#32 := fdiv_eval (by decide +kernel)
  have hc : fcos E.num (E.nan .cosW) 0x3E11E531#32 = 0x3F7D67F4#32 := fcos_of_num (by decide +kernel) (by decide +kernel) hcos
  have hs : fsin E.num (E.nan .sinW) 0x3E11E531#32 = 0x3E1166F5#32 := fsin_of_num (by decide +kernel) (by decide +kernel) hsin
  have htwoQ : fmul (E.nan .twoQ) (lit 2) 0x3DCCCCCD#32 = 0x3E4CCCCD#32 := fmul_eval (by decide +kernel)
  have hal : fdiv (E.nan .alpha) 0x3E1166F5#32 0x3E4CCCCD#32 = 0x3F35C0B2#32 := fdiv_eval (by decide +kernel)
  have hdiff (nan : Word .b32) : fsub nan (lit 1) 0x3F7D67F4#32 = 0x3C260300#32 := fsub_eval (by decide +kernel)
  have hb0 : fdiv (E.nan .b0) 0x3C260300#32 (lit 2) = 0x3BA60300#32 := fdiv_eval (by decide +kernel)
  have ha0 : fadd (E.nan .a0) (lit 1) 0x3F35C0B2#32 = 0x3FDAE059#32 := fadd_eval (by decide +kernel)
  have ha1 : fmul (E.nan .a1) (fneg (lit 2)) 0x3F7D67F4#32 = 0xBFFD67F4#32 := fmul_eval (by decide +kernel)
  have ha2 : fsub (E.nan .a2) (lit 1) 0x3F35C0B2#32 = 0x3E947E9C#32 := fsub_eval (by decide +kernel)
  have hA0A2 (nan : Word .b32) : fdiv nan 0x3BA60300#32 0x3FDAE059#32 = 0x3B422B43#32 := fdiv_eval (by decide +kernel)
  have hA1 : fdiv (E.nan .cellA1) 0x3C260300#32 0x3FDAE059#32 = 0x3BC22B43#32 := fdiv_eval (by decide +kernel)
  have hB1 : fdiv (E.nan .cellB1) 0xBFFD67F4#32 0x3FDAE059#32 = 0xBF943172#32 := fdiv_eval (by decide +kernel)
  have hB2 : fdiv (E.nan .cellB2) 0x3E947E9C#32 0x3FDAE059#32 = 0x3E2DAE45#32 := fdiv_eval (by decide +kernel)
  simp only [biquadRecompute, hcutoff, hres, hscale, hw, hc, hs, htwoQ, hal, hdiff, hb0, ha0, ha1, ha2,
    hA0A2, hA1, hB1, hB2]

/-- Settles O27: the trees are `biquadRecompute` written out, and the example follows its values. -/
theorem coefficientDerivation : Obligations.CoefficientDerivation := by
  unfold Obligations.CoefficientDerivation
  exact ⟨fun F E sr b => rfl, fun E b => biquadRecompute_example⟩

/-! ### Filtering and its two exits (R72 to R74) -/

/-- Settles O28: the output is its formula, and `process` answers by the class of the output. -/
theorem filteringEquation : Obligations.FilteringEquation := by
  unfold Obligations.FilteringEquation
  intro F E b xin
  refine ⟨rfl, ?_⟩
  cases h : isFinite (biquadOutput E b xin) with
  | true => rw [biquadProcess_finite h]; rfl
  | false => rw [biquadProcess_guard h]; rfl

/-- Settles O29: the guard's exit, with the cells that clearing writes. -/
theorem guardBypassesAndClearsHistory : Obligations.GuardBypassesAndClearsHistory := by
  unfold Obligations.GuardBypassesAndClearsHistory
  intro F E b xin h
  exact biquadProcess_guard h

/-- A non-finite input makes the output non-finite: its product stands in every sum. -/
theorem isFinite_output_of_input {E : Env F} (hE : E.Valid) {b : Biquad F} {x : Word F} (h : isFinite x = false) :
    isFinite (biquadOutput E b x) = false :=
  Bool.eq_false_of_not_eq_true fun hy => by simp [isFinite_input_of_output hE hy] at h

/-- Settles O30: the finite exit shifts, and a non-finite input leaves by the guard. -/
theorem finiteOutputShiftsHistory : Obligations.FiniteOutputShiftsHistory := by
  unfold Obligations.FiniteOutputShiftsHistory
  intro F E b xin hE
  exact ⟨fun h => biquadProcess_finite h, fun h => biquadProcess_guard (isFinite_output_of_input hE h)⟩

end Sys2Proof.Machine
end

section
/-!
PROOFS. The statements of 43_vca.md: the formulas of `process` and `set_modulation` (R81, R82), and the unmodulated VCA (R83).
-/

namespace Sys2Proof.Machine

variable {F : Fmt}

/-! ### A product with 1 -/

theorem eq_infinity_of_isInf {a : Word F} (h : isInf a = true) : infinity (signBit a) = a := by
  rw [infinity, ← (isInf_iff a).1 h, pack_signBit_magBits]

/-- A product with 1 is the other factor, where that is no NaN: an infinity keeps its sign. -/
theorem fmul_one_right_of_not_nan {nan a : Word F} (h : isNaN a = false) : fmul nan a (lit 1) = a := by
  obtain ⟨hone, hzero, hsign⟩ := (isPositive_iff _).1 (isPositive_lit (F := F) (n := 1) (by norm_num) one_pos)
  cases hinf : isInf a with
  | false => exact fmul_one_right (isFinite_of_not_nan_inf h hinf)
  | true =>
    rw [fmul_of_inf h (isNaN_of_isFinite hone) (.inl hinf), isZero_of_isInf hinf, hzero, hsign, Bool.bne_false,
      if_neg (by decide), eq_infinity_of_isInf hinf]

/-! ### The modulation's offset (R82) -/

/-- The normalized modulation less one half, `(v + 1) / 2 - 0.5`, which the amount scales. -/
def vcaOffset (E : Env F) (v : Word F) : Word F :=
  fsub (E.nan .vcaOff) (fdiv (E.nan .vcaNorm) (fadd (E.nan .vcaOne) v (lit 1)) (lit 2)) (lit 1 2)

theorem vcaSetModulation_eq (E : Env F) (v : Word F) (a : Vca F) : vcaSetModulation E v a =
    ⟨a.gain, a.amt, fadd (E.nan .vcaSet) (lit 1) (fmul (E.nan .vcaScale) (vcaOffset E v) a.amt)⟩ := rfl

theorem isFinite_vcaOffset {E : Env F} {v : Word F} (hv : isFinite v = true) : isFinite (vcaOffset E v) = true :=
  isFinite_vca_offset hv

/-- The offset of a finite argument draws no NaN: its value is that of any environment. -/
theorem vcaOffset_env (E E' : Env F) {v : Word F} (hv : isFinite v = true) : vcaOffset E v = vcaOffset E' v := by
  obtain ⟨hone, hfiniteOne⟩ := valueUnits_lit (F := F) (n := 1) (by norm_num)
  obtain ⟨hfiniteTwo, hzeroTwo, -⟩ := (isPositive_iff _).1 (isPositive_lit (F := F) (n := 2) (by norm_num) two_pos)
  have hsum : isFinite (fadd (E'.nan .vcaOne) v (lit 1)) = true := isFinite_fadd_unit' hv hfiniteOne (by rw [hone]; simp)
  rw [vcaOffset, vcaOffset, fadd_nan _ (E'.nan .vcaOne) hv hfiniteOne, fdiv_nan _ (E'.nan .vcaNorm) hsum hfiniteTwo hzeroTwo,
    fsub_nan _ (E'.nan .vcaOff) (isFinite_half hsum) (isFinite_of_isPositive (isPositive_half F))]

/-! ### Amount 1 (R82) -/

/-- The multiplier at amount 1: 1 plus the offset. -/
def vcaUnitMultiplier (E : Env F) (v : Word F) : Word F := fadd (E.nan .vcaSet) (lit 1) (vcaOffset E v)

/-- At amount 1 a finite argument writes the multiplier, computed in any environment. -/
theorem vcaSetModulation_amount_one (E E' : Env F) (g c : Word F) {v : Word F} (hv : isFinite v = true) :
    vcaSetModulation E v ⟨g, lit 1, c⟩ = ⟨g, lit 1, vcaUnitMultiplier E' v⟩ := by
  have hoffset := isFinite_vcaOffset (E := E') hv
  rw [vcaSetModulation_eq, vcaOffset_env E E' hv, fmul_one_right hoffset,
    fadd_nan _ (E'.nan .vcaSet) (isFinite_lit (by norm_num)) hoffset, vcaUnitMultiplier]

theorem vcaUnitMultiplier_at_points (F : Fmt) :
    vcaUnitMultiplier (drawEnv F 0) (fneg (lit 1)) = lit 1 2 ∧ vcaUnitMultiplier (drawEnv F 0) (lit 0) = lit 1 ∧
    vcaUnitMultiplier (drawEnv F 0) (lit 1) = lit 3 2 ∧ vcaUnitMultiplier (drawEnv F 0) (lit 3) = lit 5 2 ∧
    vcaUnitMultiplier (drawEnv F 0) (fneg (lit 3)) = fneg (lit 1 2) := by
  cases F <;> decide +kernel

/-- Settles O36: the formulas are the operations' own; the five points are computed in one environment, and no other changes them. -/
theorem vcaFormulas : Obligations.VcaFormulas := by
  unfold Obligations.VcaFormulas
  intro F E g c
  have hlit {n : Nat} (hn : n < 2 ^ 24) := vcaSetModulation_amount_one E (drawEnv F 0) g c (isFinite_lit hn)
  have hneg {n : Nat} (hn : n < 2 ^ 24) :=
    vcaSetModulation_amount_one E (drawEnv F 0) g c ((isFinite_fneg _).trans (isFinite_lit hn))
  rw [hneg (by norm_num), hlit (by norm_num), hlit (by norm_num), hlit (by norm_num), hneg (by norm_num)]
  obtain ⟨hnegOne, hzero, hone, hthree, hnegThree⟩ := vcaUnitMultiplier_at_points F
  rw [hnegOne, hzero, hone, hthree, hnegThree]
  exact ⟨fun _ _ => rfl, fun _ _ => rfl, rfl, rfl, rfl, rfl, rfl⟩

/-! ### Amount 0 (R83) -/

/-- At amount 0 a finite argument leaves unity gain: the scaled offset is a zero, and 1 plus a zero is 1. -/
theorem vcaSetModulation_amount_zero (E : Env F) (g : Word F) {v : Word F} (hv : isFinite v = true) :
    vcaSetModulation E v (vcaNew g 0) = vcaNew g 0 := by
  obtain ⟨hone, hzero, -⟩ := (isPositive_iff _).1 (isPositive_lit (F := F) (n := 1) (by norm_num) one_pos)
  rw [vcaSetModulation_eq, vcaNew_amt, fmul_zero_right (isFinite_vcaOffset hv),
    (fadd_zero_word hone (isZero_pack_zero _) hzero).1, vcaNew_gain, vcaNew]

/-- Unmodulated, the VCA stays as constructed along every sequence of calls with finite arguments. -/
theorem foldl_vcaSetModulation_amount_zero (g : Word F) (calls : List (Env F × Word F)) (h : ∀ c ∈ calls, isFinite c.2 = true) :
    calls.foldl (fun a c => vcaSetModulation c.1 c.2 a) (vcaNew g 0) = vcaNew g 0 := by
  induction calls with
  | nil => rfl
  | cons c calls ih =>
    obtain ⟨hc, hcalls⟩ := List.forall_mem_cons.1 h
    rw [List.foldl_cons, vcaSetModulation_amount_zero _ _ hc, ih hcalls]

/-- Settles O35: the calls leave the VCA as constructed, and its second product, with 1, changes no word but a NaN. -/
theorem unmodulatedVcaIsItsGain : Obligations.UnmodulatedVcaIsItsGain := by
  unfold Obligations.UnmodulatedVcaIsItsGain
  intro F g x calls E hE hcalls
  rw [foldl_vcaSetModulation_amount_zero g calls hcalls]
  refine ⟨vcaNew_cur .., vcaNew_gain .., vcaNew_amt .., ?_⟩
  rw [vcaProcess, vcaNew_gain, vcaNew_cur]
  split
  next hnan => rw [fmul_of_nan (.inl hnan)]; exact hE.nan _
  next hnan => exact fmul_one_right_of_not_nan (Bool.eq_false_of_not_eq_true hnan)

end Sys2Proof.Machine
end

section
/-!
PROOFS. The statements of 44_voice.md: what `INIT` constructs (R86), the pipeline of `STEP` (R87) with its samples free of NaN (U2)
and its sweep of the cutoff (R94), the five setters (R88 to R92), and `RD` (R93).
-/

namespace Sys2Proof.Machine

variable {F : Fmt}

/-! ### INIT (R86) -/

section
variable {nan sr : Word F} (hrate : initOperandOk sr = true)
include hrate

/-- A cutoff from 20 Hz up to half the rate is left alone by the clamp to [20, `SR`/2]. -/
theorem clamp_half_eq_self {c : Word F} (hc : isFinite c = true) (hlo : 20 * 2 ^ unitExp F ≤ valueUnits c)
    (hhi : valueUnits c * 2 ≤ valueUnits sr) : clamp c (lit 20) (fdiv nan sr (lit 2)) = c := by
  obtain ⟨hhalf, hhalfFinite⟩ := half_exact (nan := nan) hrate
  obtain ⟨h20, h20Finite⟩ := valueUnits_lit (F := F) (n := 20) (by norm_num)
  have hlower : valueUnits (lit 20 : Word F) ≤ valueUnits c := by rw [h20]; exact hlo
  have hupper : valueUnits c ≤ valueUnits (fdiv nan sr (lit 2)) := by omega
  exact clamp_of_inRange ((inRange_iff _ _ _).2 ⟨isNaN_of_isFinite hc, isNaN_of_isFinite h20Finite,
    isNaN_of_isFinite hhalfFinite, (valueUnits_le_iff _ _).1 hlower, (valueUnits_le_iff _ _).1 hupper⟩)

/-- From 2000 Hz on, half the rate does not cut a cutoff of 1000 Hz. -/
theorem clamp_1000_of_rate_ge (hge : fge sr (lit 2000) = true) :
    clamp (lit 1000) (lit 20) (fdiv nan sr (lit 2)) = lit 1000 := by
  obtain ⟨-, -, hkey⟩ := (fge_iff _ _).1 hge
  obtain ⟨h1000, h1000Finite⟩ := valueUnits_lit (F := F) (n := 1000) (by norm_num)
  obtain ⟨h2000, -⟩ := valueUnits_lit (F := F) (n := 2000) (by norm_num)
  have hunit : (0 : Int) < 2 ^ unitExp F := by positivity
  rw [← valueUnits_le_iff, h2000] at hkey
  push_cast at h1000 hkey
  exact clamp_half_eq_self hrate h1000Finite (by omega) (by omega)

theorem fge_half_twenty : fge (fdiv nan sr (lit 2)) (lit 20) = true := by
  obtain ⟨-, hhalfFinite⟩ := half_exact (nan := nan) hrate
  exact (fge_iff _ _).2 ⟨isNaN_of_isFinite hhalfFinite, isNaN_lit (by norm_num), twenty_le_half hrate⟩

/-- Below 2000 Hz a cutoff of 1000 Hz is cut to half the rate. -/
theorem clamp_1000_of_rate_lt (hlt : flt sr (lit 2000) = true) :
    clamp (lit 1000) (lit 20) (fdiv nan sr (lit 2)) = fdiv nan sr (lit 2) := by
  obtain ⟨hhalf, hhalfFinite⟩ := half_exact (nan := nan) hrate
  have hhalfNum := isNaN_of_isFinite hhalfFinite
  obtain ⟨-, -, hkey⟩ := (flt_iff _ _).1 hlt
  obtain ⟨h1000, h1000Finite⟩ := valueUnits_lit (F := F) (n := 1000) (by norm_num)
  obtain ⟨h2000, -⟩ := valueUnits_lit (F := F) (n := 2000) (by norm_num)
  rw [← valueUnits_lt_iff, h2000] at hkey
  push_cast at h1000 hkey
  have hbelow : valueUnits (fdiv nan sr (lit 2)) < valueUnits (lit 1000 : Word F) := by omega
  have habove : fgt (lit 1000) (fdiv nan sr (lit 2)) = true :=
    (flt_iff _ _).2 ⟨hhalfNum, isNaN_of_isFinite h1000Finite, (valueUnits_lt_iff _ _).1 hbelow⟩
  exact clamp_of_fgt (fge_half_twenty hrate) habove

end

/-- Settles O11: each cell is what `voiceNew` writes; the cutoff, 1000 Hz, is cut by half the rate exactly below 2000 Hz. -/
theorem initConstructsTheVoice : Obligations.InitConstructsTheVoice := by
  unfold Obligations.InitConstructsTheVoice
  intro s arg
  refine ⟨fun hrate => ?_, exec_init_badArg⟩
  obtain ⟨-, -, -, htenth⟩ := initial_values_inRange s.fw
  refine ⟨_, exec_init_ok hrate, rfl, rfl, rfl, clamp_1000_of_rate_ge hrate, fun hlt nan => ?_, clamp_resonance htenth,
    consistent_recompute (env_valid s) _ _, rfl, rfl, rfl, rfl, rfl⟩
  rw [half_nan nan (s.env.nan .halfNew) hrate]
  exact clamp_1000_of_rate_lt hrate hlt

/-! ### STEP (R87) -/

/-- Settles O13: the four stages are `voiceProcess`'s own, and filtering keeps the resonance. -/
theorem stepRunsThePipeline : Obligations.StepRunsThePipeline := by
  unfold Obligations.StepRunsThePipeline
  intro s
  refine ⟨fun hctor => ?_, fun hctor => exec_notReady hctor (by simp)⟩
  obtain ⟨-, hres, -⟩ := biquadProcess_keeps (E := s.env) (x := (mixedNext s.env s.voice.sr s.voice.osc).1)
    (b := biquadSetModulation s.env s.voice.sr
      (fmul (s.env.nan .depth) (modOscNext s.env s.voice.sr s.voice.lfo).1 (lit 1 4)) s.voice.flt)
  exact ⟨_, _, exec_step_ok hctor, ⟨_, _, _, rfl, rfl, rfl, rfl⟩, rfl, rfl, rfl, rfl, rfl, rfl, hres, rfl⟩

/-! ### The samples (R87, U2) -/

theorem squareOf_eq (p : Word F) : squareOf p = lit 1 ∨ squareOf p = fneg (lit 1) := by
  unfold squareOf; split
  · exact .inl rfl
  · exact .inr rfl

/-- The crossfade of two samples in [-1, 1] stays there, so it is finite (R57). -/
theorem isFinite_mixedNext {E : Env F} {sr : Word F} {m : Mixed F} (hm : m.Inv) :
    isFinite (mixedNext E sr m).1 = true :=
  ((inRange_unit_iff _).1 (crossfadeIsBounded F E _ _ _ hm.mixRange (sineOf_bounds hm.phaseRange) (squareOf_eq _))).1

/-- Halving by a product with 0.5 keeps a word finite. -/
theorem isFinite_fmul_half {nan a : Word F} (ha : isFinite a = true) : isFinite (fmul nan a (lit 1 2)) = true := by
  obtain ⟨hhalf, hfinite⟩ := valueUnits_half F
  have hunit : (0 : Int) < 2 ^ unitExp F := by positivity
  exact (fmul_unit_bounds ha hfinite (by rw [abs_of_nonneg (by omega)]; omega)).1

/-- The VCA as `INIT` leaves it answers a number for every finite input: a product of finite words, times 1 (R81). -/
theorem isNaN_vcaProcess {E : Env F} {g amt x : Word F} (hx : isFinite x = true) (hg : isFinite g = true) :
    isNaN (vcaProcess E (vcaNew g amt) x) = false := by
  have hproduct : isNaN (fmul (E.nan .vcaGain) x g) = false := isNaN_fmul hx hg
  rw [vcaProcess, vcaNew_gain, vcaNew_cur, fmul_one_right_of_not_nan hproduct]
  exact hproduct

/-- Whatever the coefficients are, a finite oscillator sample leaves the filter finite: by its output, or by the guard. -/
theorem isNaN_voiceProcess {E : Env F} {v : Voice F} (hE : E.Valid) (hv : v.Inv) : isNaN (voiceProcess E v).1 = false := by
  obtain ⟨-, hosc, -, hflt, hvca⟩ := (voice_inv_iff v).1 hv
  have hmodulated : historyFinite (biquadSetModulation E v.sr
      (fmul (E.nan .depth) (modOscNext E v.sr v.lfo).1 (lit 1 4)) v.flt) = true := hflt.history
  obtain ⟨-, hfiltered⟩ := historyFinite_process hE (x := (mixedNext E v.sr v.osc).1) hmodulated
  rw [voiceProcess, hvca]
  exact isNaN_vcaProcess (isFinite_fmul_half (hfiltered (isFinite_mixedNext hosc))) (isFinite_finiteParam _)

/-- Settles O49: every stage of the pipeline hands on a finite word, and the VCA answers a number. -/
theorem samplesAreNeverNaN : Obligations.SamplesAreNeverNaN := by
  unfold Obligations.SamplesAreNeverNaN
  intro s hctor hinv
  exact ⟨_, _, exec_step_ok hctor, isNaN_voiceProcess (env_valid s) hinv⟩

/-! ### The sweep of the cutoff (R94) -/

/-- A quarter of a value of `[-n, n]` lies in `[-n/4, n/4]`. -/
theorem quarter_bounds {nan l : Word F} {n : Nat} (hn : n ≤ 4) (hl : inRange l (fneg (lit n)) (lit n) = true) :
    isFinite (fmul nan l (lit 1 4)) = true ∧ -(n * 2 ^ unitExp F : Int) ≤ valueUnits (fmul nan l (lit 1 4)) * 4 ∧
      valueUnits (fmul nan l (lit 1 4)) * 4 ≤ n * 2 ^ unitExp F := by
  obtain ⟨hfinite, hlo, hhi⟩ := (inRange_symm_iff (by omega)).1 hl
  obtain ⟨hquarter, hquarterFinite⟩ := valueUnits_quarter F
  obtain ⟨hend, hendFinite⟩ := valueUnits_fourth F n (by omega)
  have hnegFinite : isFinite (fneg (lit n 4 : Word F)) = true := by rw [isFinite_fneg]; exact hendFinite
  have hunit : (0 : Int) < 2 ^ unitExp F := by positivity
  have hupper : valueUnits (fmul nan l (lit 1 4)) ≤ valueUnits (lit n 4 : Word F) :=
    valueUnits_fmul_le hfinite hquarterFinite hendFinite (by nlinarith)
  have hlower : valueUnits (fneg (lit n 4 : Word F)) ≤ valueUnits (fmul nan l (lit 1 4)) :=
    valueUnits_le_fmul hfinite hquarterFinite hnegFinite (by rw [valueUnits_fneg]; nlinarith)
  have hresult := isFinite_of_valueUnits hnegFinite hendFinite hlower hupper
  rw [valueUnits_fneg] at hlower
  exact ⟨hresult, by linarith, by linarith⟩

/-- A range within [20, 4000] Hz is left alone by the clamp at a rate of at least 8000. -/
theorem clamp_below_4000 {nan sr c : Word F} {a b : Nat} (hsr : isFinite sr = true) (hge : fge sr (lit 8000) = true)
    (ha : 20 ≤ a) (hab : a ≤ b) (hb : b ≤ 4000) (hc : inRange c (lit a) (lit b) = true) :
    clamp c (lit 20) (fdiv nan sr (lit 2)) = c := by
  obtain ⟨-, -, hkey⟩ := (fge_iff _ _).1 hge
  obtain ⟨h8000, -⟩ := valueUnits_lit (F := F) (n := 8000) (by norm_num)
  have hunit : (0 : Int) < 2 ^ unitExp F := by positivity
  rw [← valueUnits_le_iff, h8000] at hkey
  push_cast at hkey
  obtain ⟨hfinite, hlo, hhi⟩ := (inRange_lit_iff (by omega) (by omega)).1 hc
  have ha' : (20 : Int) ≤ a := by exact_mod_cast ha
  have hb' : (b : Int) ≤ 4000 := by exact_mod_cast hb
  exact clamp_half_eq_self ((initOperandOk_iff sr).2 ⟨hsr, by omega⟩) hfinite (by nlinarith) (by nlinarith)

/-- Where the shape's value lies in `[-n, n]`, a `STEP` leaves the cutoff in `[2200 - 450·n, 2200 + 450·n]`. -/
theorem cutoff_of_voiceProcess {E : Env F} {v : Voice F} {n : Nat} (hn : n ≤ 4) (hsr : isFinite v.sr = true)
    (hge : fge v.sr (lit 8000) = true)
    (hvalue : inRange (shapeOf E v.lfo.shape v.lfo.osc.phase) (fneg (lit n)) (lit n) = true) :
    inRange (voiceProcess E v).2.flt.cutoff (lit (2200 - 450 * n)) (lit (2200 + 450 * n)) = true := by
  obtain ⟨hfinite, hlo, hhi⟩ := quarter_bounds (nan := E.nan .depth) hn hvalue
  have hmapped := modulatedCutoff_bounds (E := E) hn hn hfinite hlo hhi
  obtain ⟨hcutoff, -⟩ := biquadProcess_keeps (E := E) (x := (mixedNext E v.sr v.osc).1)
    (b := biquadSetModulation E v.sr (fmul (E.nan .depth) (modOscNext E v.sr v.lfo).1 (lit 1 4)) v.flt)
  rw [voiceProcess_flt, hcutoff, biquadSetModulation_cutoff, modOscNext_value,
    clamp_below_4000 hsr hge (by omega) (by omega) (by omega) hmapped]
  exact hmapped

/-- The range [-1, 1] of the shapes without tanh (41_modulation_oscillator.md R64 to R66). -/
theorem shapeOf_bounds {E : Env F} {p : Word F} {shape : Shape} (hp : isPhase p = true) (h : shape ≠ .smoothSquare) :
    inRange (shapeOf E shape p) (fneg (lit 1)) (lit 1) = true := by
  cases shape with
  | sine => exact sineOf_bounds hp
  | triangle => exact shapeTriangle_bounds hp
  | ramp => exact (shapeRamp_bounds hp).1
  | smoothSquare => exact absurd rfl h

theorem inRange_two_of_one {w : Word F} (h : inRange w (fneg (lit 1)) (lit 1) = true) :
    inRange w (fneg (lit 2)) (lit 2) = true := by
  obtain ⟨hfinite, hlo, hhi⟩ := (inRange_symm_iff (by norm_num)).1 h
  have hunit : (0 : Int) < 2 ^ unitExp F := by positivity
  push_cast at hlo hhi
  exact (inRange_symm_iff (by norm_num)).2 ⟨hfinite, by push_cast; omega, by push_cast; omega⟩

/-- The range [-2, 2] of every shape (41_modulation_oscillator.md R64 to R67). -/
theorem shapeOf_bounds_two {E : Env F} {p : Word F} (hp : isPhase p = true) (shape : Shape) :
    inRange (shapeOf E shape p) (fneg (lit 2)) (lit 2) = true := by
  by_cases h : shape = .smoothSquare
  · rw [h]; exact shapeSmoothSquare_bounds hp
  · exact inRange_two_of_one (shapeOf_bounds hp h)

/-- Settles O50: a quarter of the shape's value is mapped within 450 Hz per unit of it about 2200 Hz, which a rate of at least 8000
does not cut. -/
theorem sweepOfTheCutoff : Obligations.SweepOfTheCutoff := by
  unfold Obligations.SweepOfTheCutoff
  intro s hctor hsr hge hphase
  exact ⟨_, _, exec_step_ok hctor,
    fun hshape => cutoff_of_voiceProcess (n := 1) (by norm_num) hsr hge (shapeOf_bounds hphase hshape),
    cutoff_of_voiceProcess (n := 2) (by norm_num) hsr hge (shapeOf_bounds_two hphase _)⟩

/-! ### The setters (R88 to R92) -/

/-- Every setter is turned away without a Voice, and by a NaN (30_encoding.md R47, R48). -/
theorem setter_rejections {i : Instr} {s : State} {v : BitVec 64} {f : Word s.fw → Voice s.fw}
    (hi : setterOperation s i = some (v, f)) :
    (s.ctor = false → exec i s = .next (s.raise .notReady)) ∧
      (s.ctor = true → isNaN (operand s.fw v) = true → exec i s = .next (s.raise .badArg)) := by
  refine ⟨fun hctor => exec_notReady hctor ?_, fun hctor hx => ?_⟩
  · rintro sr rfl
    cases hi
  · rw [exec_setter hi]
    exact setParameter_badArg hctor hx

/-- Settles O37: both sub-oscillators are reconstructed at the clamped operand. -/
theorem setfSetsBothFrequencies : Obligations.SetfSetsBothFrequencies := by
  unfold Obligations.SetfSetsBothFrequencies
  intro s arg
  obtain ⟨hnotReady, hbadArg⟩ := setter_rejections (i := .setf arg) (s := s) rfl
  obtain ⟨hbounds, -⟩ := bounds_ordered s.fw
  exact ⟨hnotReady, hbadArg, fun hctor hx => ⟨_, exec_setf_ok hctor hx, rfl, inRange_clamp_of_fge hbounds hx⟩⟩

/-- The operand of `SETC`, once clamped to [20, `SR`/2], passes construction's clamp to the same bounds unchanged. -/
theorem voiceSetCutoff_cutoff {E : Env F} {x : Word F} {v : Voice F} (hrate : initOperandOk v.sr = true)
    (hx : isNaN x = false) :
    (voiceSetCutoff E x v).flt.cutoff = clamp x (lit 20) (fdiv (E.nan .halfSetc) v.sr (lit 2)) := by
  rw [voiceSetCutoff_flt, biquadNew_cutoff, half_nan (E.nan .halfNew) (E.nan .halfSetc) hrate,
    clamp_of_inRange (inRange_clamp_half hrate hx)]

/-- Settles O38: half the rate is exact, and the new cutoff is the operand clamped to it. -/
theorem setcReconstructsTheFilter : Obligations.SetcReconstructsTheFilter := by
  unfold Obligations.SetcReconstructsTheFilter
  intro s arg
  obtain ⟨hnotReady, hbadArg⟩ := setter_rejections (i := .setc arg) (s := s) rfl
  refine ⟨hnotReady, hbadArg, fun hctor hx hrate => ?_⟩
  obtain ⟨hhalf, -⟩ := half_exact (nan := s.env.nan .halfSetc) hrate
  have hcutoff := voiceSetCutoff_cutoff (E := s.env) hrate hx
  have hrange := inRange_clamp_half (nan := s.env.nan .halfSetc) hrate hx
  rw [← hcutoff] at hrange
  exact ⟨_, _, exec_setc_ok hctor hx, hhalf, hcutoff, hrange,
    fun habove => hcutoff.trans (clamp_of_fgt (fge_half_twenty hrate) habove), rfl, clamp_of_inRange,
    consistent_recompute (env_valid s) _ _, rfl, rfl, rfl, rfl⟩

/-- The operand of `SETQ`, once clamped to [0.1, 10], passes construction's clamp to [0.1, 20] unchanged. -/
theorem voiceSetResonance_res {E : Env F} {x : Word F} {v : Voice F} (hx : isNaN x = false) :
    (voiceSetResonance E x v).flt.res = clamp x (lit 1 10) (lit 10) := by
  obtain ⟨-, -, -, hbounds, -⟩ := bounds_ordered F
  rw [voiceSetResonance_flt, biquadNew_res, clamp_resonance (inRange_clamp_of_fge hbounds hx)]

/-- Settles O39: the new resonance is the clamped operand, and the present cutoff is clamped again. -/
theorem setqReconstructsTheFilter : Obligations.SetqReconstructsTheFilter := by
  unfold Obligations.SetqReconstructsTheFilter
  intro s arg
  obtain ⟨hnotReady, hbadArg⟩ := setter_rejections (i := .setq arg) (s := s) rfl
  refine ⟨hnotReady, hbadArg, fun hctor hx => ?_⟩
  obtain ⟨-, -, -, hbounds, -⟩ := bounds_ordered s.fw
  have hres := voiceSetResonance_res (E := s.env) (v := s.voice) hx
  have hrange := inRange_clamp_of_fge hbounds hx
  rw [← hres] at hrange
  exact ⟨_, exec_setq_ok hctor hx, hres, hrange, rfl, clamp_of_inRange,
    consistent_recompute (env_valid s) _ _, rfl, rfl, rfl, rfl⟩

/-- Settles O40: the LFO is reconstructed at the clamped operand with its shape. -/
theorem setlRestartsTheLfo : Obligations.SetlRestartsTheLfo := by
  unfold Obligations.SetlRestartsTheLfo
  intro s arg
  obtain ⟨hnotReady, hbadArg⟩ := setter_rejections (i := .setl arg) (s := s) rfl
  obtain ⟨-, -, hbounds, -⟩ := bounds_ordered s.fw
  exact ⟨hnotReady, hbadArg, fun hctor hx => ⟨_, exec_setl_ok hctor hx, rfl, inRange_clamp_of_fge hbounds hx⟩⟩

/-- `-0` is a number of the range [0, 1]. -/
theorem inRange_negZero (F : Fmt) : inRange (fneg 0 : Word F) (lit 0) (lit 1) = true := by cases F <;> decide +kernel

/-- Settles O41: both sub-oscillators are reconstructed at their frequencies, and the clamp leaves `-0` as it is. -/
theorem setmSetsTheMixRatio : Obligations.SetmSetsTheMixRatio := by
  unfold Obligations.SetmSetsTheMixRatio
  intro s arg
  obtain ⟨hnotReady, hbadArg⟩ := setter_rejections (i := .setm arg) (s := s) rfl
  obtain ⟨-, hbounds, -⟩ := bounds_ordered s.fw
  refine ⟨hnotReady, hbadArg, fun hctor hx =>
    ⟨_, exec_setm_ok hctor hx, rfl, inRange_clamp_of_fge hbounds hx, fun hneg => ?_⟩⟩
  rw [hneg]
  exact clamp_of_inRange (inRange_negZero s.fw)

/-! ### RD (R93) -/

/-- `RD` answers the word that stands at the cell's index in the table of 10_state.md R21. -/
theorem cellsInOrder_index (v : Voice F) (c : Cell) : (cellsInOrder v)[c.index.toNat]? = some (voiceRead v c) := by
  cases c with
  | lfoShape =>
    obtain ⟨sr, osc, ⟨lfo, shape⟩, flt, vca⟩ := v
    cases F <;> cases shape <;> rfl
  | _ => rfl

/-- Settles O44: the answer is the word at the cell's index, and it stays the same beside one more response. -/
theorem readCompletesAndChangesNothing : Obligations.ReadCompletesAndChangesNothing := by
  unfold Obligations.ReadCompletesAndChangesNothing
  intro s c hctor
  exact ⟨voiceRead s.voice c, cellsInOrder_index s.voice c, exec_rd_ok hctor,
    exec_rd_ok (s := s.answer (voiceRead s.voice c)) hctor⟩

/-- Among the opcodes of `RD`, those from 0x97 on are the reserved ones (30_encoding.md R45, R49). -/
theorem isReservedOpcode_of_rd : ∀ op : BitVec 8, 0x80 ≤ op.toNat → isReservedOpcode op = decide (0x97 ≤ op.toNat) := by
  decide +kernel

/-- An opcode 0x80 + `k` of a legal index decodes to the `RD` of the cell with index `k`, whatever `cmd_arg` is. -/
theorem decode_rd {c : Command F} (hrd : 0x80 ≤ c.op.toNat) (hlegal : c.op.toNat ≤ 0x96) :
    ∃ cell, decode c = .ok (.rd cell) ∧ c.op.toNat - 0x80 = cell.index.toNat := by
  cases decoded c with
  | rd cell hd op =>
    obtain ⟨-, -, -, hindex, -⟩ := rd_opcode_class cell
    exact ⟨cell, hd, by rw [op, hindex]⟩
  | reserved _ _ hr =>
    rw [isReservedOpcode_of_rd c.op hrd, decide_eq_true_eq] at hr
    omega
  | init _ op | step _ op | setf _ op | setc _ op | setq _ op | setl _ op | setm _ op => simp [op] at hrd

/-- Settles O43: a legal index decodes to the `RD` of its cell; the two rejections are the first two checks of R47. -/
theorem readAnswersTheIndexedCell : Obligations.ReadAnswersTheIndexedCell := by
  unfold Obligations.ReadAnswersTheIndexedCell
  intro s c rest hissued hrd
  have hreserved := isReservedOpcode_of_rd c.op hrd
  obtain ⟨hillegal, hnotReady, -, -⟩ := checksInOrder s c rest hissued
  refine ⟨fun w hw hctor => ?_, fun h => hillegal (by simpa [hreserved] using h), fun hlegal hctor => ?_⟩
  · have hlegal : c.op.toNat ≤ 0x96 := by
      obtain ⟨hlt, -⟩ := List.getElem?_eq_some_iff.1 hw
      have hlength : (cellsInOrder s.voice).length = 23 := rfl
      omega
    obtain ⟨cell, hd, hindex⟩ := decode_rd hrd hlegal
    rw [hindex, cellsInOrder_index] at hw
    cases hw
    exact (step_command hissued hd).trans (exec_rd_ok (s := s.withInput rest) hctor)
  · refine hnotReady (by rw [hreserved, decide_eq_false_iff_not]; omega) hctor ?_
    intro hop
    simp [hop] at hrd

end Sys2Proof.Machine
end

section
/-!
PROOFS. The statements of 60_exceptions.md: the call after the filter's guard (R97), and a rejected command changes nothing (R98).
-/

namespace Sys2Proof.Machine

variable {F : Fmt}

/-! ### The call after the guard (R97) -/

/-- A difference with a zero is the first term, where that is not a zero. -/
theorem fsub_zero_word {nan a z : Word F} (ha : isFinite a = true) (hz : isZero z = true) (h0 : isZero a = false) :
    fsub nan a z = a := by
  have hneg : isZero (fneg z) = true := by rw [isZero, magBits_fneg]; exact hz
  exact (fadd_zero_word ha hneg h0).1

/-- From zero history the four products behind the first are zeros (of either sign), which change no sum that is not a zero. -/
theorem biquadOutput_clear {E : Env F} {b : Biquad F} {x : Word F} (hb : coefficientsFinite b = true)
    (hfinite : isFinite (fmul (E.nan .t0) b.a0 x) = true) (h0 : isZero (fmul (E.nan .t0) b.a0 x) = false) :
    biquadOutput E (biquadClear b) x = fmul (E.nan .t0) b.a0 x := by
  simp only [coefficientsFinite, Bool.and_eq_true] at hb
  obtain ⟨⟨⟨⟨-, ha1⟩, ha2⟩, hb1⟩, hb2⟩ := hb
  have hzero {nan a : Word F} (ha : isFinite a = true) : isZero (fmul nan a 0) = true := by
    rw [fmul_zero_right ha]; exact isZero_pack_zero _
  simp only [biquadOutput, biquadClear_a0, biquadClear_a1, biquadClear_a2, biquadClear_b1, biquadClear_b2,
    biquadClear_x1, biquadClear_x2, biquadClear_y1, biquadClear_y2]
  rw [(fadd_zero_word hfinite (hzero ha1) h0).1, (fadd_zero_word hfinite (hzero ha2) h0).1,
    fsub_zero_word hfinite (hzero hb1) h0, fsub_zero_word hfinite (hzero hb2) h0]

/-- Settles O32: the guard leaves the history zero, so the next output is its first product, which is finite and so answered. -/
theorem outputAfterTheGuard : Obligations.OutputAfterTheGuard := by
  unfold Obligations.OutputAfterTheGuard
  intro F E b xin x hguard hb hfinite h0
  have hnext := biquadOutput_clear hb hfinite h0
  rw [biquadProcess_guard hguard, biquadProcess_finite (by rw [hnext]; exact hfinite)]
  exact hnext

/-! ### Rejections (R98) -/

/-- Settles O42, by the checks of 30_encoding.md R47: without a Voice every command but `INIT` is turned away; past that check a
command is turned away for its operand or carried out. -/
theorem rejectionsChangeNothing : Obligations.RejectionsChangeNothing := by
  unfold Obligations.RejectionsChangeNothing
  intro s i
  by_cases hready : s.ctor = true ∨ (encode s.fw i).op = 0x01
  · obtain ⟨hbadArg, hok⟩ := checkedAnswer hready
    by_cases hpasses : isFormatA (encode s.fw i).op = true → operandPasses (encode s.fw i).op (encode s.fw i).arg = true
    · exact .inl (hok hpasses)
    · rw [Classical.not_imp, Bool.not_eq_true] at hpasses
      obtain ⟨hformat, hbad⟩ := hpasses
      exact .inr ⟨.badArg, by decide, hbadArg hformat hbad⟩
  · obtain ⟨hctor, hop⟩ := not_or.1 hready
    have hinit : ∀ sr, i ≠ .init sr := by
      rintro sr rfl
      exact hop rfl
    exact .inr ⟨.notReady, by decide, exec_notReady (by simpa using hctor) hinit⟩

end Sys2Proof.Machine
end

section
/-!
PROOFS. The statements of 70_reset_and_hazards.md: a `STEP` and the cutoff it finds (R107), and power-on reset (R103).
-/

namespace Sys2Proof.Machine

/-! ### STEP and the cutoff it finds (R107, R94) -/

/-- The modulation replaces the cutoff and derives all five coefficients again (42_biquad_filter.md R76), so of the old filter only
the resonance and the history are left. -/
theorem biquadSetModulation_congr {F : Fmt} {E : Env F} {sr v : Word F} {f g : Biquad F} (hres : f.res = g.res)
    (hx1 : f.x1 = g.x1) (hx2 : f.x2 = g.x2) (hy1 : f.y1 = g.y1) (hy2 : f.y2 = g.y2) :
    biquadSetModulation E sr v f = biquadSetModulation E sr v g := by
  simp only [biquadSetModulation, biquadRecompute, hres, hx1, hx2, hy1, hy2]

/-- The pipeline reads the filter of its Voice through the modulation of the cutoff alone. -/
theorem voiceProcess_withFilter {F : Fmt} {E : Env F} {v : Voice F} {f g : Biquad F}
    (h : ∀ m, biquadSetModulation E v.sr m f = biquadSetModulation E v.sr m g) :
    voiceProcess E { v with flt := f } = voiceProcess E { v with flt := g } := by
  simp only [voiceProcess, h]

/-- Settles O14: the modulation of the cutoff makes the two filters one before the sample is filtered. -/
theorem stepForgetsTheSetCutoff : Obligations.StepForgetsTheSetCutoff := by
  unfold Obligations.StepForgetsTheSetCutoff
  intro s f g hctor hres hx1 hx2 hy1 hy2
  have hvoice := voiceProcess_withFilter (E := s.env) (v := s.voice) (f := f) (g := g) fun _ =>
    biquadSetModulation_congr hres hx1 hx2 hy1 hy2
  have hnext (b : Biquad s.fw) : exec .step { s with voice := { s.voice with flt := b } } =
      .next (s.finish (voiceProcess s.env { s.voice with flt := b }).2 (voiceProcess s.env { s.voice with flt := b }).1) :=
    exec_step_ok hctor
  exact ⟨_, hnext f, by rw [hnext g, hvoice]⟩

/-! ### Power-on reset (R103, R31) -/

/-- Settles O9: `rst` is one case of a step, and writes the cells, `CTOR` and the draw counter alone. -/
theorem powerOnReset : Obligations.PowerOnReset := by
  unfold Obligations.PowerOnReset
  exact ⟨⟨rfl, rfl, rfl⟩, fun _ _ h => ⟨_, _, step_rst h⟩⟩

end Sys2Proof.Machine
end
